-- ==== Sys2Proof/Word.lean ====
section
/-! DEFINITION. Words and bytes of the TIMKOD compression core. -/

namespace Sys2Proof

/-- A control register or a host access of 32 bits (rule R10). -/
abbrev Word := BitVec 32

/-- A byte of a buffer, the source's "symbol" (rule R14). -/
abbrev Byte := BitVec 8

end Sys2Proof
end

