-- ==== Sys2Proof/Syntax.lean ====
section
/-! DEFINITION. The commands of the core, one constructor per row of spec/opcode_table.json (rules R92, R95). -/

namespace Sys2Proof

/-- A buffer number, the value of a `SRC` or `DST` field: `BUF0` to `BUF3` (rules R54, R91). -/
abbrev BufId := Fin 4

/-- A decoded command (rule R95). An operand is the buffer its `SRC` or `DST` field selects (rule R92);
every other operand is a fixed register or table. -/
inductive Instr where
  | nop
  | lzwEnc (src dst : BufId)
  | lzwDec (src dst : BufId)
  | codePack (dst : BufId)
  | codeUnpack (src : BufId)
  | hufFreq (src : BufId)
  | hufBuild
  | hufBook
  | hufEnc (src dst : BufId)
  | hufDec (src dst : BufId)
  | bufCmp (src dst : BufId)
  | reset
  deriving DecidableEq, Repr

end Sys2Proof
end

