-- ==== Sys2Proof/WellFormed.lean ====
section
/-! DEFINITION. Which commands have a legal word: a two-buffer command names two buffers that differ (rule R93). -/

namespace Sys2Proof

/-- `SRC` and `DST` "are both used, and must differ, by `LZW_ENC`, `LZW_DEC`, `HUF_ENC`, `HUF_DEC` and
`BUF_CMP`" (rule R93). The other commands have no constraint on the operands they keep. -/
def Instr.wellFormed : Instr → Bool
  | .nop => true
  | .lzwEnc src dst => src != dst
  | .lzwDec src dst => src != dst
  | .codePack _ => true
  | .codeUnpack _ => true
  | .hufFreq _ => true
  | .hufBuild => true
  | .hufBook => true
  | .hufEnc src dst => src != dst
  | .hufDec src dst => src != dst
  | .bufCmp src dst => src != dst
  | .reset => true

end Sys2Proof
end

