-- ==== Sys2Proof/Decode.lean ====
section
/-! DEFINITION. The command decoder of rule R94, total on every 32-bit word and rejecting by name, the encoder of
rule R99, and the disassembler of rule R108. -/

namespace Sys2Proof

/-- Why a word is illegal, one reason per check of rule R94, in its order. -/
inductive DecodeError where
  /-- `c[31:8] ≠ 0`. -/
  | reservedBits
  /-- `OP` is one of `0xB` to `0xE` (rule R96). -/
  | reservedOpcode
  /-- The command does not use `SRC` and `SRC ≠ 0`. -/
  | srcNotZero
  /-- The command does not use `DST` and `DST ≠ 0`. -/
  | dstNotZero
  /-- A two-buffer command with `SRC = DST`. -/
  | sameBuffer
  deriving DecidableEq, Repr

/-- The opcodes of rule R95. -/
inductive Opcode where
  | nop | lzwEnc | lzwDec | codePack | codeUnpack | hufFreq | hufBuild | hufBook | hufEnc | hufDec | bufCmp | reset
  deriving DecidableEq, Repr

/-- The value of the `OP` field, column 1 of rule R95's table. -/
def Opcode.code : Opcode → Nat
  | .nop => 0x0
  | .lzwEnc => 0x1
  | .lzwDec => 0x2
  | .codePack => 0x3
  | .codeUnpack => 0x4
  | .hufFreq => 0x5
  | .hufBuild => 0x6
  | .hufBook => 0x7
  | .hufEnc => 0x8
  | .hufDec => 0x9
  | .bufCmp => 0xA
  | .reset => 0xF

/-- The opcode of an `OP` field; `0xB` to `0xE` are reserved (rules R95, R96). -/
def Opcode.ofCode : Nat → Option Opcode
  | 0x0 => some .nop
  | 0x1 => some .lzwEnc
  | 0x2 => some .lzwDec
  | 0x3 => some .codePack
  | 0x4 => some .codeUnpack
  | 0x5 => some .hufFreq
  | 0x6 => some .hufBuild
  | 0x7 => some .hufBook
  | 0x8 => some .hufEnc
  | 0x9 => some .hufDec
  | 0xA => some .bufCmp
  | 0xF => some .reset
  | _ => none

/-- `uses_src` of rule R94, by rule R93. -/
def Opcode.usesSrc : Opcode → Bool
  | .lzwEnc | .lzwDec | .hufEnc | .hufDec | .bufCmp | .codeUnpack | .hufFreq => true
  | .nop | .hufBuild | .hufBook | .reset | .codePack => false

/-- `uses_dst` of rule R94, by rule R93. -/
def Opcode.usesDst : Opcode → Bool
  | .lzwEnc | .lzwDec | .hufEnc | .hufDec | .bufCmp | .codePack => true
  | .nop | .hufBuild | .hufBook | .reset | .codeUnpack | .hufFreq => false

/-- The command of an opcode and its two fields; a field the opcode does not use is dropped. -/
def Opcode.instr (op : Opcode) (src dst : BufId) : Instr :=
  match op with
  | .nop => .nop
  | .lzwEnc => .lzwEnc src dst
  | .lzwDec => .lzwDec src dst
  | .codePack => .codePack dst
  | .codeUnpack => .codeUnpack src
  | .hufFreq => .hufFreq src
  | .hufBuild => .hufBuild
  | .hufBook => .hufBook
  | .hufEnc => .hufEnc src dst
  | .hufDec => .hufDec src dst
  | .bufCmp => .bufCmp src dst
  | .reset => .reset

/-- The field `c[hi:lo]` of rule R13 with `w = hi - lo + 1` bits, as a number. -/
def field (c : Word) (lo w : Nat) : Nat := (c.extractLsb' lo w).toNat

/-- The `OP` field, bits 3:0 (rule R91). -/
def opField (c : Word) : Nat := field c 0 4

/-- The `SRC` field, bits 5:4 (rules R91, R92). -/
def srcField (c : Word) : BufId := ⟨field c 4 2, (c.extractLsb' 4 2).isLt⟩

/-- The `DST` field, bits 7:6 (rules R91, R92). -/
def dstField (c : Word) : BufId := ⟨field c 6 2, (c.extractLsb' 6 2).isLt⟩

/-- The `RES` field, bits 31:8 (rule R91). -/
def resField (c : Word) : Nat := field c 8 24

/-- Decoding, the checks of rule R94 in its order. It depends on the word alone (rule R98). -/
def decode (c : Word) : Except DecodeError Instr :=
  if resField c ≠ 0 then .error .reservedBits
  else
    match Opcode.ofCode (opField c) with
    | none => .error .reservedOpcode
    | some op =>
      if op.usesSrc = false ∧ srcField c ≠ 0 then .error .srcNotZero
      else if op.usesDst = false ∧ dstField c ≠ 0 then .error .dstNotZero
      else if op.usesSrc = true ∧ op.usesDst = true ∧ srcField c = dstField c then .error .sameBuffer
      else .ok (op.instr (srcField c) (dstField c))

/-- The command of a legal word; `none` for an illegal one. -/
def decode? (c : Word) : Option Instr :=
  match decode c with
  | .ok i => some i
  | .error _ => none

/-- The decoder on a row of the opcode table. A command is one 32-bit register write (rules R34, R62), so the
table's bit numbers are those of the word; bits above `nbits` are 0 (log entry 13). -/
def decodeTableWord (nbits w : Nat) : Option Instr := decode? (BitVec.ofNat 32 (w % 2 ^ nbits))

/-- `enc(op, src, dst) = op + 16·src + 64·dst` (rule R99). -/
def enc (op : Opcode) (src dst : BufId) : Word := BitVec.ofNat 32 (op.code + 16 * src.val + 64 * dst.val)

/-- The word of a command, "with `src = 0` or `dst = 0` where rule R93 requires it" (rule R99). -/
def encode : Instr → Word
  | .nop => enc .nop 0 0
  | .lzwEnc src dst => enc .lzwEnc src dst
  | .lzwDec src dst => enc .lzwDec src dst
  | .codePack dst => enc .codePack 0 dst
  | .codeUnpack src => enc .codeUnpack src 0
  | .hufFreq src => enc .hufFreq src 0
  | .hufBuild => enc .hufBuild 0 0
  | .hufBook => enc .hufBook 0 0
  | .hufEnc src dst => enc .hufEnc src dst
  | .hufDec src dst => enc .hufDec src dst
  | .bufCmp src dst => enc .bufCmp src dst
  | .reset => enc .reset 0 0

/-- `b0` to `b3`, the names of `BUF0` to `BUF3` (rule R100). -/
def bufName : BufId → String
  | 0 => "b0"
  | 1 => "b1"
  | 2 => "b2"
  | 3 => "b3"

/-- The syntax of a command (rule R100): the source operand comes first. -/
def Instr.print : Instr → String
  | .nop => "NOP"
  | .lzwEnc src dst => "LZW_ENC " ++ bufName src ++ ", " ++ bufName dst
  | .lzwDec src dst => "LZW_DEC " ++ bufName src ++ ", " ++ bufName dst
  | .codePack dst => "CODE_PACK " ++ bufName dst
  | .codeUnpack src => "CODE_UNPACK " ++ bufName src
  | .hufFreq src => "HUF_FREQ " ++ bufName src
  | .hufBuild => "HUF_BUILD"
  | .hufBook => "HUF_BOOK"
  | .hufEnc src dst => "HUF_ENC " ++ bufName src ++ ", " ++ bufName dst
  | .hufDec src dst => "HUF_DEC " ++ bufName src ++ ", " ++ bufName dst
  | .bufCmp src dst => "BUF_CMP " ++ bufName src ++ ", " ++ bufName dst
  | .reset => "RESET"

/-- One hexadecimal digit. -/
def hexDigit (n : Nat) : Char := (['0', '1', '2', '3', '4', '5', '6', '7', '8', '9', 'A', 'B', 'C', 'D', 'E', 'F']).getD n '0'

/-- The `k` hexadecimal digits of `n`, most significant first. -/
def hexDigits : Nat → Nat → List Char
  | 0, _ => []
  | k + 1, n => hexDigit (n / 16 ^ k % 16) :: hexDigits k n

/-- Disassembly (rule R108): a legal word prints in the syntax of rule R100, an illegal one as `.word`. -/
def disassemble (c : Word) : String :=
  match decode c with
  | .ok i => i.print
  | .error _ => ".word 0x" ++ String.ofList (hexDigits 8 c.toNat)

end Sys2Proof
end

