-- ==== Sys2Proof/Machine/Bits.lean ====
section
/-! DEFINITION. The numbers and bit streams of rules R12, R13, R60 and the packing primitives of rules R141 to R146. -/

namespace Sys2Proof.Machine

/-- The number of `v` from `w` on, `v` below `w + fuel`, with `2^v < x`. -/
def clog2From : Nat → Nat → Nat → Nat
  | 0, _, _ => 0
  | fuel + 1, w, x => if 2 ^ w < x then clog2From fuel (w + 1) x + 1 else 0

/-- `clog2(x)`, "the least `w ≥ 0` with `2^w ≥ x`" (rule R12): the number of `w` with `2^w < x`, all of them
below `x`. -/
def clog2 (x : Nat) : Nat := clog2From x 0 x

/-- `bin_w(c)`: the `w` low bits of `c`, most significant first (rule R13). -/
def bin : Nat → Nat → List Bool
  | 0, _ => []
  | w + 1, c => c.testBit w :: bin w c

/-- `num(bs)`: the value of a bit list read most significant first (rule R13). -/
def num (bs : List Bool) : Nat := bs.foldl (fun n b => 2 * n + b.toNat) 0

/-- The stream bits of a list of bytes: the first bit is bit 7 of byte 0 (rule R60). -/
def bitsOfBytes (bytes : List Byte) : List Bool := bytes.flatMap fun b => bin 8 b.toNat

/-- The first `n` bytes of a bit list, each from eight bits, most significant first (rules R60, R141). -/
def bytesOfBits : Nat → List Bool → List Byte
  | 0, _ => []
  | n + 1, bits => BitVec.ofNat 8 (num (bits.take 8)) :: bytesOfBits n (bits.drop 8)

/-- The number of pad bits after a stream of `len` bits: "from 0 to 7" (rule R143). -/
def padLen (len : Nat) : Nat := (8 - len % 8) % 8

/-- The bytes of `PackBits(bits, pad)` (rule R141). -/
def packBits (bits : List Bool) (pad : Bool) : List Byte :=
  bytesOfBits ((bits.length + padLen bits.length) / 8) (bits ++ List.replicate (padLen bits.length) pad)

/-- The codes of a stream, each in `w` bits, in emission order (rule R142). -/
def codeBits (w : Nat) (codes : List Nat) : List Bool := codes.flatMap (bin w)

/-- The bytes of `PackCodes(codes, w)`: padded with 1-bits (rule R142). Its length in bits is that of `codeBits`. -/
def packCodes (codes : List Nat) (w : Nat) : List Byte := packBits (codeBits w codes) true

/-- The first `n` chunks of `w` bits, as numbers (rule R146). -/
def chunks (w : Nat) : Nat → List Bool → List Nat
  | 0, _ => []
  | n + 1, bits => num (bits.take w) :: chunks w n (bits.drop w)

/-- `UnpackCodes` on the stream bits: `N div w` codes; "ignores the last `N mod w` bits" (rule R146). -/
def unpackCodes (bits : List Bool) (w : Nat) : List Nat := chunks w (bits.length / w) bits

/-- `⌈n/8⌉`, the bytes that hold `n` stream bits (rules R142, R145). -/
def bytesFor (n : Nat) : Nat := (n + 7) / 8

end Sys2Proof.Machine
end

