-- ==== Sys2Proof/Config.lean ====
section
/-! DEFINITION. What an implementation fixes (rules R7, R8) and the free values: constants with no body,
so that no proof can see a value of one. -/

namespace Sys2Proof

/-- The two parameters of an implementation. Each is held as its distance from its least legal value, so
that a value outside the range of rule R7 or R8 cannot be written down. -/
structure Params where
  /-- `BUF_CAP - 1`, so `1 ≤ BUF_CAP ≤ 2^24` (rule R7). -/
  bufCapLess1 : Fin 16777216
  /-- `DICT_CAP - 256`, so `256 ≤ DICT_CAP ≤ 2^24` (rule R8). -/
  dictCapLess256 : Fin 16776961
  deriving DecidableEq, Repr, Inhabited

/-- `BUF_CAP`, the bytes of each buffer (rule R7). -/
def Params.bufCap (p : Params) : Nat := p.bufCapLess1.val + 1

/-- `DICT_CAP`, the largest `MAX_DICT` the core accepts (rule R8). -/
def Params.dictCap (p : Params) : Nat := p.dictCapLess256.val + 256

/-- `CODE_CAP = BUF_CAP`, the entries of the code memory (rule R9). -/
def Params.codeCap (p : Params) : Nat := p.bufCap

/-- The parameters of the implementation that `State.reset` describes (log entry 1). -/
opaque Config.params : Params

/-- The value of the k-th host read that the spec leaves unspecified, a read while `BUSY = 1`
(rule R84, log entry 5). -/
opaque Config.busyRead : Nat → Word

/-- How many host steps come between the k-th issue and its engine step, where `HostAgent.schedule` names no
number: finitely many, and no rule bounds them (rule R86, log entry 6). -/
opaque Config.engineDelay : Nat → Nat

end Sys2Proof
end

