-- ==== Sys2Proof/Machine/State.lean ====
section
/-! DEFINITION. The state of the core and of its host, as plain data (rule R20), the reasons a step can stop, and the
state after hardware reset (rule R261). -/

namespace Sys2Proof.Machine

/-- The error codes `STATUS.ERR` can hold (rule R221). Codes 8 to 15 are "never raised" and have no constructor
(rule R28). -/
inductive ErrCode where
  | none
  | malformedCode
  | truncatedStream
  | roundtripMismatch
  | illegalCommand
  | configError
  | capacityError
  | treeError
  deriving DecidableEq, Repr

/-- The fields of `STATUS` (rule R25); its reserved bits read 0 and are no state. -/
structure Status where
  /-- Bit 0 (rule R26); also the engine's one bit of state (rule R55). -/
  busy : Bool
  /-- Bit 1 (rule R27). -/
  done : Bool
  /-- Bits 7:4 (rule R28). -/
  err : ErrCode
  /-- Bit 8 (rule R29). -/
  empty : Bool
  /-- Bit 9 (rule R30). -/
  frozen : Bool
  /-- Bit 12 (rule R31). -/
  treeValid : Bool
  /-- Bit 13 (rule R32). -/
  bookValid : Bool
  /-- Bit 16 (rule R33). -/
  werr : Bool
  deriving DecidableEq, Repr

/-- A slot of the node arena (rule R49): absent, a leaf with its symbol and count, or an internal node with its
aggregate frequency and its two children. The fields the rule makes 0 are not stored. -/
inductive Slot where
  | absent
  | leaf (sym : Byte) (freq : BitVec 40)
  | internal (freq : BitVec 40) (left right : BitVec 9)
  deriving DecidableEq, Repr

/-- The size of a host access (rule R71): 1, 2 or 4 bytes. -/
inductive Size where
  | s8
  | s16
  | s32
  deriving DecidableEq, Repr

/-- What the host, or the platform behind it, does next: the host accesses of rules R71 and R101, the
pseudo-instructions of rules R105 and R106 that decide something, and the reset input of rule R260. -/
inductive HostOp where
  /-- `RD8`, `RD16`, `RD32 addr` (rule R101). -/
  | read (size : Size) (addr : Word)
  /-- `WR8`, `WR16`, `WR32 addr, v` (rule R101); a shorter access writes the low bits of `v` (log entry 14). -/
  | write (size : Size) (addr : Word) (v : Word)
  /-- `WAIT` (rule R105). -/
  | wait
  /-- `CHECK e` (rule R106). DESIGN CHOICE: the rule gives `e` no range, so `e` is any number, and one that is no code of
  rule R221 always fails (log entry 20). -/
  | check (e : Nat)
  /-- `EXPECT r, v` for the register at `addr` (rule R106). -/
  | expect (addr : Word) (v : Word)
  /-- The platform asserts and releases hardware reset (rule R260). DESIGN CHOICE: both are one transition, so no host access
  falls while reset is asserted; the rule does not say what such an access would do (log entry 10). -/
  | hardReset
  deriving DecidableEq, Repr

/-- The host agent (rule R70): the model's own fields, not the spec's (log entries 5, 6 and 7). -/
structure HostAgent where
  /-- The host program still to run. -/
  host : List HostOp
  /-- The values its reads returned, newest first. -/
  reads : List Word
  /-- For each coming issue, the number of host steps that come before its engine step (rule R86). -/
  schedule : List Nat
  /-- Host steps left before the engine step of the pending command. -/
  delay : Nat
  /-- How many free values have been drawn. -/
  draws : Nat
  deriving DecidableEq, Repr

/-- The architectural state of the core (rule R20) and the host beside it. -/
structure State where
  /-- `BUF_CAP` and `DICT_CAP`, read in `BUF_CAP_R` and `DICT_CAP_R` (rule R45); constant. -/
  params : Params
  /-- `CTRL.IRQ_EN` (rule R24). -/
  irqEn : Bool
  /-- `STATUS` (rule R25). -/
  status : Status
  /-- `CMD` (rule R34). -/
  cmd : Word
  /-- `MAX_DICT` (rule R35). -/
  maxDict : Word
  /-- `BIT_WIDTH` (rule R36). -/
  bitWidth : Word
  /-- `CODE_COUNT` (rule R37). -/
  codeCount : Word
  /-- `NEXT_CODE` (rule R38). -/
  nextCode : Word
  /-- `ERR_INFO` (rule R39). -/
  errInfo : Word
  /-- `ERR_VALUE` (rule R40). -/
  errValue : Word
  /-- `NODE_COUNT` (rule R41). -/
  nodeCount : Word
  /-- `MAX_CODE_LEN` (rule R42). -/
  maxCodeLen : Word
  /-- `BUF0_LEN` to `BUF3_LEN` (rule R43). -/
  bufLen : Vector Word 4
  /-- `BUF0_BITS` to `BUF3_BITS` (rule R44). -/
  bufBits : Vector Word 4
  /-- `FREQ` (rule R48). -/
  freq : Vector Word 256
  /-- `NODE` (rule R49). -/
  node : Vector Slot 511
  /-- `BOOK` (rule R51): the code of each symbol, first edge first; its `len` is the list's length. -/
  book : Vector (List Bool) 256
  /-- `CODES` (rule R53): the entries written since power-on, by index, ascending (rule R59). -/
  codes : List (Nat × Word)
  /-- `BUF0` to `BUF3` (rule R54): the bytes written since power-on, by host address, ascending (rule R59). -/
  mem : List Host.Cell
  /-- The host agent (rule R70). -/
  agent : HostAgent
  deriving DecidableEq, Repr

/-- Why the machine stops. None of these is an error of the core (rule R229): each ends the host program. -/
inductive Fault where
  /-- A host access that is misaligned, of a wrong size or unmapped (rules R63, R64, R67, R72). Raised by `hostRead`
  and `hostWrite`. Safe: the spec stops the host program too. -/
  | busError (addr : Word) (size : Size)
  /-- A command or a host read used a buffer byte or a `CODES` entry that nothing has written (rule R59). Raised by
  `complete` and `hostRead`. Safe: hardware returns some value and goes on. -/
  | unwrittenRead (addr : Nat)
  /-- `CHECK` found another error code, the one given (rule R106). Raised by `hostStep`. Safe: the spec stops there. -/
  | checkFailed (err : ErrCode)
  /-- `EXPECT` read another value, the one given (rule R106). Raised by `hostStep`. Safe: the spec stops there. -/
  | expectFailed (addr : Word) (got : Word)
  deriving DecidableEq, Repr

/-- Why an instruction is refused. -/
inductive Refusal where
  /-- The instruction has no meaning in this model. Raised by an arm of `exec` only, and by none at present. Safe: the
  machine stops where hardware goes on. -/
  | notModelled (mnemonic : String)
  deriving DecidableEq, Repr

/-- `STATUS` after hardware reset (rule R261). -/
def Status.reset : Status :=
  { busy := false, done := false, err := .none, empty := false, frozen := false,
    treeValid := false, bookValid := false, werr := false }

/-- A host with nothing to do. -/
def HostAgent.idle : HostAgent := { host := [], reads := [], schedule := [], delay := 0, draws := 0 }

/-- The state after hardware reset of an implementation with parameters `p` (rules R58, R261): buffers and `CODES`
are unwritten (rule R263). -/
def State.resetOf (p : Params) : State :=
  { params := p
    irqEn := false
    status := Status.reset
    cmd := 0
    maxDict := 256
    bitWidth := 8
    codeCount := 0
    nextCode := 256
    errInfo := 0
    errValue := 0
    nodeCount := 0
    maxCodeLen := 0
    bufLen := Vector.replicate 4 0
    bufBits := Vector.replicate 4 0
    freq := Vector.replicate 256 0
    node := Vector.replicate 511 .absent
    book := Vector.replicate 256 []
    codes := []
    mem := []
    agent := HostAgent.idle }

/-- The machine right after reset (rule R261), for the implementation's own parameters. -/
def State.reset : State := State.resetOf Config.params

end Sys2Proof.Machine
end

