-- ==== Sys2Proof/Machine/Ops.lean ====
section
/-! DEFINITION. The named operations over the state: memory and code memory, how a command ends (rules R16, R82, R83,
R226), how one is issued (rule R81), and the writes commands commit. -/

namespace Sys2Proof.Machine

/-! ### Cells: the storage of the buffers and of CODES

Cells are listed by strictly rising key, and only the written ones: an unlisted cell has no value (rule R59). -/

/-- The value of a cell, if one was written. -/
def cellGet {α : Type} : List (Nat × α) → Nat → Option α
  | [], _ => none
  | (b, v) :: m, a => if a = b then some v else cellGet m a

/-- Write one cell, in its place. -/
def cellPut {α : Type} : List (Nat × α) → Nat → α → List (Nat × α)
  | [], a, v => [(a, v)]
  | (b, u) :: m, a, v =>
    if a < b then (a, v) :: (b, u) :: m
    else if a = b then (a, v) :: m
    else (b, u) :: cellPut m a v

/-- Write the cells `base`, `base + 1`, … in order. -/
def cellPutRun {α : Type} : List (Nat × α) → Nat → List α → List (Nat × α)
  | m, _, [] => m
  | m, base, v :: vs => cellPutRun (cellPut m base v) (base + 1) vs

/-- Keys rise strictly: the one canonical form of a list of cells. -/
abbrev cellsWf {α : Type} (m : List (Nat × α)) : Prop := (m.map Prod.fst).Pairwise (· < ·)

/-- The canonical form of the buffers' memory. -/
abbrev Memory.wf (m : List Host.Cell) : Prop := cellsWf m

/-! ### Tables -/

/-- The table of `n` entries whose entry `i` is `f i`. -/
def tableOf {α : Type} (n : Nat) (f : Nat → α) : Vector α n := ⟨((List.range n).map f).toArray, by simp⟩

/-! ### How a command ends -/

/-- Why the evaluation of a command stopped short of a result. -/
inductive Stop where
  /-- `raise E(info, value)` (rule R16). -/
  | raise (e : ErrCode) (info value : Nat)
  /-- The command read a cell nothing has written: `UnwrittenRead(address)` (rule R59). -/
  | unwritten (addr : Nat)
  deriving DecidableEq, Repr

/-- Go on if `p` holds, else stop: the checks of a command's pseudocode. -/
def require (p : Prop) [Decidable p] (stop : Stop) : Except Stop Unit := if p then .ok () else .error stop

/-- What the completion step always does: `BUSY ← 0; DONE ← 1` (rule R82). -/
def State.finish (s : State) : State := { s with status := { s.status with busy := false, done := true } }

/-- What an error records: `STATUS.ERR`, `ERR_INFO` and `ERR_VALUE`, and nothing else (rules R82, R225, R226). -/
def State.recordError (s : State) (e : ErrCode) (info value : Nat) : State :=
  { s with
    status := { s.status with err := e }
    errInfo := BitVec.ofNat 32 info
    errValue := BitVec.ofNat 32 value }

/-- Completion (rule R82): a result is committed whole (rule R83); a raised error commits only its record (rules R226,
R233); a read of an unwritten cell is the model fault (rule R59). It stands in place of trap entry (rule R233): no
control is transferred. -/
def complete (s : State) (r : Except Stop State) : Host.Outcome State Fault Refusal :=
  match r with
  | .ok t => .next t.finish
  | .error (.raise e info value) => .next (s.recordError e info value).finish
  | .error (.unwritten a) => .fault (.unwrittenRead a)

/-- The writes of an issue (rule R81). It stands in place of a return from a trap (rule R234): it clears the error record. -/
def State.latch (s : State) (c : Word) : State :=
  { s with
    cmd := c
    status := { s.status with busy := true, done := false, err := .none, empty := false, frozen := false }
    errInfo := 0
    errValue := 0 }

/-! ### Addresses and reads of cells -/

/-- `BUFBASE(n)` (rule R54). -/
def bufBase (n : BufId) : Nat := 0x10000000 * (n.val + 1)

/-- The host address of `CODES[0]` (rule R53). -/
def codesBase : Nat := 0x04000000

/-- `B[n][i]` for a command: `MemRead(BUFBASE(n) + i, 1)` (rules R15, R73, R79). -/
def State.readByte (s : State) (n : BufId) (i : Nat) : Except Stop Byte :=
  match cellGet s.mem (bufBase n + i) with
  | some b => .ok b
  | none => .error (.unwritten (bufBase n + i))

/-- `B[n][i .. i + k)`, in order. -/
def State.readBytes (s : State) (n : BufId) : Nat → Nat → Except Stop (List Byte)
  | _, 0 => .ok []
  | i, k + 1 => do
    let b ← s.readByte n i
    let bs ← s.readBytes n (i + 1) k
    .ok (b :: bs)

/-- `CODES[i]` for a command (rules R53, R59). -/
def State.readCode (s : State) (i : Nat) : Except Stop Word :=
  match cellGet s.codes i with
  | some c => .ok c
  | none => .error (.unwritten (codesBase + 4 * i))

/-- The `present` bit of a slot (rule R49). -/
def Slot.present : Slot → Bool
  | .absent => false
  | .leaf _ _ => true
  | .internal _ _ _ => true

/-- The `leaf` bit of a slot (rule R49). -/
def Slot.isLeaf : Slot → Bool
  | .absent => false
  | .leaf _ _ => true
  | .internal _ _ _ => false

/-- The `sym` field of a slot; 0 in an internal node and an absent slot (rule R49). -/
def Slot.sym : Slot → Byte
  | .absent => 0
  | .leaf v _ => v
  | .internal _ _ _ => 0

/-- The `freq` field of a slot; 0 in an absent slot (rule R49). -/
def Slot.freq : Slot → BitVec 40
  | .absent => 0
  | .leaf _ f => f
  | .internal f _ _ => f

/-- The `left` field of a slot; 0 in a leaf and an absent slot (rule R49). -/
def Slot.left : Slot → BitVec 9
  | .absent => 0
  | .leaf _ _ => 0
  | .internal _ l _ => l

/-- The `right` field of a slot; 0 in a leaf and an absent slot (rule R49). -/
def Slot.right : Slot → BitVec 9
  | .absent => 0
  | .leaf _ _ => 0
  | .internal _ _ r => r

/-- `BOOK[v].code` (rule R51). -/
def State.bookCode (s : State) (v : Byte) : List Bool := s.book[v.toNat]'v.isLt

/-- `FREQ[v]` (rule R48). -/
def State.freqOf (s : State) (v : Byte) : Word := s.freq[v.toNat]'v.isLt

/-! ### The writes commands commit -/

/-- `B[n][0..|bytes|) ← bytes; BUFn_LEN ← |bytes|; BUFn_BITS ← nbits`; the bytes beyond keep their values (rules R54,
R73, R271). -/
def State.writeOutput (s : State) (n : BufId) (bytes : List Byte) (nbits : Nat) : State :=
  { s with
    mem := cellPutRun s.mem (bufBase n) bytes
    bufLen := s.bufLen.set n (BitVec.ofNat 32 bytes.length)
    bufBits := s.bufBits.set n (BitVec.ofNat 32 nbits) }

/-- `CODES[0..|codes|) ← codes; CODE_COUNT ← |codes|`; the entries beyond keep their values (rule R53). -/
def State.writeCodes (s : State) (codes : List Nat) : State :=
  { s with
    codes := cellPutRun s.codes 0 (codes.map (BitVec.ofNat 32))
    codeCount := BitVec.ofNat 32 codes.length }

/-- `NEXT_CODE ← n` (rule R38). -/
def State.setNextCode (s : State) (n : Nat) : State := { s with nextCode := BitVec.ofNat 32 n }

/-- `BIT_WIDTH ← w` (rule R36). -/
def State.setBitWidth (s : State) (w : Nat) : State := { s with bitWidth := BitVec.ofNat 32 w }

/-- All 256 entries of `FREQ` (rule R48). -/
def State.setFreq (s : State) (f : Vector Word 256) : State := { s with freq := f }

/-- The whole arena and `NODE_COUNT`; a new tree is valid and makes the codebook stale (rules R31, R32, R166). -/
def State.setTree (s : State) (node : Vector Slot 511) (count : Nat) : State :=
  { s with
    node := node
    nodeCount := BitVec.ofNat 32 count
    status := { s.status with treeValid := true, bookValid := false } }

/-- The whole codebook and `MAX_CODE_LEN`; the codebook is valid (rules R32, R172). -/
def State.setBook (s : State) (book : Vector (List Bool) 256) (maxLen : Nat) : State :=
  { s with
    book := book
    maxCodeLen := BitVec.ofNat 32 maxLen
    status := { s.status with bookValid := true } }

/-- Every register, `STATUS` field and table at its reset value; `CMD`, the buffers' contents and `CODES` are kept
(rules R201, R261). The host is no part of the core. -/
def State.softReset (s : State) : State :=
  { State.resetOf s.params with cmd := s.cmd, codes := s.codes, mem := s.mem, agent := s.agent }

/-- Hardware reset (rules R260, R261): every piece of state at its reset value; buffers and `CODES` become unspecified,
so unwritten (log entry 10). -/
def State.hardReset (s : State) : State := { State.resetOf s.params with agent := s.agent }

end Sys2Proof.Machine
end

