-- ==== Sys2Proof/Machine/Flags.lean ====
section
/-! DEFINITION. The flags of the core, all of them in `STATUS` (rules R25, R47), and the interrupt output (rule R230). -/

namespace Sys2Proof.Machine

/-- The 4-bit code of an error (rule R221). -/
def ErrCode.code : ErrCode → Nat
  | .none => 0
  | .malformedCode => 1
  | .truncatedStream => 2
  | .roundtripMismatch => 3
  | .illegalCommand => 4
  | .configError => 5
  | .capacityError => 6
  | .treeError => 7

/-- `STATUS` as the host reads it: each field in its place, reserved bits 0 (rule R25). -/
def Status.toWord (st : Status) : Word :=
  BitVec.ofNat 32 (st.busy.toNat + 2 ^ 1 * st.done.toNat + 2 ^ 4 * st.err.code + 2 ^ 8 * st.empty.toNat
    + 2 ^ 9 * st.frozen.toNat + 2 ^ 12 * st.treeValid.toNat + 2 ^ 13 * st.bookValid.toNat + 2 ^ 16 * st.werr.toNat)

/-- A host write to `STATUS`: a 1 clears `DONE` (bit 1) and `WERR` (bit 16), "and changes nothing else" (rule R25). -/
def Status.writeOneToClear (st : Status) (v : Word) : Status :=
  { st with done := st.done && !v.getLsbD 1, werr := st.werr && !v.getLsbD 16 }

/-- `STATUS.EMPTY`, the info bit of a command that succeeds on empty input (rules R29, R47). -/
def State.setEmpty (s : State) (empty : Bool) : State := { s with status := { s.status with empty := empty } }

/-- `STATUS.FROZEN`, the info bit of an LZW command that succeeds (rules R30, R47). -/
def State.setFrozen (s : State) (frozen : Bool) : State := { s with status := { s.status with frozen := frozen } }

/-- `STATUS.WERR ← 1` (rule R33). -/
def State.setWerr (s : State) : State := { s with status := { s.status with werr := true } }

/-- `IRQ = CTRL.IRQ_EN ∧ STATUS.DONE` at every instant (rule R230). -/
def State.irq (s : State) : Bool := s.irqEn && s.status.done

/-- The number of the `TREE_VALID` bit, which `TREE_ERROR` reports (rule R225). -/
def treeValidBit : Nat := 12

/-- The number of the `BOOK_VALID` bit, which `TREE_ERROR` reports (rule R225). -/
def bookValidBit : Nat := 13

/-- The locator of a failed precondition, "never a stream index" (rule R225). -/
def noIndex : Nat := 0xFFFFFFFF

/-- `TREE_VALID` is needed, else `TREE_ERROR(0xFFFFFFFF, 12)` (rules R169, R178). -/
def State.needTree (s : State) : Except Stop Unit :=
  require (s.status.treeValid = true) (.raise .treeError noIndex treeValidBit)

/-- `BOOK_VALID` is needed, else `TREE_ERROR(0xFFFFFFFF, 13)` (rule R174). -/
def State.needBook (s : State) : Except Stop Unit :=
  require (s.status.bookValid = true) (.raise .treeError noIndex bookValidBit)

end Sys2Proof.Machine
end

