-- ==== Sys2Proof/Machine/Operands.lean ====
section
/-! DEFINITION. The operands of the commands (rule R92): each register is read and checked at its use (rule R10), each
failed check is a `CONFIG_ERROR` with the register's host address and value (rule R225). -/

namespace Sys2Proof.Machine

/-- `W_MAX = clog2(DICT_CAP)` (rule R9). -/
def wMax (p : Params) : Nat := clog2 p.dictCap

/-- The host address of `BUFn_LEN` (rule R43). -/
def lenAddr (n : BufId) : Nat := 0x40 + 8 * n.val

/-- The host address of `BUFn_BITS` (rule R44). -/
def bitsAddr (n : BufId) : Nat := 0x44 + 8 * n.val

/-- `BUFn_LEN` as a number. -/
def State.len (s : State) (n : BufId) : Nat := s.bufLen[n].toNat

/-- `BUFn_BITS` as a number. -/
def State.bits (s : State) (n : BufId) : Nat := s.bufBits[n].toNat

/-- `BUFn_LEN`, which must not exceed `BUF_CAP` (rule R43). -/
def State.lenOperand (s : State) (n : BufId) : Except Stop Nat := do
  require (s.len n ≤ s.params.bufCap) (.raise .configError (lenAddr n) (s.len n))
  .ok (s.len n)

/-- `BUFn_BITS` of a bit stream in `len` bytes: `CONFIG_ERROR` if `BITS > 8·LEN` (rule R44). -/
def State.bitsOperand (s : State) (n : BufId) (len : Nat) : Except Stop Nat := do
  require (s.bits n ≤ 8 * len) (.raise .configError (bitsAddr n) (s.bits n))
  .ok (s.bits n)

/-- `MAX_DICT`, which must lie in `[256, DICT_CAP]` (rules R35, R110). -/
def State.maxDictOperand (s : State) : Except Stop Nat := do
  require (256 ≤ s.maxDict.toNat ∧ s.maxDict.toNat ≤ s.params.dictCap) (.raise .configError 0x10 s.maxDict.toNat)
  .ok s.maxDict.toNat

/-- `BIT_WIDTH`, which must lie in `[8, W_MAX]` (rule R140). -/
def State.widthOperand (s : State) : Except Stop Nat := do
  require (8 ≤ s.bitWidth.toNat ∧ s.bitWidth.toNat ≤ wMax s.params) (.raise .configError 0x14 s.bitWidth.toNat)
  .ok s.bitWidth.toNat

/-- `CODE_COUNT`, which must not exceed `CODE_CAP` (rules R37, R144). -/
def State.codeCountOperand (s : State) : Except Stop Nat := do
  require (s.codeCount.toNat ≤ s.params.codeCap) (.raise .configError 0x18 s.codeCount.toNat)
  .ok s.codeCount.toNat

/-- The bytes a byte command reads: `B[n][0..LEN)` (rule R73). -/
def State.bytesOperand (s : State) (n : BufId) (len : Nat) : Except Stop (List Byte) := s.readBytes n 0 len

/-- `StreamBits(n, N)`: "reads bytes `B[S][0 .. ⌈N/8⌉)` and ignores bits at stream index `N` and beyond" (rule R145,
log entry 3). -/
def State.streamBits (s : State) (n : BufId) (nbits : Nat) : Except Stop (List Bool) := do
  let bytes ← s.readBytes n 0 (bytesFor nbits)
  .ok ((bitsOfBytes bytes).take nbits)

/-- `CODES[i .. i + k)` for `CODE_PACK`, each of which must fit `w` bits; the first that does not, in index order, is
`CONFIG_ERROR` at its own host address (rules R144, R225). -/
def State.codesOperand (s : State) (w : Nat) : Nat → Nat → Except Stop (List Nat)
  | _, 0 => .ok []
  | i, k + 1 => do
    let c ← s.readCode i
    require (c.toNat < 2 ^ w) (.raise .configError (codesBase + 4 * i) c.toNat)
    let cs ← s.codesOperand w (i + 1) k
    .ok (c.toNat :: cs)

end Sys2Proof.Machine
end

