-- ==== Sys2Proof/Machine/BitPack.lean ====
section
/-! DEFINITION. The bit packer and unpacker: CODE_PACK and CODE_UNPACK (spec/41_bitpack.md). -/

namespace Sys2Proof.Machine

/-- The rule of `CODE_PACK` (rule R144). -/
def codePackRule (dst : BufId) (s : State) : Except Stop State := do
  let w ← s.widthOperand
  let n ← s.codeCountOperand
  let codes ← s.codesOperand w 0 n
  let bytes := packCodes codes w
  require (bytes.length ≤ s.params.bufCap) (.raise .capacityError n bytes.length)
  .ok (s.writeOutput dst bytes (n * w) |>.setEmpty (n == 0))

/-- `CODE_PACK bD` (rule R144). -/
def execCodePack (dst : BufId) (s : State) : Host.Outcome State Fault Refusal := complete s (codePackRule dst s)

/-- The rule of `CODE_UNPACK` (rule R147): no value of the stream is an error. -/
def codeUnpackRule (src : BufId) (s : State) : Except Stop State := do
  let len ← s.lenOperand src
  let nbits ← s.bitsOperand src len
  let w ← s.widthOperand
  let stream ← s.streamBits src nbits
  let codes := unpackCodes stream w
  .ok (s.writeCodes codes |>.setEmpty (codes.length == 0))

/-- `CODE_UNPACK bS` (rule R147). -/
def execCodeUnpack (src : BufId) (s : State) : Host.Outcome State Fault Refusal := complete s (codeUnpackRule src s)

end Sys2Proof.Machine
end

