-- ==== Sys2Proof/Machine/Control.lean ====
section
/-! DEFINITION. The control commands NOP, RESET and BUF_CMP (spec/43_control.md). -/

namespace Sys2Proof.Machine

/-- `NOP` (rule R200): no writes beyond the completion. -/
def execNop (s : State) : Host.Outcome State Fault Refusal := complete s (.ok s)

/-- `RESET` (rule R201): the reset values, and then completion sets `DONE`. -/
def execReset (s : State) : Host.Outcome State Fault Refusal := complete s (.ok s.softReset)

/-- The value `BUF_CMP` compares at index `i`: the byte, or 256 for a buffer that has ended (rule R202). -/
def State.cmpByte (s : State) (n : BufId) (len i : Nat) : Except Stop Nat :=
  if i < len then
    match s.readByte n i with
    | .ok b => .ok b.toNat
    | .error e => .error e
  else .ok 256

/-- The loop of `BUF_CMP` over the indices `i .. i + k` (rule R202). -/
def State.cmpFrom (s : State) (src dst : BufId) (lenS lenD : Nat) : Nat → Nat → Except Stop Unit
  | _, 0 => .ok ()
  | i, k + 1 => do
    let a ← s.cmpByte src lenS i
    let b ← s.cmpByte dst lenD i
    require (a = b) (.raise .roundtripMismatch i (a + 65536 * b))
    s.cmpFrom src dst lenS lenD (i + 1) k

/-- The rule of `BUF_CMP` (rule R202). -/
def bufCmpRule (src dst : BufId) (s : State) : Except Stop State := do
  let lenS ← s.lenOperand src
  let lenD ← s.lenOperand dst
  s.cmpFrom src dst lenS lenD 0 (max lenS lenD)
  .ok s

/-- `BUF_CMP bS, bD` (rules R202, R203). -/
def execBufCmp (src dst : BufId) (s : State) : Host.Outcome State Fault Refusal := complete s (bufCmpRule src dst s)

end Sys2Proof.Machine
end

