-- ==== Sys2Proof/Machine/Huffman.lean ====
section
/-! DEFINITION. The Huffman commands HUF_FREQ, HUF_BUILD, HUF_BOOK, HUF_ENC and HUF_DEC (spec/42_huffman.md). -/

namespace Sys2Proof.Machine

/-! ### HUF_FREQ -/

/-- The counts of the byte values of `data` (rules R160, R161). -/
def countBytes (data : List Byte) : Vector Word 256 :=
  tableOf 256 fun v => BitVec.ofNat 32 (data.count (BitVec.ofNat 8 v))

/-- The rule of `HUF_FREQ` (rule R160): the counts replace the old entries. -/
def hufFreqRule (src : BufId) (s : State) : Except Stop State := do
  let len ← s.lenOperand src
  let data ← s.bytesOperand src len
  .ok (s.setFreq (countBytes data) |>.setEmpty (len == 0))

/-- `HUF_FREQ bS` (rule R160). -/
def execHufFreq (src : BufId) (s : State) : Host.Outcome State Fault Refusal := complete s (hufFreqRule src s)

/-! ### HUF_BUILD -/

/-- "One leaf node per symbol with nonzero frequency", in ascending order of symbol (rule R163), for the symbols from `v`
on. -/
def leavesFrom : Nat → List Word → List Slot
  | _, [] => []
  | v, f :: fs =>
    if f = 0 then leavesFrom (v + 1) fs
    else .leaf (BitVec.ofNat 8 v) (f.setWidth 40) :: leavesFrom (v + 1) fs

/-- A node waiting to be merged: its frequency and its arena index (rule R162). -/
structure QNode where
  freq : Nat
  idx : Nat
  deriving DecidableEq, Repr

/-- The order of the queue: by frequency, and among equal frequencies by index (rules R162, R164). -/
def QNode.before (a b : QNode) : Bool := decide (a.freq < b.freq) || (a.freq == b.freq && decide (a.idx < b.idx))

/-- Put a node into the queue, which is kept in order, so that `min(Q)` is its head (rule R162). -/
def enqueue (a : QNode) : List QNode → List QNode
  | [] => [a]
  | b :: q => if a.before b then a :: b :: q else b :: enqueue a q

/-- The queue of the arena's nodes, those from index `k` on. -/
def queueFrom : Nat → List Slot → List QNode
  | _, [] => []
  | k, n :: ns => enqueue { freq := n.freq.toNat, idx := k } (queueFrom (k + 1) ns)

/-- The merges (rule R164): the two least nodes become the left and right child of a new node, the next of the arena, until
one node remains (rule R165). Each merge takes one node off the queue, so `fuel` of its length suffices. -/
def mergeAll : Nat → List Slot → List QNode → List Slot
  | fuel + 1, arena, a :: b :: q =>
    mergeAll fuel
      (arena ++ [.internal (BitVec.ofNat 40 (a.freq + b.freq)) (BitVec.ofNat 9 a.idx) (BitVec.ofNat 9 b.idx)])
      (enqueue { freq := a.freq + b.freq, idx := arena.length } q)
  | _, arena, _ => arena

/-- The arena of a frequency table (rule R162), a function of `FREQ` alone (rule R167). -/
def buildArena (freq : Vector Word 256) : List Slot :=
  let leaves := leavesFrom 0 freq.toList
  mergeAll leaves.length leaves (queueFrom 0 leaves)

/-- The arena as the table `NODE`: the slots beyond it are absent (rule R162). -/
def nodeTable (arena : List Slot) : Vector Slot 511 := tableOf 511 fun i => arena.getD i .absent

/-- The rule of `HUF_BUILD` (rule R162). -/
def hufBuildRule (s : State) : Except Stop State :=
  let arena := buildArena s.freq
  .ok (s.setTree (nodeTable arena) arena.length |>.setEmpty (arena.length == 0))

/-- `HUF_BUILD` (rules R162, R166). -/
def execHufBuild (s : State) : Host.Outcome State Fault Refusal := complete s (hufBuildRule s)

/-! ### HUF_BOOK -/

/-- `NODE[i]` of a table, for any number (rule R50). -/
def slotOf (node : Vector Slot 511) (i : Nat) : Slot := node.getD i .absent

/-- `Walk(k, path)` (rules R169, R170) into the codebook `book`. In an arena `HUF_BUILD` made a child is older than its
parent, so no path has 511 edges and `fuel` never runs out (log entry 11). -/
def walk (node : Vector Slot 511) : Nat → Nat → List Bool → Vector (List Bool) 256 → Vector (List Bool) 256
  | 0, _, _, book => book
  | fuel + 1, k, path, book =>
    if (slotOf node k).isLeaf then book.set (slotOf node k).sym.toNat path (slotOf node k).sym.isLt
    else
      walk node fuel (slotOf node k).right.toNat (path ++ [true])
        (walk node fuel (slotOf node k).left.toNat (path ++ [false]) book)

/-- The codebook with no code (rule R51). -/
def emptyBook : Vector (List Bool) 256 := Vector.replicate 256 []

/-- The codebook of a tree of `n` nodes (rule R169); a one-leaf tree has the code `[0]` (rule R171). -/
def codebook (node : Vector Slot 511) (n : Nat) : Vector (List Bool) 256 :=
  if n = 0 then emptyBook
  else if n = 1 then emptyBook.set (slotOf node 0).sym.toNat [false] (slotOf node 0).sym.isLt
  else walk node 511 (n - 1) [] emptyBook

/-- The greatest `BOOK[s].len` (rule R42). -/
def longestCode (book : Vector (List Bool) 256) : Nat := book.toList.foldl (fun m code => max m code.length) 0

/-- The rule of `HUF_BOOK` (rule R169). -/
def hufBookRule (s : State) : Except Stop State := do
  s.needTree
  let book := codebook s.node s.nodeCount.toNat
  .ok (s.setBook book (longestCode book))

/-- `HUF_BOOK` (rules R169, R172). -/
def execHufBook (s : State) : Host.Outcome State Fault Refusal := complete s (hufBookRule s)

/-! ### HUF_ENC -/

/-- The loop of `HUF_ENC` over the bytes `i .. i + k`, with `len` bits written so far (rules R174, R175, R177). The code
check of a byte comes before its capacity check. -/
def State.encodeFrom (s : State) (src : BufId) : Nat → Nat → Nat → Except Stop (List Bool)
  | _, _, 0 => .ok []
  | i, len, k + 1 => do
    let v ← s.readByte src i
    let code := s.bookCode v
    require (code.length ≠ 0) (.raise .treeError i v.toNat)
    require (len + code.length ≤ 8 * s.params.bufCap) (.raise .capacityError i (bytesFor (len + code.length)))
    let rest ← s.encodeFrom src (i + 1) (len + code.length) k
    .ok (code ++ rest)

/-- The rule of `HUF_ENC` (rule R174): the stream is padded with 0-bits (rule R176). -/
def hufEncRule (src dst : BufId) (s : State) : Except Stop State := do
  let len ← s.lenOperand src
  s.needBook
  let stream ← s.encodeFrom src 0 0 len
  .ok (s.writeOutput dst (packBits stream false) stream.length |>.setEmpty (len == 0))

/-- `HUF_ENC bS, bD` (rule R174). -/
def execHufEnc (src dst : BufId) (s : State) : Host.Outcome State Fault Refusal := complete s (hufEncRule src dst s)

/-! ### HUF_DEC -/

/-- The loop of `HUF_DEC` in a one-leaf tree, from bit `k` on, with `len` bytes out so far (rule R180). -/
def decodeOneLeaf (sym : Byte) (cap : Nat) : Nat → Nat → List Bool → Except Stop (List Byte)
  | _, _, [] => .ok []
  | k, len, b :: bs => do
    require (b = false) (.raise .malformedCode k 1)
    require (len + 1 ≤ cap) (.raise .capacityError k (len + 1))
    let rest ← decodeOneLeaf sym cap (k + 1) (len + 1) bs
    .ok (sym :: rest)

/-- The loop of `HUF_DEC` in a tree of two or more leaves (rules R178, R179): `cur` and `depth` are the walk's, `k` the
number of bits read, `len` the bytes out. Input that ends mid-descent is truncated (rule R182). -/
def decodeTree (node : Vector Slot 511) (root cap : Nat) : Nat → Nat → Nat → Nat → List Bool → Except Stop (List Byte)
  | cur, depth, k, _, [] => do
    require (cur = root) (.raise .truncatedStream k depth)
    .ok []
  | cur, depth, k, len, b :: bs =>
    let next := if b then (slotOf node cur).right.toNat else (slotOf node cur).left.toNat
    if (slotOf node next).isLeaf then do
      require (len + 1 ≤ cap) (.raise .capacityError k (len + 1))
      let rest ← decodeTree node root cap root 0 (k + 1) (len + 1) bs
      .ok ((slotOf node next).sym :: rest)
    else decodeTree node root cap next (depth + 1) (k + 1) len bs

/-- The bytes `HUF_DEC` decodes from a stream with a tree of `n` nodes (rules R178 to R183). A bit in an empty tree has no
edge to follow (rule R181). -/
def hufDecode (node : Vector Slot 511) (n cap : Nat) (stream : List Bool) : Except Stop (List Byte) :=
  if n = 0 then
    match stream with
    | [] => .ok []
    | b :: _ => .error (.raise .malformedCode 0 b.toNat)
  else if n = 1 then decodeOneLeaf (slotOf node 0).sym cap 0 0 stream
  else decodeTree node (n - 1) cap (n - 1) 0 0 0 stream

/-- The rule of `HUF_DEC` (rule R178): it reads exactly `BUFS_BITS` bits (rule R184). -/
def hufDecRule (src dst : BufId) (s : State) : Except Stop State := do
  let len ← s.lenOperand src
  let nbits ← s.bitsOperand src len
  s.needTree
  let stream ← s.streamBits src nbits
  let out ← hufDecode s.node s.nodeCount.toNat s.params.bufCap stream
  .ok (s.writeOutput dst out (8 * out.length) |>.setEmpty (nbits == 0))

/-- `HUF_DEC bS, bD` (rule R178). -/
def execHufDec (src dst : BufId) (s : State) : Host.Outcome State Fault Refusal := complete s (hufDecRule src dst s)

end Sys2Proof.Machine
end

