-- ==== Sys2Proof/Machine/Lzw.lean ====
section
/-! DEFINITION. The LZW encoder and decoder: LZW_ENC and LZW_DEC (spec/40_lzw.md). -/

namespace Sys2Proof.Machine

/-- The entries of a dictionary beyond the 256 single bytes, in the order of their codes 256, 257, … (rules R111, R112,
R122): "the codes in a dictionary are always exactly `0 .. next_code − 1`, each used once". -/
abbrev Dict := List (List Byte)

/-- `next_code` (rule R111). -/
def Dict.nextCode (d : Dict) : Nat := 256 + d.length

/-- The code of a byte sequence in the encoder's dictionary, if it has one (rules R111, R112). -/
def Dict.code? (d : Dict) : List Byte → Option Nat
  | [b] => some b.toNat
  | seq => (d.idxOf? seq).map (256 + ·)

/-- `D[seq]` of the encoder: its code, for a sequence that has one (rule R113). -/
def Dict.code (d : Dict) (seq : List Byte) : Nat := (d.code? seq).getD 0

/-- `E[c]` of the decoder, for a code that exists (rules R122, R125). -/
def Dict.entry (d : Dict) (c : Nat) : List Byte := if c < 256 then [BitVec.ofNat 8 c] else d.getD (c - 256) []

/-- What `LzwEncode` returns (rule R110). -/
structure Encoded where
  codes : List Nat
  nextCode : Nat
  frozen : Bool
  deriving DecidableEq, Repr

/-- The loop of `LzwEncode` (rules R113 to R116) over the remaining bytes: `cm` is `current_match`. -/
def lzwEncodeFrom (m : Nat) : Dict → Bool → List Byte → List Byte → Encoded
  | d, frozen, cm, [] => { codes := [d.code cm], nextCode := d.nextCode, frozen := frozen }
  | d, frozen, cm, b :: bs =>
    let cand := cm ++ [b]
    match d.code? cand with
    | some _ => lzwEncodeFrom m d frozen cand bs
    | none =>
      let rest :=
        if d.nextCode < m then lzwEncodeFrom m (d ++ [cand]) frozen [b] bs
        else lzwEncodeFrom m d true [b] bs
      { rest with codes := d.code cm :: rest.codes }

/-- `LzwEncode(data, M)` (rule R110); empty input is "defined as producing an empty output" (rule R118). -/
def lzwEncode (data : List Byte) (m : Nat) : Encoded :=
  match data with
  | [] => { codes := [], nextCode := 256, frozen := false }
  | b :: bs => lzwEncodeFrom m [] false [b] bs

/-- The rule of `LZW_ENC` (rule R110): one width for the whole stream, from the final `next_code` (rule R117). -/
def lzwEncRule (src dst : BufId) (s : State) : Except Stop State := do
  let len ← s.lenOperand src
  let m ← s.maxDictOperand
  let data ← s.bytesOperand src len
  let e := lzwEncode data m
  let w := clog2 e.nextCode
  let bytes := packCodes e.codes w
  require (bytes.length ≤ s.params.bufCap) (.raise .capacityError e.codes.length bytes.length)
  .ok ((((s.writeCodes e.codes).setNextCode e.nextCode).setBitWidth w).writeOutput dst bytes
    (e.codes.length * w) |>.setEmpty (len == 0) |>.setFrozen e.frozen)

/-- `LZW_ENC bS, bD` (rule R110). -/
def execLzwEnc (src dst : BufId) (s : State) : Host.Outcome State Fault Refusal := complete s (lzwEncRule src dst s)

/-- What `LzwDecode` returns (rule R121). -/
structure Decoded where
  out : List Byte
  nextCode : Nat
  frozen : Bool
  deriving DecidableEq, Repr

/-- The entry of code `c` at stream index `i`: a known code (rule R125), the pending case (rule R126), or a malformed
code (rule R128). -/
def lzwEntry (m : Nat) (d : Dict) (prev : List Byte) (i c : Nat) : Except Stop (List Byte) :=
  if c < d.nextCode then .ok (d.entry c)
  else if c = d.nextCode ∧ d.nextCode < m then .ok (prev ++ prev.take 1)
  else .error (.raise .malformedCode i c)

/-- The loop of `LzwDecode` (rules R125 to R130) over the codes from index `i` on; `len` bytes are out so far. The
malformed check of a code comes before its capacity check (rule R223). -/
def lzwDecodeFrom (m cap : Nat) : Dict → Bool → List Byte → Nat → Nat → List Nat → Except Stop Decoded
  | d, frozen, _, _, _, [] => .ok { out := [], nextCode := d.nextCode, frozen := frozen }
  | d, frozen, prev, i, len, c :: cs => do
    let entry ← lzwEntry m d prev i c
    require (len + entry.length ≤ cap) (.raise .capacityError i (len + entry.length))
    let rest ←
      if d.nextCode < m then
        lzwDecodeFrom m cap (d ++ [prev ++ entry.take 1]) frozen entry (i + 1) (len + entry.length) cs
      else lzwDecodeFrom m cap d true entry (i + 1) (len + entry.length) cs
    .ok { rest with out := entry ++ rest.out }

/-- `LzwDecode(codes, M)` (rule R121): the first code is a single byte (rule R124). -/
def lzwDecode (m cap : Nat) (codes : List Nat) : Except Stop Decoded :=
  match codes with
  | [] => .ok { out := [], nextCode := 256, frozen := false }
  | c :: cs => do
    require (c < 256) (.raise .malformedCode 0 c)
    let rest ← lzwDecodeFrom m cap [] false [BitVec.ofNat 8 c] 1 1 cs
    .ok { rest with out := BitVec.ofNat 8 c :: rest.out }

/-- The rule of `LZW_DEC` (rule R121). It "never reads the bits after the last whole code" (rules R123, R134), so of the
`BUFS_BITS` stream bits only those of whole codes are operands. -/
def lzwDecRule (src dst : BufId) (s : State) : Except Stop State := do
  let len ← s.lenOperand src
  let nbits ← s.bitsOperand src len
  let m ← s.maxDictOperand
  let w ← s.widthOperand
  let stream ← s.streamBits src (nbits / w * w)
  let codes := unpackCodes stream w
  let d ← lzwDecode m s.params.bufCap codes
  .ok (((s.writeCodes codes).setNextCode d.nextCode).writeOutput dst d.out (8 * d.out.length)
    |>.setEmpty (codes.length == 0) |>.setFrozen d.frozen)

/-- `LZW_DEC bS, bD` (rule R121). -/
def execLzwDec (src dst : BufId) (s : State) : Host.Outcome State Fault Refusal := complete s (lzwDecRule src dst s)

end Sys2Proof.Machine
end

