-- ==== Sys2Proof/Machine/Dispatch.lean ====
section
/-! DEFINITION. The execute step of each command (rule R82), one arm per constructor of Instr. -/

namespace Sys2Proof.Machine

def exec (i : Instr) (s : State) : Host.Outcome State Fault Refusal :=
  match i with
  | .nop => Sys2Proof.Machine.execNop s
  | .lzwEnc src dst => Sys2Proof.Machine.execLzwEnc src dst s
  | .lzwDec src dst => Sys2Proof.Machine.execLzwDec src dst s
  | .codePack dst => Sys2Proof.Machine.execCodePack dst s
  | .codeUnpack src => Sys2Proof.Machine.execCodeUnpack src s
  | .hufFreq src => Sys2Proof.Machine.execHufFreq src s
  | .hufBuild => Sys2Proof.Machine.execHufBuild s
  | .hufBook => Sys2Proof.Machine.execHufBook s
  | .hufEnc src dst => Sys2Proof.Machine.execHufEnc src dst s
  | .hufDec src dst => Sys2Proof.Machine.execHufDec src dst s
  | .bufCmp src dst => Sys2Proof.Machine.execBufCmp src dst s
  | .reset => Sys2Proof.Machine.execReset s

end Sys2Proof.Machine
end

