-- ==== Sys2Proof/Machine/HostPort.lean ====
section
/-! DEFINITION. The host's side of the core: the address map (rule R66), host reads and writes (rules R71, R84, R85), issue
(rule R81) and one step of the host program (rules R70, R105, R106). -/

namespace Sys2Proof.Machine

/-! ### Registers -/

/-- The control registers by name (rules R23 to R46). -/
inductive Reg where
  | id
  | ctrl
  | status
  | cmd
  | maxDict
  | bitWidth
  | codeCount
  | nextCode
  | errInfo
  | errValue
  | nodeCount
  | maxCodeLen
  | bufLen (n : BufId)
  | bufBits (n : BufId)
  | bufCapR
  | dictCapR
  /-- A reserved word of the register range (rule R46). -/
  | reserved
  deriving DecidableEq, Repr

/-- The register at a word-aligned address of `0x00` to `0xFC` (spec/10_state.md, register summary). -/
def Reg.at : Nat → Reg
  | 0x00 => .id
  | 0x04 => .ctrl
  | 0x08 => .status
  | 0x0C => .cmd
  | 0x10 => .maxDict
  | 0x14 => .bitWidth
  | 0x18 => .codeCount
  | 0x1C => .nextCode
  | 0x20 => .errInfo
  | 0x24 => .errValue
  | 0x28 => .nodeCount
  | 0x2C => .maxCodeLen
  | 0x40 => .bufLen 0
  | 0x44 => .bufBits 0
  | 0x48 => .bufLen 1
  | 0x4C => .bufBits 1
  | 0x50 => .bufLen 2
  | 0x54 => .bufBits 2
  | 0x58 => .bufLen 3
  | 0x5C => .bufBits 3
  | 0x60 => .bufCapR
  | 0x64 => .dictCapR
  | _ => .reserved

/-- The host address of a register; the first reserved word stands for all of them. -/
def Reg.addr : Reg → Nat
  | .id => 0x00
  | .ctrl => 0x04
  | .status => 0x08
  | .cmd => 0x0C
  | .maxDict => 0x10
  | .bitWidth => 0x14
  | .codeCount => 0x18
  | .nextCode => 0x1C
  | .errInfo => 0x20
  | .errValue => 0x24
  | .nodeCount => 0x28
  | .maxCodeLen => 0x2C
  | .bufLen n => lenAddr n
  | .bufBits n => bitsAddr n
  | .bufCapR => 0x60
  | .dictCapR => 0x64
  | .reserved => 0x30

/-- `ID`, "in every state, including during and after reset" (rule R23). -/
def idValue : Word := 0x544B0007

/-- The value of a register (rules R23 to R46). -/
def State.readReg (s : State) : Reg → Word
  | .id => idValue
  | .ctrl => BitVec.ofNat 32 s.irqEn.toNat
  | .status => s.status.toWord
  | .cmd => s.cmd
  | .maxDict => s.maxDict
  | .bitWidth => s.bitWidth
  | .codeCount => s.codeCount
  | .nextCode => s.nextCode
  | .errInfo => s.errInfo
  | .errValue => s.errValue
  | .nodeCount => s.nodeCount
  | .maxCodeLen => s.maxCodeLen
  | .bufLen n => s.bufLen[n]
  | .bufBits n => s.bufBits[n]
  | .bufCapR => BitVec.ofNat 32 s.params.bufCap
  | .dictCapR => BitVec.ofNat 32 s.params.dictCap
  | .reserved => 0

/-! ### The address map -/

/-- What a legal host access reaches (rule R66). -/
inductive Location where
  /-- A register word (rules R23 to R46). -/
  | register (r : Reg)
  /-- `FREQ[v]` (rule R48). -/
  | freq (v : Byte)
  /-- Word `w` of the view of `NODE[i]` (rule R50). -/
  | node (i w : Nat)
  /-- Word `w` of the view of `BOOK[v]` (rule R52). -/
  | book (v : Byte) (w : Nat)
  /-- `CODES[i]` (rule R53). -/
  | code (i : Nat)
  /-- Bytes of a buffer, from host address `a` on (rule R54). -/
  | buffer (a : Nat)
  deriving DecidableEq, Repr

/-- The bytes of an access size (rule R71). -/
def Size.bytes : Size → Nat
  | .s8 => 1
  | .s16 => 2
  | .s32 => 4

/-- A location that accepts 32-bit accesses only (rule R64). -/
def wordOnly (size : Size) (l : Location) : Option Location := if size = .s32 then some l else none

/-- The location of a host access, or `none` for a bus error: a misaligned access (rule R63), a size the region does not
accept (rule R64), a byte in an unmapped range, a `CODES` index `≥ CODE_CAP` or a buffer offset `≥ BUF_CAP` (rule R67). -/
def locate (p : Params) (size : Size) (addr : Word) : Option Location :=
  let a := addr.toNat
  if a % size.bytes ≠ 0 then none
  else if a < 0x100 then wordOnly size (.register (Reg.at a))
  else if a < 0x400 then none
  else if a < 0x800 then wordOnly size (.freq (BitVec.ofNat 8 ((a - 0x400) / 4)))
  else if a < 0x2000 then none
  else if a < 0x4000 then wordOnly size (.node ((a - 0x2000) / 16) ((a - 0x2000) % 16 / 4))
  else if a < 0x8000 then wordOnly size (.book (BitVec.ofNat 8 ((a - 0x4000) / 64)) ((a - 0x4000) % 64 / 4))
  else if a < codesBase then none
  else if a < 0x08000000 then
    if (a - codesBase) / 4 < p.codeCap then wordOnly size (.code ((a - codesBase) / 4)) else none
  else if a < 0x10000000 then none
  else if a < 0x50000000 then
    if a % 0x10000000 + size.bytes ≤ p.bufCap then some (.buffer a) else none
  else none

/-! ### Host reads -/

/-- The words of a `NODE` slot (rule R50): kind and symbol, children, low and high part of the frequency. -/
def Slot.word (n : Slot) : Nat → Word
  | 0 => BitVec.ofNat 32 (2 ^ 31 * n.present.toNat + 2 ^ 30 * n.isLeaf.toNat + n.sym.toNat)
  | 1 => BitVec.ofNat 32 (n.left.toNat + 2 ^ 16 * n.right.toNat)
  | 2 => n.freq.extractLsb' 0 32
  | _ => (n.freq.extractLsb' 32 8).setWidth 32

/-- The words of a `BOOK` entry (rule R52): `len`, then eight words of code bits, most significant first; words 9 to 15
read 0. -/
def bookWord (code : List Bool) (w : Nat) : Word :=
  if w = 0 then BitVec.ofNat 32 (code.length % 256)
  else if w ≤ 8 then BitVec.ofNat 32 (num ((List.range 32).map fun j => code.getD (32 * (w - 1) + j) false))
  else 0

/-- `MemRead(a, k)`, little-endian (rules R61, R79); the first byte that nothing has written, if any, stops it (rule R59). -/
def memRead (m : List Host.Cell) : Nat → Nat → Except Fault Nat
  | _, 0 => .ok 0
  | a, k + 1 =>
    match cellGet m a with
    | none => .error (.unwrittenRead a)
    | some b =>
      match memRead m (a + 1) k with
      | .ok hi => .ok (b.toNat + 256 * hi)
      | .error e => .error e

/-- The value at a location while the engine is idle (rule R71). -/
def State.readIdle (s : State) (size : Size) : Location → Except Fault Word
  | .register r => .ok (s.readReg r)
  | .freq v => .ok (s.freqOf v)
  | .node i w => .ok ((s.node.getD i .absent).word w)
  | .book v w => .ok (bookWord (s.bookCode v) w)
  | .code i =>
    match cellGet s.codes i with
    | some c => .ok c
    | none => .error (.unwrittenRead (codesBase + 4 * i))
  | .buffer a =>
    match memRead s.mem a size.bytes with
    | .ok n => .ok (BitVec.ofNat 32 n)
    | .error e => .error e

/-- What `BUSY = 1` leaves readable: `ID`, `CTRL`, `STATUS` and `CMD` (rule R84). -/
def Location.readableBusy : Location → Bool
  | .register .id | .register .ctrl | .register .status | .register .cmd => true
  | _ => false

/-- The low bits of a value that an access of a size carries. -/
def Size.low (size : Size) (v : Word) : Word := BitVec.ofNat 32 (v.toNat % 2 ^ (8 * size.bytes))

/-- Draw a value the spec leaves unspecified (log entry 5). -/
def State.drawn (s : State) : State := { s with agent := { s.agent with draws := s.agent.draws + 1 } }

/-- `HostRead(addr, size)` (rule R71): the value and the state after it. Only the count of drawn values can change: "no read
has a side effect" (rule R65). -/
def hostRead (s : State) (size : Size) (addr : Word) : Except Fault (Word × State) :=
  match locate s.params size addr with
  | none => .error (.busError addr size)
  | some l =>
    if s.status.busy && !l.readableBusy then .ok (size.low (Config.busyRead s.agent.draws), s.drawn)
    else
      match s.readIdle size l with
      | .ok v => .ok (v, s)
      | .error e => .error e

/-! ### Host writes -/

/-- The number of host steps before the engine step of the command being issued: the next of the schedule, else a free
value (rule R86, log entry 6). -/
def HostAgent.startDelay (h : HostAgent) : HostAgent :=
  match h.schedule with
  | d :: rest => { h with delay := d, schedule := rest }
  | [] => { h with delay := Config.engineDelay h.draws, draws := h.draws + 1 }

/-- Issue (rule R81): "Issue never fails: an illegal command is reported at execution". -/
def State.issue (s : State) (c : Word) : State := { s.latch c with agent := s.agent.startDelay }

/-- The bytes of a value, least significant first (rule R61). -/
def leBytes : Nat → Nat → List Byte
  | 0, _ => []
  | k + 1, v => BitVec.ofNat 8 v :: leBytes k (v / 256)

/-- A host write to a register while the engine is idle (rules R23 to R46). -/
def State.writeReg (s : State) (v : Word) : Reg → State
  | .ctrl => { s with irqEn := v.getLsbD 0 }
  | .status => { s with status := s.status.writeOneToClear v }
  | .cmd => s.issue v
  | .maxDict => { s with maxDict := v }
  | .bitWidth => { s with bitWidth := v }
  | .codeCount => { s with codeCount := v }
  | .bufLen n => { s with bufLen := s.bufLen.set n v }
  | .bufBits n => { s with bufBits := s.bufBits.set n v }
  | .id | .nextCode | .errInfo | .errValue | .nodeCount | .maxCodeLen | .bufCapR | .dictCapR | .reserved => s

/-- A host write while the engine is idle (rules R48, R50, R52, R53, R61). -/
def State.writeIdle (s : State) (size : Size) (v : Word) : Location → State
  | .register r => s.writeReg v r
  | .freq b => { s with freq := s.freq.set b.toNat v b.isLt }
  | .node _ _ => s
  | .book _ _ => s
  | .code i => { s with codes := cellPut s.codes i v }
  | .buffer a => { s with mem := cellPutRun s.mem a (leBytes size.bytes v.toNat) }

/-- A host write while `BUSY = 1`: "writes other than `CTRL` and `STATUS` are ignored and set sticky `WERR`" (D28 of
spec/92_eei_decisions.md; rules R33, R46, R50, R52, R266). DEDUCED: so is one to a read-only register or a view, of which rule
R85 says only that it is ignored (log entry 4). -/
def State.writeBusy (s : State) (v : Word) : Location → State
  | .register .ctrl => s.writeReg v .ctrl
  | .register .status => s.writeReg v .status
  | .register .id | .register .cmd | .register .maxDict | .register .bitWidth | .register .codeCount
  | .register .nextCode | .register .errInfo | .register .errValue | .register .nodeCount | .register .maxCodeLen
  | .register (.bufLen _) | .register (.bufBits _) | .register .bufCapR | .register .dictCapR | .register .reserved
  | .freq _ | .node _ _ | .book _ _ | .code _ | .buffer _ => s.setWerr

/-- `HostWrite(addr, size, v)` (rule R71). -/
def hostWrite (s : State) (size : Size) (addr v : Word) : Except Fault State :=
  match locate s.params size addr with
  | none => .error (.busError addr size)
  | some l => .ok (if s.status.busy then s.writeBusy v l else s.writeIdle size v l)

/-! ### The host program -/

/-- The state with the next operation taken off the host program, one host step nearer to the engine's. -/
def State.popHost (s : State) (rest : List HostOp) : State :=
  { s with agent := { s.agent with host := rest, delay := s.agent.delay - 1 } }

/-- Put an operation back, to be done again: the loop of `WAIT` (rule R105). -/
def State.again (s : State) (op : HostOp) : State := { s with agent := { s.agent with host := op :: s.agent.host } }

/-- Record the value a host read returned. -/
def State.gotValue (s : State) (v : Word) : State := { s with agent := { s.agent with reads := v :: s.agent.reads } }

/-- One operation of the host program, already taken off it (rules R71, R101, R105, R106, R260). -/
def hostOp (s : State) : HostOp → Except Fault State
  | .read size addr =>
    match hostRead s size addr with
    | .ok (v, t) => .ok (t.gotValue v)
    | .error e => .error e
  | .write size addr v => hostWrite s size addr v
  | .wait => .ok (if s.status.busy then s.again .wait else s)
  | .check e => if s.status.err.code = e then .ok s else .error (.checkFailed s.status.err)
  | .expect addr v =>
    match hostRead s .s32 addr with
    | .ok (got, t) => if got = v then .ok t else .error (.expectFailed addr got)
    | .error e => .error e
  | .hardReset => .ok s.hardReset

/-- The host's step: its next operation; a host with nothing to do leaves the state as it is (rules R70, R88, R241). -/
def hostStep (s : State) : Host.Outcome State Fault Refusal :=
  match s.agent.host with
  | [] => .next s
  | op :: rest =>
    match hostOp (s.popHost rest) op with
    | .ok t => .next t
    | .error e => .fault e

/-- Whether the engine moves next: it has its one step when `BUSY = 1` (rule R80), and takes it when the host steps that were
to come before it are done, or the host has no step left (rules R74, R86, log entry 6). -/
def State.engineTurn (s : State) : Bool := s.status.busy && (s.agent.delay == 0 || s.agent.host.isEmpty)

/-- The execute step on a word rule R94 rejects: `ILLEGAL_COMMAND` with `ERR_INFO = 0` and `ERR_VALUE` the word. -/
def illegalCommand (s : State) : Host.Outcome State Fault Refusal :=
  complete s (.error (.raise .illegalCommand 0 s.cmd.toNat))

end Sys2Proof.Machine
end

