-- ==== Sys2Proof/Machine/Step.lean ====
section
/-! DEFINITION. One transition of the machine: a step of the engine or of the host (rules R70, R74, R80). -/

namespace Sys2Proof.Machine

/-- The engine's execute step (rule R82): the command in `CMD`, decoded by rule R94. -/
def engineStep (s : State) : Host.Outcome State Fault Refusal :=
  match decode? s.cmd with
  | some i => exec i s
  | none => illegalCommand s

/-- One transition of the single global order of host accesses and engine steps (rule R74). -/
def step (s : State) : Host.Outcome State Fault Refusal := if s.engineTurn then engineStep s else hostStep s

/-- The state in which the command word `w` has been issued and the engine moves next (rules R34, R81; log entry 9). -/
def State.withFetchWord (s : State) (nbits w : Nat) : State :=
  { s.latch (BitVec.ofNat 32 (w % 2 ^ nbits)) with agent := { s.agent with delay := 0 } }

end Sys2Proof.Machine
end

