-- ==== Sys2Proof/Machine/HostProgram.lean ====
section
/-! DEFINITION. Host programs in the syntax of rules R101 to R107 and the pipeline of rules R210 to R215: lists of host
operations, and what the host computes from the registers. -/

namespace Sys2Proof.Machine

/-- `SET r, v` (rule R102). -/
def opSet (r : Reg) (v : Word) : HostOp := .write .s32 (BitVec.ofNat 32 r.addr) v

/-- `GET r` (rule R102). -/
def opGet (r : Reg) : HostOp := .read .s32 (BitVec.ofNat 32 r.addr)

/-- `EXPECT r, v` (rule R106). -/
def opExpect (r : Reg) (v : Word) : HostOp := .expect (BitVec.ofNat 32 r.addr) v

/-- `ISSUE cmd` (rule R103). -/
def opIssue (i : Instr) : HostOp := opSet .cmd (encode i)

/-- A command written alone: `ISSUE cmd` then `WAIT` (rule R103). -/
def runCommand (i : Instr) : List HostOp := [opIssue i, .wait]

/-- A command followed by `CHECK 0` (rules R106, R210). -/
def runChecked (i : Instr) : List HostOp := runCommand i ++ [.check 0]

/-- `WR8 BUFn+i, x0; …`, the stores of `LOAD` (rule R104). -/
def storeBytes (n : BufId) : Nat → List Byte → List HostOp
  | _, [] => []
  | i, b :: bs => .write .s8 (BitVec.ofNat 32 (bufBase n + i)) (b.setWidth 32) :: storeBytes n (i + 1) bs

/-- `LOADBITS bN, bytes, m` (rule R104). -/
def loadBits (n : BufId) (bytes : List Byte) (m : Nat) : List HostOp :=
  storeBytes n 0 bytes ++ [opSet (.bufLen n) (BitVec.ofNat 32 bytes.length), opSet (.bufBits n) (BitVec.ofNat 32 m)]

/-- `LOAD bN, bytes` (rule R104). -/
def load (n : BufId) (bytes : List Byte) : List HostOp := loadBits n bytes (8 * bytes.length)

/-- The macro `COMPRESS` (rule R212). -/
def compress : List HostOp :=
  runChecked (.lzwEnc 0 1) ++ runChecked (.hufFreq 1) ++ runChecked .hufBuild ++ runChecked .hufBook
    ++ runChecked (.hufEnc 1 2)

/-- The macro `DECOMPRESS` (rule R213). -/
def decompress : List HostOp := runChecked .hufBuild ++ runChecked (.hufDec 2 1) ++ runChecked (.lzwDec 1 3)

/-- The macro `ROUNDTRIP` (rule R214). -/
def roundtrip : List HostOp := compress ++ decompress ++ runChecked (.bufCmp 0 3)

/-- The artifact a compress produces (rule R211). -/
structure Artifact where
  blob : List Byte
  bits : Word
  bitWidth : Word
  maxDict : Word
  freq : Vector Word 256
  deriving DecidableEq, Repr

/-- The artifact the host takes after `COMPRESS`; `none` if a byte of it was never written (rules R211, R59). -/
def State.artifact (s : State) : Option Artifact :=
  match s.readBytes 2 0 (s.len 2) with
  | .ok blob =>
    some { blob := blob, bits := s.bufBits[(2 : BufId)], bitWidth := s.bitWidth, maxDict := s.maxDict, freq := s.freq }
  | .error _ => none

/-- The metrics the host computes after `COMPRESS` (rule R215). -/
structure Metrics where
  originalBits : Nat
  lzwBits : Nat
  compressedBits : Nat
  /-- `original_bits / compressed_bits`, exact; undefined when `compressed_bits = 0`. -/
  ratio : Option Rat
  deriving DecidableEq, Repr

/-- `8·BUF0_LEN`, `8·BUF1_LEN`, `8·BUF2_LEN` and the ratio of the first and the last (rule R215). -/
def State.metrics (s : State) : Metrics :=
  { originalBits := 8 * s.len 0
    lzwBits := 8 * s.len 1
    compressedBits := 8 * s.len 2
    ratio := if 8 * s.len 2 = 0 then none else some (mkRat (8 * s.len 0 : Nat) (8 * s.len 2)) }

end Sys2Proof.Machine
end

