-- ==== Sys2Proof/Safety.lean ====
section
/-! DEFINITION. The terms the claims are stated in: what a buffer, a stream and the code memory hold, the end of a run
(rule R88), the shape of a Huffman arena, and the invariants of the machine. -/

namespace Sys2Proof.Machine

/-! ### Contents -/

/-- `B[n][0..LEN)` is `data`, every byte of it written (rules R43, R54, R59). -/
def State.holds (s : State) (n : BufId) (data : List Byte) : Prop :=
  s.len n = data.length ∧ ∀ i (h : i < data.length), cellGet s.mem (bufBase n + i) = some data[i]

/-- The first stream bits of buffer `n` are `bits`: bit `k` is bit `7 − (k mod 8)` of byte `k div 8` (rule R60). -/
def State.holdsBits (s : State) (n : BufId) (bits : List Bool) : Prop :=
  ∀ k (h : k < bits.length), ∃ b, cellGet s.mem (bufBase n + k / 8) = some b ∧ b.getLsbD (7 - k % 8) = bits[k]

/-- The first `BUFn_BITS` stream bits of buffer `n` are `stream` (rules R44, R60). -/
def State.holdsStream (s : State) (n : BufId) (stream : List Bool) : Prop :=
  s.bits n = stream.length ∧ s.holdsBits n stream

/-- The bits after the stream, up to the end of the last byte of buffer `n`, are all `pad` (rules R142, R143, R149). -/
def State.padded (s : State) (n : BufId) (pad : Bool) : Prop :=
  s.len n = bytesFor (s.bits n) ∧
    ∀ k, s.bits n ≤ k → k < 8 * s.len n →
      ∃ b, cellGet s.mem (bufBase n + k / 8) = some b ∧ b.getLsbD (7 - k % 8) = pad

/-- `CODES[0..CODE_COUNT)` is `codes` (rules R37, R53). -/
def State.holdsCodes (s : State) (codes : List Nat) : Prop :=
  s.codeCount.toNat = codes.length ∧
    ∀ i (h : i < codes.length), ∃ c, cellGet s.codes i = some c ∧ c.toNat = codes[i]

/-! ### The end of a run -/

/-- The host program has done its last access and `STATUS.BUSY = 0` (rule R88). -/
def State.ended (s : State) : Bool := s.agent.host.isEmpty && !s.status.busy

/-- A completed command: `BUSY = 0`, `DONE = 1` (rule R82). -/
def State.completed (s : State) : Prop := s.status.busy = false ∧ s.status.done = true

/-- A completed command that failed with `E(info, value)` and committed nothing else (rules R82, R225, R226): `t` is `s` but
for `STATUS.ERR`, `ERR_INFO`, `ERR_VALUE`, `BUSY` and `DONE`. -/
def State.failedAs (s t : State) (e : ErrCode) (info value : Nat) : Prop :=
  t = { s with
        status := { s.status with busy := false, done := true, err := e }
        errInfo := BitVec.ofNat 32 info
        errValue := BitVec.ofNat 32 value }

/-- Command `i` is issued in `s` and completes in `t`, with no host step between (rules R81, R82, R103). -/
def State.runsTo (s : State) (i : Instr) (t : State) : Prop := exec i (s.latch (encode i)) = .next t

/-- Buffer `n` of `u` holds what it holds in `t` as far as its length reaches: the same `BUFn_LEN` and bytes. -/
def State.sameBytes (t u : State) (n : BufId) : Prop :=
  u.len n = t.len n ∧ ∀ i, i < t.len n → cellGet u.mem (bufBase n + i) = cellGet t.mem (bufBase n + i)

/-! ### What a command may write, and what is mapped -/

/-- The buffer a command writes on success (rule R93; `BUF_CMP` writes none, rule R202). -/
def writesBuffer : Instr → Option BufId
  | .lzwEnc _ dst => some dst
  | .lzwDec _ dst => some dst
  | .codePack dst => some dst
  | .hufEnc _ dst => some dst
  | .hufDec _ dst => some dst
  | .nop => none
  | .codeUnpack _ => none
  | .hufFreq _ => none
  | .hufBuild => none
  | .hufBook => none
  | .bufCmp _ _ => none
  | .reset => none

/-- The buffers a command reads (rule R93). -/
def readsBuffers : Instr → List BufId
  | .lzwEnc src _ => [src]
  | .lzwDec src _ => [src]
  | .codeUnpack src => [src]
  | .hufFreq src => [src]
  | .hufEnc src _ => [src]
  | .hufDec src _ => [src]
  | .bufCmp src dst => [src, dst]
  | .nop => []
  | .codePack _ => []
  | .hufBuild => []
  | .hufBook => []
  | .reset => []

/-- The commands that write `CODES` and `CODE_COUNT` (rule R53). -/
def writesCodes : Instr → Bool
  | .lzwEnc _ _ => true
  | .lzwDec _ _ => true
  | .codeUnpack _ => true
  | .nop => false
  | .codePack _ => false
  | .hufFreq _ => false
  | .hufBuild => false
  | .hufBook => false
  | .hufEnc _ _ => false
  | .hufDec _ _ => false
  | .bufCmp _ _ => false
  | .reset => false

/-- The byte at host address `a` is mapped (rules R66, R67). -/
def mappedByte (p : Params) (a : Nat) : Prop :=
  a < 0x100 ∨ (0x400 ≤ a ∧ a < 0x800) ∨ (0x2000 ≤ a ∧ a < 0x8000) ∨
    (codesBase ≤ a ∧ a < 0x08000000 ∧ (a - codesBase) / 4 < p.codeCap) ∨
    (0x10000000 ≤ a ∧ a < 0x50000000 ∧ a % 0x10000000 < p.bufCap)

/-! ### The parse of an LZW code sequence -/

/-- The entry with code `256 + j`: segment `j` of the bytes and the byte after it (rules R113, R116, R127). -/
def segEntry (segs : List (List Byte)) (j : Nat) : List Byte := segs.getD j [] ++ (segs.getD (j + 1) []).take 1

/-- `codes` stand for the segments `segs` of `data`. Code `i` may be a single byte or, with the codes 256, 257, …, an entry of a
segment before `i`, as far as they are made below `M`: the encoder has made them all when it emits code `i` (rules R114, R116); the
decoder has made all but that of segment `i − 1`, which is its pending case (rules R125 to R127). -/
structure LzwParse (data : List Byte) (m : Nat) (codes : List Nat) (segs : List (List Byte)) : Prop where
  bytes : segs.flatten = data
  count : segs.length = codes.length
  /-- Each code stands for its segment, a single byte or an entry made before. -/
  code : ∀ i (h : i < codes.length),
    (∃ b : Byte, segs.getD i [] = [b] ∧ codes[i] = b.toNat) ∨
      ∃ j, j < min i (m - 256) ∧ segs.getD i [] = segEntry segs j ∧ codes[i] = 256 + j

/-- `segs` is the greedy longest-match parse of `data` and `codes` are its codes (rules R113 to R116). -/
structure GreedyParse (data : List Byte) (m : Nat) (codes : List Nat) (segs : List (List Byte)) : Prop
    extends LzwParse data m codes segs where
  /-- No code but the last could have gone on: its segment with the next byte was no entry then. -/
  longest : ∀ i, i + 1 < codes.length → ∀ j, j < min i (m - 256) → segEntry segs i ≠ segEntry segs j

/-! ### The Huffman arena -/

/-- The node a path leads to from node `k`: 0 = left, 1 = right (rule R51). -/
def follow (node : Vector Slot 511) : Nat → List Bool → Nat
  | k, [] => k
  | k, b :: bs => follow node (if b then (slotOf node k).right.toNat else (slotOf node k).left.toNat) bs

/-- Node `k` is a child of a node of the arena older than `j`. -/
def childBefore (node : Vector Slot 511) (j k : Nat) : Prop :=
  ∃ i, i < j ∧ (slotOf node i).present = true ∧ (slotOf node i).isLeaf = false ∧
    ((slotOf node i).left.toNat = k ∨ (slotOf node i).right.toNat = k)

/-- The first `n` slots are a Huffman tree: exactly they are present (rule R49); an internal node's children are two
different older nodes and its frequency is their exact sum (rules R164, R168); leaves have distinct symbols (rule R163);
every node but the last is a child of exactly one node (rule R165). -/
structure ArenaTree (node : Vector Slot 511) (n : Nat) : Prop where
  count : n ≤ 511
  present : ∀ i, (slotOf node i).present = true ↔ i < n
  children : ∀ i, i < n → (slotOf node i).isLeaf = false →
    (slotOf node i).left.toNat < i ∧ (slotOf node i).right.toNat < i ∧
      (slotOf node i).left ≠ (slotOf node i).right ∧
      (slotOf node i).freq.toNat =
        (slotOf node (slotOf node i).left.toNat).freq.toNat + (slotOf node (slotOf node i).right.toNat).freq.toNat
  symbols : ∀ i j, (slotOf node i).isLeaf = true → (slotOf node j).isLeaf = true →
    (slotOf node i).sym = (slotOf node j).sym → i = j
  parents : ∀ k, k + 1 < n → childBefore node n k
  oneParent : ∀ i j, i < n → j < n → (slotOf node i).isLeaf = false → (slotOf node j).isLeaf = false →
    ((slotOf node i).left = (slotOf node j).left ∨ (slotOf node i).left = (slotOf node j).right ∨
      (slotOf node i).right = (slotOf node j).right) → i = j

/-! ### Invariants -/

/-- The buffers' memory and the code memory keep their canonical form and hold nothing outside the buffers' `BUF_CAP` bytes and the
`CODE_CAP` entries (rules R53, R54, R67). -/
structure State.MemoryInv (s : State) : Prop where
  memWf : Memory.wf s.mem
  memMapped : ∀ c, c ∈ s.mem → ∃ n : BufId, ∃ i, i < s.params.bufCap ∧ c.1 = bufBase n + i
  codesWf : cellsWf s.codes
  codesMapped : ∀ c, c ∈ s.codes → c.1 < s.params.codeCap

/-- What the `STATUS` fields and the error record say together (rules R28 to R32, R39, R40, R81, R226, R227). -/
structure State.StatusInv (s : State) : Prop where
  busy : s.status.busy = true →
    s.status.done = false ∧ s.status.err = .none ∧ s.status.empty = false ∧ s.status.frozen = false
  success : s.status.err = .none → s.errInfo = 0 ∧ s.errValue = 0
  failure : s.status.err ≠ .none → s.status.empty = false ∧ s.status.frozen = false
  book : s.status.bookValid = true → s.status.treeValid = true

/-- `NEXT_CODE` is "always in `[256, DICT_CAP]`" (rule R38). -/
def State.NextCodeInv (s : State) : Prop := 256 ≤ s.nextCode.toNat ∧ s.nextCode.toNat ≤ s.params.dictCap

/-- The arena is a tree of `NODE_COUNT` nodes while `TREE_VALID = 1`, and empty while it is 0 (rules R31, R41, R49). -/
structure State.TreeInv (s : State) : Prop where
  tree : ArenaTree s.node s.nodeCount.toNat
  none : s.status.treeValid = false → s.nodeCount = 0

/-- While `BOOK_VALID = 1` the codebook is the one of the current tree (rules R32, R172). -/
structure State.BookInv (s : State) : Prop where
  book : s.status.bookValid = true → s.book = codebook s.node s.nodeCount.toNat
  longest : s.status.bookValid = true → s.maxCodeLen.toNat = longestCode s.book

end Sys2Proof.Machine
end

