-- ==== Sys2Proof/Certificates/Slice0/Obligations.lean ====
section
/-! DEFINITION. The statements for the provers, by the spec's numbered rules. -/

open Sys2Proof Sys2Proof.Machine

/-! ### Words and steps -/

/-- The encoding function of rule R99 on every command, its examples, and the worked decodes of rule R109. -/
def Obligations.EncodingFormulaAndWorkedWords : Prop :=
  decode 0x000000D2 = .ok (.lzwDec 1 3) ∧
  decode 0x00000042 = .ok (.lzwDec 0 1) ∧
  decode 0x00000055 = .error .dstNotZero ∧
  decode 0x00000051 = .error .sameBuffer ∧
  decode 0x0000000B = .error .reservedOpcode ∧
  decode 0x00000141 = .error .reservedBits ∧
  (∀ src dst : BufId,
    (encode .nop).toNat = 0x0 ∧
    (encode (.lzwEnc src dst)).toNat = 0x1 + 16 * src.val + 64 * dst.val ∧
    (encode (.lzwDec src dst)).toNat = 0x2 + 16 * src.val + 64 * dst.val ∧
    (encode (.codePack dst)).toNat = 0x3 + 64 * dst.val ∧
    (encode (.codeUnpack src)).toNat = 0x4 + 16 * src.val ∧
    (encode (.hufFreq src)).toNat = 0x5 + 16 * src.val ∧
    (encode .hufBuild).toNat = 0x6 ∧
    (encode .hufBook).toNat = 0x7 ∧
    (encode (.hufEnc src dst)).toNat = 0x8 + 16 * src.val + 64 * dst.val ∧
    (encode (.hufDec src dst)).toNat = 0x9 + 16 * src.val + 64 * dst.val ∧
    (encode (.bufCmp src dst)).toNat = 0xA + 16 * src.val + 64 * dst.val ∧
    (encode .reset).toNat = 0xF) ∧
  encode (.lzwEnc 0 1) = 0x00000041 ∧ encode (.hufFreq 1) = 0x00000015 ∧ encode .hufBuild = 0x00000006 ∧
  encode .hufBook = 0x00000007 ∧ encode (.hufEnc 1 2) = 0x00000098 ∧ encode (.hufDec 2 1) = 0x00000069 ∧
  encode (.lzwDec 1 3) = 0x000000D2 ∧ encode (.bufCmp 0 3) = 0x000000CA ∧ encode (.codePack 2) = 0x00000083 ∧
  encode (.codeUnpack 1) = 0x00000014 ∧ encode .nop = 0x00000000 ∧ encode .reset = 0x0000000F

/-- Decoding and encoding are inverse: a word decodes to a command exactly when the command is well formed and the word is its
encoding (rules R94, R98, R99). -/
def Obligations.DecodeIffEncode : Prop :=
  ∀ (c : Word) (i : Instr), decode c = .ok i ↔ i.wellFormed = true ∧ encode i = c

/-- When the engine moves next, one step of the machine is the execute step of the decoded command (rules R80, R82). Otherwise it is
the host's next operation: a read or write is that host access, and its fault, a bus error among them, ends the step (rules R70 to
R72); `WAIT` is done again while `BUSY = 1` (rule R105); `CHECK` and `EXPECT` go on or end in their failure (rule R106); a host with
nothing left to do changes nothing. How the host is held, and the count of host steps before the engine's, are the model's (log
entries 6, 7 and 17); what a hardware reset does is `HardResetAbandonsCommand`. -/
def Obligations.StepRunsDecoded : Prop :=
  (∀ (s : State) (i : Instr), s.engineTurn = true → decode s.cmd = .ok i → step s = exec i s) ∧
  (∀ s : State, s.engineTurn = false → s.agent.host = [] → step s = .next s) ∧
  ∀ (s u : State) (op : HostOp) (rest : List HostOp), s.engineTurn = false → s.agent.host = op :: rest →
    u = { s with agent := { s.agent with host := rest, delay := s.agent.delay - 1 } } →
    (∀ size addr, op = .read size addr →
      (∀ v t, hostRead u size addr = .ok (v, t) →
        step s = .next { t with agent := { t.agent with reads := v :: t.agent.reads } }) ∧
      ∀ e, hostRead u size addr = .error e → step s = .fault e) ∧
    (∀ size addr v, op = .write size addr v →
      (∀ t, hostWrite u size addr v = .ok t → step s = .next t) ∧
      ∀ e, hostWrite u size addr v = .error e → step s = .fault e) ∧
    (op = .wait →
      step s = .next (if s.status.busy then { u with agent := { u.agent with host := .wait :: rest } } else u)) ∧
    (∀ e, op = .check e → step s = if s.status.err.code = e then .next u else .fault (.checkFailed s.status.err)) ∧
    (∀ addr v, op = .expect addr v →
      (∀ got t, hostRead u .s32 addr = .ok (got, t) →
        step s = if got = v then .next t else .fault (.expectFailed addr got)) ∧
      ∀ e, hostRead u .s32 addr = .error e → step s = .fault e)

/-- An illegal word fails with `ILLEGAL_COMMAND`, `ERR_INFO = 0`, `ERR_VALUE` the word, and changes nothing else (rules R94,
R96, R225). -/
def Obligations.IllegalWordFails : Prop :=
  ∀ s : State, s.engineTurn = true → (∀ i, decode s.cmd ≠ .ok i) →
    ∃ t, step s = .next t ∧ s.failedAs t .illegalCommand 0 s.cmd.toNat

/-! ### Reset and the control commands -/

/-- Rule R261: every piece of state after hardware reset, and after `RESET`. -/
def Obligations.ResetStates : Prop :=
  State.reset = State.resetOf Config.params ∧
  (∀ p : Params, ∀ s, s = State.resetOf p →
    s.params = p ∧ s.readReg .id = 0x544B0007 ∧ s.readReg .ctrl = 0 ∧ s.readReg .status = 0 ∧ s.cmd = 0 ∧
    s.maxDict = 256 ∧ s.bitWidth = 8 ∧ s.codeCount = 0 ∧ s.nextCode = 256 ∧ s.errInfo = 0 ∧ s.errValue = 0 ∧
    s.nodeCount = 0 ∧ s.maxCodeLen = 0 ∧ (∀ n : BufId, s.len n = 0 ∧ s.bits n = 0) ∧
    (s.readReg .bufCapR).toNat = p.bufCap ∧ (s.readReg .dictCapR).toNat = p.dictCap ∧ s.readReg .reserved = 0 ∧
    (∀ v, s.freqOf v = 0) ∧ (∀ i, slotOf s.node i = .absent) ∧ (∀ v, s.bookCode v = []) ∧
    (∀ i, cellGet s.codes i = none) ∧ (∀ a, cellGet s.mem a = none) ∧ s.status.busy = false ∧ s.irq = false) ∧
  (∀ s t : State, s.runsTo .reset t →
    t.readReg .id = 0x544B0007 ∧ t.readReg .ctrl = 0 ∧ t.readReg .status = 0x00000002 ∧ t.cmd = 0x0000000F ∧
    t.maxDict = 256 ∧ t.bitWidth = 8 ∧ t.codeCount = 0 ∧ t.nextCode = 256 ∧ t.errInfo = 0 ∧ t.errValue = 0 ∧
    t.nodeCount = 0 ∧ t.maxCodeLen = 0 ∧ (∀ n : BufId, t.len n = 0 ∧ t.bits n = 0) ∧
    (t.readReg .bufCapR).toNat = s.params.bufCap ∧ (t.readReg .dictCapR).toNat = s.params.dictCap ∧
    t.readReg .reserved = 0 ∧ (∀ v, t.freqOf v = 0) ∧ (∀ i, slotOf t.node i = .absent) ∧ (∀ v, t.bookCode v = []) ∧
    t.codes = s.codes ∧ t.mem = s.mem ∧ t.status.busy = false ∧ t.irq = false)

/-- A hardware reset, at any moment, also while a command executes, leaves the reset state: the command is abandoned, `DONE`
stays 0 (rule R260). That the buffers and `CODES` become unwritten (DEDUCED), that the host program goes on with its next operation
and that assertion and release are one transition (DESIGN CHOICE) are the model's: log entry 10. -/
def Obligations.HardResetAbandonsCommand : Prop :=
  ∀ (s : State) (rest : List HostOp), s.agent.host = .hardReset :: rest → s.engineTurn = false →
    ∃ t, step s = .next t ∧ t = { State.resetOf s.params with agent := t.agent } ∧ t.agent.host = rest

/-- `RESET` completes from every state, with every register, `STATUS` field and table at its reset value, and keeps `CMD`, the
buffers' contents and `CODES` (rule R201). -/
def Obligations.ResetCompletes : Prop :=
  ∀ s : State, exec .reset s =
    .next { State.resetOf s.params with
      status := { Status.reset with done := true }
      cmd := s.cmd, codes := s.codes, mem := s.mem, agent := s.agent }

/-- `NOP` completes from every state and writes nothing beyond the completion (rule R200). -/
def Obligations.NopCompletes : Prop :=
  ∀ s : State, exec .nop s = .next { s with status := { s.status with busy := false, done := true } }

/-- `BUF_CMP` on two buffers that hold equal bytes completes without error and writes nothing (rule R202). -/
def Obligations.BufCmpEqualCompletes : Prop :=
  ∀ (s : State) (src dst : BufId) (data : List Byte), s.holds src data → s.holds dst data →
    data.length ≤ s.params.bufCap →
    exec (.bufCmp src dst) s = .next { s with status := { s.status with busy := false, done := true } }

/-- `BUF_CMP` reports the first index where the buffers differ, with the two bytes there, 256 for a buffer that has ended
(rules R202, R225). -/
def Obligations.BufCmpReportsFirstDifference : Prop :=
  ∀ (s : State) (src dst : BufId) (a b : List Byte) (i : Nat), s.holds src a → s.holds dst b →
    a.length ≤ s.params.bufCap → b.length ≤ s.params.bufCap →
    (∀ j, j < i → a[j]? = b[j]?) → a[i]? ≠ b[i]? →
    ∃ t, exec (.bufCmp src dst) s = .next t ∧
      s.failedAs t .roundtripMismatch i
        ((a[i]?.map BitVec.toNat).getD 256 + 65536 * (b[i]?.map BitVec.toNat).getD 256)

/-! ### LZW -/

/-- `LZW_ENC` on legal operands whose packed stream fits: the codes, `NEXT_CODE`, the one width `clog2(next_code)`, the packed
stream most significant bit first and padded with 1-bits, its lengths, and the info bits (rules R110, R117, R119). -/
def Obligations.LzwEncCompletes : Prop :=
  ∀ (s : State) (src dst : BufId) (data : List Byte) (e : Encoded) (w : Nat), s.holds src data →
    data.length ≤ s.params.bufCap → 256 ≤ s.maxDict.toNat → s.maxDict.toNat ≤ s.params.dictCap →
    e = lzwEncode data s.maxDict.toNat → w = clog2 e.nextCode → bytesFor (e.codes.length * w) ≤ s.params.bufCap →
    ∃ t, exec (.lzwEnc src dst) s = .next t ∧ t.completed ∧ t.status.err = s.status.err ∧
      t.holdsCodes e.codes ∧ t.nextCode.toNat = e.nextCode ∧ t.bitWidth.toNat = w ∧
      t.bits dst = e.codes.length * w ∧ t.holdsStream dst (e.codes.flatMap (bin w)) ∧ t.padded dst true ∧
      t.status.empty = decide (data = []) ∧ t.status.frozen = e.frozen

/-- What the encoder emits: the codes of the greedy longest-match parse of the input (rules R113 to R116); for nonempty input between one code and as many as input bytes (rule R113), `256 + min(n − 1,
M − 256)` entries, a skipped insertion exactly when `n − 1 > M − 256` (rule R132), every code below `next_code` (rule
R133); for empty input nothing (rule R118). -/
def Obligations.LzwEncodeCounts : Prop :=
  ∀ (data : List Byte) (m : Nat) (e : Encoded), 256 ≤ m → e = lzwEncode data m →
    (data = [] → e = { codes := [], nextCode := 256, frozen := false }) ∧
    (data ≠ [] → 1 ≤ e.codes.length ∧ e.codes.length ≤ data.length ∧
      e.nextCode = 256 + min (e.codes.length - 1) (m - 256) ∧
      (e.frozen = true ↔ m - 256 < e.codes.length - 1) ∧ ∀ c ∈ e.codes, c < e.nextCode) ∧
    ∃ segs, GreedyParse data m e.codes segs

/-- Decoding an encoded byte sequence with the same `max_dict_size` gives it back, with the same entry count and the same freezing
(rules R131, R132), wherever the bytes fit the output. -/
def Obligations.LzwDecodeInvertsEncode : Prop :=
  ∀ (data : List Byte) (m cap : Nat), 256 ≤ m → data.length ≤ cap →
    lzwDecode m cap (lzwEncode data m).codes =
      .ok { out := data, nextCode := (lzwEncode data m).nextCode, frozen := (lzwEncode data m).frozen }

/-- Rule R131 in command terms: what `LZW_ENC` wrote, `LZW_DEC` decodes to the original bytes, with `BUFD_BITS` as written or
`8·BUFD_LEN`. -/
def Obligations.LzwCommandsRoundTrip : Prop :=
  ∀ (s t u : State) (src dst out : BufId) (data : List Byte), src ≠ dst → out ≠ dst → s.holds src data →
    s.runsTo (.lzwEnc src dst) t → t.status.err = .none →
    u.params = s.params → u.maxDict = s.maxDict → u.bitWidth = t.bitWidth → t.sameBytes u dst →
    (u.bits dst = t.bits dst ∨ u.bits dst = 8 * t.len dst) →
    ∃ v, u.runsTo (.lzwDec dst out) v ∧ v.status.err = .none ∧ v.holds out data

/-- `LZW_DEC` on legal operands whose codes decode: the codes, `NEXT_CODE`, the decoded bytes and their lengths, and the info bits
(rule R121). `stream` is the bits of the whole codes; those after the last one are never read, so nothing is asked of them, not
even that their bytes were written (rules R123, R134). And what decoding any code list returns, also one that no encoder emits: the
bytes of the segments that its codes stand for, where each code after the first makes an entry until there are `M` (rules R122, R124 to
R127, R130), with `256 + min(n − 1, M − 256)` entries for `n` codes and a skipped insertion exactly when `n − 1 > M − 256` (rule R132);
a list decodes exactly when its codes stand for segments that fit the output (rules R128, R129). -/
def Obligations.LzwDecCompletes : Prop :=
  (∀ (m cap : Nat) (codes : List Nat), 256 ≤ m →
    (∀ d, lzwDecode m cap codes = .ok d →
      (∃ segs, LzwParse d.out m codes segs) ∧ d.nextCode = 256 + min (codes.length - 1) (m - 256) ∧
      (d.frozen = true ↔ m - 256 < codes.length - 1)) ∧
    (1 ≤ cap → ∀ data, (∃ d, lzwDecode m cap codes = .ok d ∧ d.out = data) ↔
      data.length ≤ cap ∧ ∃ segs, LzwParse data m codes segs)) ∧
  ∀ (s : State) (src dst : BufId) (stream : List Bool) (d : Decoded), s.holdsBits src stream →
    stream.length = s.bits src / s.bitWidth.toNat * s.bitWidth.toNat →
    s.len src ≤ s.params.bufCap → s.bits src ≤ 8 * s.len src →
    256 ≤ s.maxDict.toNat → s.maxDict.toNat ≤ s.params.dictCap →
    8 ≤ s.bitWidth.toNat → s.bitWidth.toNat ≤ wMax s.params →
    lzwDecode s.maxDict.toNat s.params.bufCap (unpackCodes stream s.bitWidth.toNat) = .ok d →
    ∃ t, exec (.lzwDec src dst) s = .next t ∧ t.completed ∧ t.status.err = s.status.err ∧
      t.holdsCodes (unpackCodes stream s.bitWidth.toNat) ∧ t.nextCode.toNat = d.nextCode ∧
      t.holds dst d.out ∧ t.bits dst = 8 * d.out.length ∧
      t.status.empty = decide (s.bits src < s.bitWidth.toNat) ∧ t.status.frozen = d.frozen

/-- The data errors of `LzwDecode`, at the first code at which one applies: a first code of 256 or more (rule R124); after the codes
`done`, a code above `next_code`, or equal to it with the dictionary frozen (rule R128); a code whose entry would overflow the
output (rule R129), the malformed check first (rule R223). And `LZW_DEC` on legal operands completes with the error that decoding its
codes raises, recorded with its index and value, and writes nothing else (rules R128, R129, R225, R226). -/
def Obligations.LzwDecodeDataErrors : Prop :=
  (∀ (s : State) (src dst : BufId) (stream : List Bool) (e : ErrCode) (info value : Nat), s.holdsBits src stream →
    stream.length = s.bits src / s.bitWidth.toNat * s.bitWidth.toNat →
    s.len src ≤ s.params.bufCap → s.bits src ≤ 8 * s.len src →
    256 ≤ s.maxDict.toNat → s.maxDict.toNat ≤ s.params.dictCap →
    8 ≤ s.bitWidth.toNat → s.bitWidth.toNat ≤ wMax s.params →
    lzwDecode s.maxDict.toNat s.params.bufCap (unpackCodes stream s.bitWidth.toNat) = .error (.raise e info value) →
    ∃ t, exec (.lzwDec src dst) s = .next t ∧ s.failedAs t e info value) ∧
  ∀ (m cap : Nat), 256 ≤ m →
    (∀ (c : Nat) (rest : List Nat), 256 ≤ c → lzwDecode m cap (c :: rest) = .error (.raise .malformedCode 0 c)) ∧
    ∀ (done rest : List Nat) (c : Nat) (d : Decoded), done ≠ [] → lzwDecode m cap done = .ok d →
      (d.nextCode < c ∨ (c = d.nextCode ∧ m ≤ d.nextCode) →
        lzwDecode m cap (done ++ c :: rest) = .error (.raise .malformedCode done.length c)) ∧
      ∀ d' : Decoded, lzwDecode m (d'.out.length + cap) (done ++ [c]) = .ok d' → cap < d'.out.length →
        lzwDecode m cap (done ++ c :: rest) = .error (.raise .capacityError done.length d'.out.length)

/-! ### Bit packer -/

/-- `CODE_PACK` on legal operands: the packed stream, padded with 1-bits, and its lengths (rule R144). -/
def Obligations.CodePackCompletes : Prop :=
  ∀ (s : State) (dst : BufId) (codes : List Nat) (w : Nat), s.holdsCodes codes → w = s.bitWidth.toNat →
    8 ≤ w → w ≤ wMax s.params → codes.length ≤ s.params.codeCap → (∀ c ∈ codes, c < 2 ^ w) →
    bytesFor (codes.length * w) ≤ s.params.bufCap →
    ∃ t, exec (.codePack dst) s = .next t ∧ t.completed ∧ t.status.err = s.status.err ∧
      t.bits dst = codes.length * w ∧ t.holdsStream dst (codes.flatMap (bin w)) ∧ t.padded dst true ∧
      t.status.empty = decide (codes = [])

/-- `CODE_UNPACK` on legal operands: `BUFS_BITS div BIT_WIDTH` codes, each the number of its bits, most significant first; no value
of the stream is an error (rule R147). -/
def Obligations.CodeUnpackCompletes : Prop :=
  ∀ (s : State) (src : BufId) (stream : List Bool) (w : Nat), s.holdsStream src stream → w = s.bitWidth.toNat →
    s.len src ≤ s.params.bufCap → s.bits src ≤ 8 * s.len src → 8 ≤ w → w ≤ wMax s.params →
    ∃ t, exec (.codeUnpack src) s = .next t ∧ t.completed ∧ t.status.err = s.status.err ∧
      t.codeCount.toNat = stream.length / w ∧
      (∀ i, i < stream.length / w →
        ∃ c, cellGet t.codes i = some c ∧ bin w c.toNat = (stream.drop (i * w)).take w ∧ c.toNat < 2 ^ w) ∧
      t.status.empty = decide (stream.length < w)

/-- Rule R150: packing and unpacking gives back the codes, with `BUFD_BITS` as written or `8·BUFD_LEN`. -/
def Obligations.PackerRoundTrip : Prop :=
  ∀ (s : State) (dst : BufId) (codes : List Nat) (w : Nat), s.holdsCodes codes → w = s.bitWidth.toNat →
    8 ≤ w → w ≤ wMax s.params → (∀ c ∈ codes, c < 2 ^ w) → bytesFor (codes.length * w) ≤ s.params.bufCap →
    ∃ t, s.runsTo (.codePack dst) t ∧ t.status.err = .none ∧
      ∀ u : State, u.params = s.params → u.bitWidth = t.bitWidth → t.sameBytes u dst →
        (u.bits dst = t.bits dst ∨ u.bits dst = 8 * t.len dst) →
        ∃ v, u.runsTo (.codeUnpack dst) v ∧ v.status.err = .none ∧ v.holdsCodes codes

/-! ### Huffman -/

/-- `HUF_FREQ` replaces every entry of `FREQ` by the count of its byte (rule R160). -/
def Obligations.HufFreqCompletes : Prop :=
  ∀ (s : State) (src : BufId) (data : List Byte), s.holds src data → data.length ≤ s.params.bufCap →
    ∃ t, exec (.hufFreq src) s = .next t ∧ t.completed ∧ t.status.err = s.status.err ∧
      (∀ v, (t.freqOf v).toNat = data.count v) ∧ t.status.empty = decide (data = [])

/-- `HUF_BUILD` completes from every state: one leaf per symbol with nonzero frequency, in ascending order of symbol (rule R163), then
the internal nodes; the whole arena is the one `buildArena` makes of `FREQ` alone (rules R162, R164, R167), of which the next two
statements say which children each internal node has; `NODE_COUNT = 2L − 1`, or 0; `TREE_VALID = 1`, `BOOK_VALID = 0` (rules R165,
R166). -/
def Obligations.HufBuildCompletes : Prop :=
  ∀ (s : State) (leaves : List Byte),
    leaves = ((List.range 256).map (BitVec.ofNat 8)).filter (fun v => s.freqOf v ≠ 0) →
    ∃ t, exec .hufBuild s = .next t ∧ t.completed ∧ t.status.err = s.status.err ∧
      t.node = nodeTable (buildArena s.freq) ∧ t.nodeCount.toNat = (buildArena s.freq).length ∧
      t.nodeCount.toNat = 2 * leaves.length - 1 ∧
      (∀ i (h : i < leaves.length), slotOf t.node i = .leaf leaves[i] ((s.freqOf leaves[i]).setWidth 40)) ∧
      (∀ i, leaves.length ≤ i → i < 2 * leaves.length - 1 →
        (slotOf t.node i).present = true ∧ (slotOf t.node i).isLeaf = false) ∧
      (∀ i, 2 * leaves.length - 1 ≤ i → slotOf t.node i = .absent) ∧
      t.status.treeValid = true ∧ t.status.bookValid = false ∧ t.status.empty = decide (leaves = []) ∧
      t.freq = s.freq

/-- Each merge of `HUF_BUILD` takes the two nodes least by frequency and, among equal frequencies, by index, of those not yet
merged: the first is the left child, the second the right, and the frequency is their exact sum (rules R162, R164, R168). -/
def Obligations.HufBuildMergesTwoLeast : Prop :=
  ∀ (freq : Vector Word 256) (node : Vector Slot 511) (k l r : Nat) (waiting : Nat → Prop) (before : Nat → Nat → Prop),
    node = nodeTable (buildArena freq) → (slotOf node k).present = true → (slotOf node k).isLeaf = false →
    l = (slotOf node k).left.toNat → r = (slotOf node k).right.toNat →
    (∀ j, waiting j ↔ j < k ∧ ¬childBefore node k j) →
    (∀ i j, before i j ↔ (slotOf node i).freq.toNat < (slotOf node j).freq.toNat ∨
      ((slotOf node i).freq.toNat = (slotOf node j).freq.toNat ∧ i < j)) →
    waiting l ∧ waiting r ∧ l ≠ r ∧ (∀ j, waiting j → j ≠ l → before l j) ∧
      (∀ j, waiting j → j ≠ l → j ≠ r → before r j) ∧
      (slotOf node k).freq.toNat = (slotOf node l).freq.toNat + (slotOf node r).freq.toNat

/-- The arena `HUF_BUILD` makes of any frequency table is a tree in which every node but the root has one parent (rules R164, R165),
and the root's frequency is the exact sum of `FREQ` (rule R168). -/
def Obligations.HufBuildMakesTree : Prop :=
  ∀ (freq : Vector Word 256) (node : Vector Slot 511) (n : Nat), node = nodeTable (buildArena freq) →
    n = (buildArena freq).length →
    ArenaTree node n ∧ (slotOf node (n - 1)).freq.toNat = (freq.toList.map BitVec.toNat).sum

/-- `HUF_BOOK` on a tree completes: each leaf's symbol gets the path from the root to the leaf, on which no node before the leaf is a
leaf, the one-leaf tree's symbol the code `[0]`, every other symbol no code; the whole codebook is that of `codebook`, of which the next two statements speak; `MAX_CODE_LEN` is the greatest length; `BOOK_VALID = 1` (rules R169 to R172). -/
def Obligations.HufBookCompletes : Prop :=
  ∀ (s : State) (n : Nat), s.TreeInv → s.status.treeValid = true → n = s.nodeCount.toNat →
    ∃ t, exec .hufBook s = .next t ∧ t.completed ∧ t.status.err = s.status.err ∧
      (∀ i, i < n → (slotOf s.node i).isLeaf = true →
        (n = 1 → t.bookCode (slotOf s.node i).sym = [false]) ∧
        (1 < n → t.bookCode (slotOf s.node i).sym ≠ [] ∧
          follow s.node (n - 1) (t.bookCode (slotOf s.node i).sym) = i ∧
          ∀ p, p <+: t.bookCode (slotOf s.node i).sym → p ≠ t.bookCode (slotOf s.node i).sym →
            (slotOf s.node (follow s.node (n - 1) p)).isLeaf = false)) ∧
      (∀ v, (∀ i, i < n → (slotOf s.node i).isLeaf = true → (slotOf s.node i).sym ≠ v) → t.bookCode v = []) ∧
      (∀ v, (t.bookCode v).length ≤ t.maxCodeLen.toNat) ∧ (∃ v, (t.bookCode v).length = t.maxCodeLen.toNat) ∧
      t.book = codebook s.node n ∧ t.status.bookValid = true

/-- No code of the codebook of a frequency table is a prefix of another (rule R173). -/
def Obligations.CodebookIsPrefixFree : Prop :=
  ∀ (freq : Vector Word 256) (book : Vector (List Bool) 256) (u v : Byte),
    book = codebook (nodeTable (buildArena freq)) (buildArena freq).length →
    u ≠ v → book[u.toNat]'u.isLt ≠ [] → book[v.toNat]'v.isLt ≠ [] →
    ¬ (book[u.toNat]'u.isLt) <+: (book[v.toNat]'v.isLt)

/-- Exactly the symbols with nonzero frequency have a code, and no code is longer than 255 bits (rules R9, R163, R172). -/
def Obligations.CodesOfOccurringSymbols : Prop :=
  ∀ (freq : Vector Word 256) (book : Vector (List Bool) 256) (v : Byte),
    book = codebook (nodeTable (buildArena freq)) (buildArena freq).length →
    (book[v.toNat]'v.isLt ≠ [] ↔ freq[v.toNat]'v.isLt ≠ 0) ∧ (book[v.toNat]'v.isLt).length ≤ 255

/-- `HUF_ENC` on bytes that all have a code, within the capacity: the codes in sequence order, padded with 0-bits, and the exact length
(rules R174 to R176). -/
def Obligations.HufEncCompletes : Prop :=
  ∀ (s : State) (src dst : BufId) (data : List Byte), s.holds src data → data.length ≤ s.params.bufCap →
    s.status.bookValid = true → (∀ v ∈ data, s.bookCode v ≠ []) →
    (data.flatMap s.bookCode).length ≤ 8 * s.params.bufCap →
    ∃ t, exec (.hufEnc src dst) s = .next t ∧ t.completed ∧ t.status.err = s.status.err ∧
      t.holdsStream dst (data.flatMap s.bookCode) ∧ t.padded dst false ∧ t.status.empty = decide (data = [])

/-- `HUF_DEC` with a valid tree decodes the concatenated path codes of any bytes that have one to those bytes (rules R178 to
R180, R184). -/
def Obligations.HufDecCompletes : Prop :=
  ∀ (s : State) (src dst : BufId) (data : List Byte) (book : Vector (List Bool) 256), s.TreeInv →
    s.status.treeValid = true → book = codebook s.node s.nodeCount.toNat →
    (∀ v ∈ data, book[v.toNat]'v.isLt ≠ []) →
    s.holdsStream src (data.flatMap fun v => book[v.toNat]'v.isLt) →
    s.len src ≤ s.params.bufCap → s.bits src ≤ 8 * s.len src → data.length ≤ s.params.bufCap →
    ∃ t, exec (.hufDec src dst) s = .next t ∧ t.completed ∧ t.status.err = s.status.err ∧
      t.holds dst data ∧ t.bits dst = 8 * data.length ∧ t.status.empty = decide (data = [])

/-- Rule R185: `HUF_FREQ`, `HUF_BUILD`, `HUF_BOOK`, `HUF_ENC`, then `HUF_DEC` of what was written, gives back the bytes; `HUF_ENC`
fails only for want of capacity. -/
def Obligations.HuffmanCommandsRoundTrip : Prop :=
  ∀ (s s1 s2 s3 s4 : State) (src dst : BufId) (data : List Byte), src ≠ dst → s.holds src data →
    data.length ≤ s.params.bufCap → s.runsTo (.hufFreq src) s1 → s1.runsTo .hufBuild s2 → s2.runsTo .hufBook s3 →
    s3.runsTo (.hufEnc src dst) s4 →
    (s4.status.err = .none ∨
      (s4.status.err = .capacityError ∧ 8 * s.params.bufCap < (data.flatMap s3.bookCode).length)) ∧
    ∀ (u : State) (out : BufId), s4.status.err = .none → out ≠ dst → u.params = s.params → u.node = s4.node →
      u.nodeCount = s4.nodeCount → u.status.treeValid = true → s4.sameBytes u dst → u.bits dst = s4.bits dst →
      ∃ v, u.runsTo (.hufDec dst out) v ∧ v.status.err = .none ∧ v.holds out data

/-- The data errors of `HUF_ENC`, at the first byte at which one applies: a byte with no code (rule R175), or a code that would exceed
the capacity (rule R177). -/
def Obligations.HufEncDataErrors : Prop :=
  ∀ (s : State) (src dst : BufId) (data : List Byte) (i len : Nat) (h : i < data.length), s.holds src data →
    data.length ≤ s.params.bufCap → s.status.bookValid = true →
    (∀ v ∈ data.take i, s.bookCode v ≠ []) → len = ((data.take i).flatMap s.bookCode).length →
    len ≤ 8 * s.params.bufCap →
    (s.bookCode data[i] = [] →
      ∃ t, exec (.hufEnc src dst) s = .next t ∧ s.failedAs t .treeError i data[i].toNat) ∧
    (s.bookCode data[i] ≠ [] → 8 * s.params.bufCap < len + (s.bookCode data[i]).length →
      ∃ t, exec (.hufEnc src dst) s = .next t ∧
        s.failedAs t .capacityError i (bytesFor (len + (s.bookCode data[i]).length)))

/-- The data errors of `HUF_DEC`: a bit in an empty tree (rule R181), a 1 bit in a one-leaf tree (rule R180), in a tree of two or
more leaves a stream that ends in mid-descent after whole codes (rule R182), and in either kind of tree the symbol that no longer
fits `BUF_CAP` bytes, with the index of the bit that completes it and the output length needed (rule R183). -/
def Obligations.HufDecDataErrors : Prop :=
  ∀ (s : State) (src dst : BufId) (stream : List Bool) (book : Vector (List Bool) 256), s.TreeInv →
    s.status.treeValid = true → s.holdsStream src stream → s.len src ≤ s.params.bufCap →
    s.bits src ≤ 8 * s.len src → book = codebook s.node s.nodeCount.toNat →
    (s.nodeCount = 0 → ∀ b rest, stream = b :: rest →
      ∃ t, exec (.hufDec src dst) s = .next t ∧ s.failedAs t .malformedCode 0 b.toNat) ∧
    (s.nodeCount = 1 → ∀ k rest, k ≤ s.params.bufCap → stream = List.replicate k false ++ true :: rest →
      ∃ t, exec (.hufDec src dst) s = .next t ∧ s.failedAs t .malformedCode k 1) ∧
    (s.nodeCount = 1 → ∀ rest, stream = List.replicate (s.params.bufCap + 1) false ++ rest →
      ∃ t, exec (.hufDec src dst) s = .next t ∧ s.failedAs t .capacityError s.params.bufCap (s.params.bufCap + 1)) ∧
    (1 < s.nodeCount.toNat → ∀ (data : List Byte) (v : Byte) (rest : List Bool), data.length = s.params.bufCap →
      (∀ u ∈ data ++ [v], book[u.toNat]'u.isLt ≠ []) →
      stream = ((data ++ [v]).flatMap fun u => book[u.toNat]'u.isLt) ++ rest →
      ∃ t, exec (.hufDec src dst) s = .next t ∧
        s.failedAs t .capacityError (((data ++ [v]).flatMap fun u => book[u.toNat]'u.isLt).length - 1)
          (s.params.bufCap + 1)) ∧
    (1 < s.nodeCount.toNat → ∀ (data : List Byte) (v : Byte) (tail : List Bool), data.length ≤ s.params.bufCap →
      (∀ u ∈ data, book[u.toNat]'u.isLt ≠ []) → tail ≠ [] → tail <+: book[v.toNat]'v.isLt →
      tail ≠ book[v.toNat]'v.isLt → stream = (data.flatMap fun u => book[u.toNat]'u.isLt) ++ tail →
      ∃ t, exec (.hufDec src dst) s = .next t ∧ s.failedAs t .truncatedStream stream.length tail.length)

/-- The commands of `COMPRESS`, then those of `DECOMPRESS`, then `BUF_CMP b0, b3`: for every input and `MAX_DICT` for which the
compressing commands raise no `CAPACITY_ERROR`, every command succeeds and `BUF3` holds the input (rules R212 to R214). -/
def Obligations.PipelineRoundTrips : Prop :=
  ∀ (s s1 s2 s3 s4 s5 : State) (data : List Byte), s.holds 0 data → data.length ≤ s.params.bufCap →
    256 ≤ s.maxDict.toNat → s.maxDict.toNat ≤ s.params.dictCap →
    s.runsTo (.lzwEnc 0 1) s1 → s1.status.err ≠ .capacityError →
    s1.runsTo (.hufFreq 1) s2 → s2.runsTo .hufBuild s3 → s3.runsTo .hufBook s4 →
    s4.runsTo (.hufEnc 1 2) s5 → s5.status.err ≠ .capacityError →
    s1.status.err = .none ∧ s2.status.err = .none ∧ s3.status.err = .none ∧ s4.status.err = .none ∧
      s5.status.err = .none ∧
      ∃ s6 s7 s8 s9, s5.runsTo .hufBuild s6 ∧ s6.status.err = .none ∧ s6.runsTo (.hufDec 2 1) s7 ∧
        s7.status.err = .none ∧ s7.runsTo (.lzwDec 1 3) s8 ∧ s8.status.err = .none ∧
        s8.runsTo (.bufCmp 0 3) s9 ∧ s9.status.err = .none ∧ s9.holds 3 data ∧ s9.holds 0 data

/-! ### Operand errors, in the order of rule R222 -/

/-- A `BUFS_LEN` above `BUF_CAP` is a `CONFIG_ERROR` before anything else is checked, for every command that reads the buffer
(rules R43, R222, R225). -/
def Obligations.LengthAboveCapacityFails : Prop :=
  ∀ (s : State) (src dst : BufId) (i : Instr), s.params.bufCap < s.len src →
    (i = .lzwEnc src dst ∨ i = .lzwDec src dst ∨ i = .codeUnpack src ∨ i = .hufFreq src ∨ i = .hufEnc src dst ∨
      i = .hufDec src dst ∨ i = .bufCmp src dst) →
    ∃ t, exec i s = .next t ∧ s.failedAs t .configError (0x40 + 8 * src.val) (s.len src)

/-- A `BUFS_BITS` above `8·BUFS_LEN` is a `CONFIG_ERROR`, for every command that reads a bit stream; and `BUF_CMP` checks its second
length after its first (rules R44, R202, R222, R225). -/
def Obligations.BitsAboveLengthFails : Prop :=
  ∀ (s : State) (src dst : BufId) (i : Instr), s.len src ≤ s.params.bufCap →
    (8 * s.len src < s.bits src → (i = .lzwDec src dst ∨ i = .codeUnpack src ∨ i = .hufDec src dst) →
      ∃ t, exec i s = .next t ∧ s.failedAs t .configError (0x44 + 8 * src.val) (s.bits src)) ∧
    (s.params.bufCap < s.len dst →
      ∃ t, exec (.bufCmp src dst) s = .next t ∧ s.failedAs t .configError (0x40 + 8 * dst.val) (s.len dst))

/-- A `MAX_DICT` outside `[256, DICT_CAP]` is a `CONFIG_ERROR` of the LZW commands, after the length checks (rules R35, R110,
R121, R222). -/
def Obligations.MaxDictOutOfRangeFails : Prop :=
  ∀ (s : State) (src dst : BufId), s.len src ≤ s.params.bufCap →
    (s.maxDict.toNat < 256 ∨ s.params.dictCap < s.maxDict.toNat) →
    (∃ t, exec (.lzwEnc src dst) s = .next t ∧ s.failedAs t .configError 0x10 s.maxDict.toNat) ∧
    (s.bits src ≤ 8 * s.len src →
      ∃ t, exec (.lzwDec src dst) s = .next t ∧ s.failedAs t .configError 0x10 s.maxDict.toNat)

/-- Rule R140: a `BIT_WIDTH` outside `[8, W_MAX]` is a `CONFIG_ERROR` of the three commands that read it, where no earlier check
fails. `W_MAX` is the least width for `DICT_CAP` values (rule R9). -/
def Obligations.WidthOutOfRangeFails : Prop :=
  (∀ p : Params, 8 ≤ wMax p ∧ wMax p ≤ 24 ∧ p.dictCap ≤ 2 ^ wMax p ∧ ∀ w, p.dictCap ≤ 2 ^ w → wMax p ≤ w) ∧
  ∀ (s : State) (src dst : BufId), (s.bitWidth.toNat < 8 ∨ wMax s.params < s.bitWidth.toNat) →
    (∃ t, exec (.codePack dst) s = .next t ∧ s.failedAs t .configError 0x14 s.bitWidth.toNat) ∧
    (s.len src ≤ s.params.bufCap → s.bits src ≤ 8 * s.len src →
      (∃ t, exec (.codeUnpack src) s = .next t ∧ s.failedAs t .configError 0x14 s.bitWidth.toNat) ∧
      (256 ≤ s.maxDict.toNat → s.maxDict.toNat ≤ s.params.dictCap →
        ∃ t, exec (.lzwDec src dst) s = .next t ∧ s.failedAs t .configError 0x14 s.bitWidth.toNat))

/-- `CODE_PACK` with a `CODE_COUNT` above `CODE_CAP`, or with a code that does not fit the width, reported at the first such code's
host address (rules R37, R144, R225). -/
def Obligations.CodePackOperandErrors : Prop :=
  ∀ (s : State) (dst : BufId), 8 ≤ s.bitWidth.toNat → s.bitWidth.toNat ≤ wMax s.params →
    (s.params.codeCap < s.codeCount.toNat →
      ∃ t, exec (.codePack dst) s = .next t ∧ s.failedAs t .configError 0x18 s.codeCount.toNat) ∧
    (s.codeCount.toNat ≤ s.params.codeCap → ∀ (fit : List Word) (c : Word), fit.length < s.codeCount.toNat →
      (∀ i (h : i < fit.length), cellGet s.codes i = some fit[i] ∧ fit[i].toNat < 2 ^ s.bitWidth.toNat) →
      cellGet s.codes fit.length = some c → 2 ^ s.bitWidth.toNat ≤ c.toNat →
      ∃ t, exec (.codePack dst) s = .next t ∧ s.failedAs t .configError (0x04000000 + 4 * fit.length) c.toNat)

/-- A missing tree or codebook is a `TREE_ERROR` with the number of the missing `STATUS` bit (rules R169, R174, R178, R265). -/
def Obligations.TreeAndBookAreNeeded : Prop :=
  ∀ (s : State) (src dst : BufId),
    (s.status.treeValid = false → ∃ t, exec .hufBook s = .next t ∧ s.failedAs t .treeError 0xFFFFFFFF 12) ∧
    (s.len src ≤ s.params.bufCap →
      (s.status.bookValid = false →
        ∃ t, exec (.hufEnc src dst) s = .next t ∧ s.failedAs t .treeError 0xFFFFFFFF 13) ∧
      (s.bits src ≤ 8 * s.len src → s.status.treeValid = false →
        ∃ t, exec (.hufDec src dst) s = .next t ∧ s.failedAs t .treeError 0xFFFFFFFF 12))

/-- A packed stream of more than `BUF_CAP` bytes is a `CAPACITY_ERROR` with the number of codes and the bytes it needs, and nothing else
is written (rules R120, R144, R225). -/
def Obligations.PackedStreamAboveCapacityFails : Prop :=
  (∀ (s : State) (src dst : BufId) (data : List Byte) (e : Encoded) (need : Nat), s.holds src data →
    data.length ≤ s.params.bufCap → 256 ≤ s.maxDict.toNat → s.maxDict.toNat ≤ s.params.dictCap →
    e = lzwEncode data s.maxDict.toNat → need = bytesFor (e.codes.length * clog2 e.nextCode) → s.params.bufCap < need →
    ∃ t, exec (.lzwEnc src dst) s = .next t ∧ s.failedAs t .capacityError e.codes.length need) ∧
  (∀ (s : State) (dst : BufId) (codes : List Nat) (need : Nat), s.holdsCodes codes →
    8 ≤ s.bitWidth.toNat → s.bitWidth.toNat ≤ wMax s.params → codes.length ≤ s.params.codeCap →
    (∀ c ∈ codes, c < 2 ^ s.bitWidth.toNat) → need = bytesFor (codes.length * s.bitWidth.toNat) →
    s.params.bufCap < need →
    ∃ t, exec (.codePack dst) s = .next t ∧ s.failedAs t .capacityError codes.length need)

/-! ### Whole-machine rules -/

/-- A command that raises commits none of its writes: only `STATUS.ERR`, `ERR_INFO`, `ERR_VALUE`, `BUSY` and `DONE` change from the
values at issue, and `EMPTY` and `FROZEN` stay 0 (rule R226). -/
def Obligations.FailureCommitsNothing : Prop :=
  ∀ (s t : State) (c : Word) (i : Instr), exec i (s.latch c) = .next t → t.status.err ≠ .none →
    (s.latch c).failedAs t t.status.err t.errInfo.toNat t.errValue.toNat ∧
      t.status.empty = false ∧ t.status.frozen = false

/-- Reissuing a failed command without changing its inputs fails again with the same record (rule R228). -/
def Obligations.FailedCommandFailsAgain : Prop :=
  ∀ (s t : State) (i : Instr), s.runsTo i t → t.status.err ≠ .none → t.runsTo i t

/-- No command is refused; a command faults only because a byte below the length of a buffer it reads, or, for `CODE_PACK`, an entry of
`CODES` below `CODE_COUNT`, was never written (rules R59, R87), and the fault names that cell's address. -/
def Obligations.CommandsFaultOnlyOnUnwritten : Prop :=
  ∀ (s : State) (i : Instr),
    (∃ t, exec i s = .next t ∧ t.completed) ∨
    ∃ a, exec i s = .fault (.unwrittenRead a) ∧
      ((∃ n ∈ readsBuffers i, ∃ k, k < s.len n ∧ a = bufBase n + k ∧ cellGet s.mem a = none) ∨
        ∃ dst k, i = .codePack dst ∧ k < s.codeCount.toNat ∧ a = 0x04000000 + 4 * k ∧ cellGet s.codes k = none)

/-- Which command writes which register, flag and table: each is unchanged by every other command (rules R31, R32, R35 to R42, R47 to
R53). -/
def Obligations.RegisterAndTableFrame : Prop :=
  ∀ (s t : State) (i : Instr), exec i s = .next t →
    t.params = s.params ∧ t.agent = s.agent ∧ t.cmd = s.cmd ∧
    (i ≠ .reset →
      t.irqEn = s.irqEn ∧ t.maxDict = s.maxDict ∧ t.status.werr = s.status.werr ∧
      ((∀ a b, i ≠ .lzwEnc a b) → t.bitWidth = s.bitWidth) ∧
      ((∀ a b, i ≠ .lzwEnc a b ∧ i ≠ .lzwDec a b) → t.nextCode = s.nextCode ∧ t.status.frozen = s.status.frozen) ∧
      (writesCodes i = false → t.codeCount = s.codeCount ∧ t.codes = s.codes) ∧
      ((∀ a, i ≠ .hufFreq a) → t.freq = s.freq) ∧
      (i ≠ .hufBuild → t.node = s.node ∧ t.nodeCount = s.nodeCount ∧ t.status.treeValid = s.status.treeValid) ∧
      (i ≠ .hufBook → t.book = s.book ∧ t.maxCodeLen = s.maxCodeLen) ∧
      (i ≠ .hufBuild → i ≠ .hufBook → t.status.bookValid = s.status.bookValid) ∧
      ((i = .nop ∨ i = .hufBook ∨ ∃ a b, i = .bufCmp a b) → t.status.empty = s.status.empty) ∧
      (∀ n, writesBuffer i ≠ some n → t.bufLen[n] = s.bufLen[n] ∧ t.bufBits[n] = s.bufBits[n]) ∧
      (t.status.err = s.status.err ∨ t.status.err ≠ .none) ∧
      (t.status.err = .none → t.errInfo = s.errInfo ∧ t.errValue = s.errValue))

/-- A command writes the destination buffer from `BUFBASE(dst)` up to the new `BUFD_LEN` and no other byte; a command without a
destination writes none; `CODES` entries from the new `CODE_COUNT` on are unchanged (rules R53, R54, R271). -/
def Obligations.MemoryFrame : Prop :=
  ∀ (s t : State) (i : Instr), exec i s = .next t →
    (∀ a, (∀ dst, writesBuffer i = some dst → a < bufBase dst ∨ bufBase dst + t.len dst ≤ a) →
      cellGet t.mem a = cellGet s.mem a) ∧
    (∀ k, (writesCodes i = true → t.codeCount.toNat ≤ k) → cellGet t.codes k = cellGet s.codes k)

/-! ### Invariants -/

/-- Every step keeps the buffers' memory and `CODES` in their canonical form and inside the mapped cells (rules R53, R54, R67). -/
def Obligations.StepKeepsMemory : Prop :=
  ∀ s t : State, s.MemoryInv → step s = .next t → t.MemoryInv

/-- Every step keeps `STATUS` and the error record consistent (rules R28 to R32, R81, R226, R227). -/
def Obligations.StepKeepsStatus : Prop :=
  ∀ s t : State, s.StatusInv → step s = .next t → t.StatusInv

/-- `NEXT_CODE` is always in `[256, DICT_CAP]` (rule R38). -/
def Obligations.StepKeepsNextCode : Prop :=
  ∀ s t : State, s.NextCodeInv → step s = .next t → t.NextCodeInv

/-- Every step keeps the arena a tree of `NODE_COUNT` nodes (rules R31, R41, R49, R165). -/
def Obligations.StepKeepsTree : Prop :=
  ∀ s t : State, s.TreeInv → step s = .next t → t.TreeInv

/-- While `BOOK_VALID = 1`, the codebook is always that of the current tree (rules R32, R172, R267). -/
def Obligations.StepKeepsBook : Prop :=
  ∀ s t : State, s.BookInv → step s = .next t → t.BookInv

/-- The state after reset meets every invariant, for every implementation. -/
def Obligations.ResetMeetsInvariants : Prop :=
  ∀ p : Params, (State.resetOf p).MemoryInv ∧ (State.resetOf p).StatusInv ∧ (State.resetOf p).NextCodeInv ∧
    (State.resetOf p).TreeInv ∧ (State.resetOf p).BookInv

/-! ### Host interface -/

/-- Issue (rule R81): a host write of `c` to `CMD` while idle. How many host steps precede the engine's is in the agent. -/
def Obligations.IssueLatchesCommand : Prop :=
  ∀ (s : State) (c : Word), s.status.busy = false →
    ∃ t, hostWrite s .s32 0x0C c = .ok t ∧ t.agent.host = s.agent.host ∧
      t = { s with
            cmd := c
            status := { s.status with busy := true, done := false, err := .none, empty := false, frozen := false }
            errInfo := 0
            errValue := 0
            agent := t.agent }

/-- A host write while busy to `CTRL` takes effect and to `STATUS` clears its write-1-to-clear bits; any other mapped write is ignored
and sets `WERR` (D28; rules R33, R46, R50, R52, R266). That it sets `WERR` also at a read-only register, of which rule R85 says only that it
is ignored, is DEDUCED from D28 (log entry 4). -/
def Obligations.BusyWritesAreIgnored : Prop :=
  ∀ (s t : State) (size : Size) (addr v : Word) (l : Location), s.status.busy = true →
    locate s.params size addr = some l → hostWrite s size addr v = .ok t →
    (l = .register .ctrl → t = { s with irqEn := v.getLsbD 0 }) ∧
    (l = .register .status → t = { s with status := { s.status with
      done := s.status.done && !v.getLsbD 1, werr := s.status.werr && !v.getLsbD 16 } }) ∧
    (l ≠ .register .ctrl → l ≠ .register .status → t = { s with status := { s.status with werr := true } })

/-- A host read while busy of `ID`, `CTRL`, `STATUS` or `CMD` gives the current value; a read of anything else gives some value that fits
the access size; no read changes the core (rules R65, R84). -/
def Obligations.BusyReads : Prop :=
  ∀ (s : State) (size : Size) (addr : Word) (l : Location), s.status.busy = true →
    locate s.params size addr = some l →
    ∃ v t, hostRead s size addr = .ok (v, t) ∧ t = { s with agent := t.agent } ∧ t.agent.host = s.agent.host ∧
      v.toNat < 2 ^ (8 * size.bytes) ∧
      (l = .register .id → v = 0x544B0007) ∧ (l = .register .ctrl → v.toNat = s.irqEn.toNat) ∧
      (l = .register .status → v = s.status.toWord) ∧ (l = .register .cmd → v = s.cmd)

/-- While idle each register reads its value at the address the register summary gives it, and no read changes anything (rule R65); a
write to `CTRL` stores bit 0 and to a parameter register any 32-bit value, and nothing else changes; the value is read back, and every
other register reads as before; a read-only register and the `NODE` and `BOOK` views ignore the write; every reserved word reads 0 and
ignores it; an entry of `FREQ` or `CODES` stores the value and reads it back, and the other entries are as before (rules R10, R23, R24,
R35 to R46, R48, R50, R52, R53). -/
def Obligations.IdleHostWrites : Prop :=
  ∀ (s : State) (v : Word), s.status.busy = false →
    (∀ (a : Nat) (x : Word), (a, x) ∈ [(0x00, 0x544B0007), (0x04, BitVec.ofNat 32 s.irqEn.toNat), (0x08, s.status.toWord),
        (0x0C, s.cmd), (0x10, s.maxDict), (0x14, s.bitWidth), (0x18, s.codeCount), (0x1C, s.nextCode),
        (0x20, s.errInfo), (0x24, s.errValue), (0x28, s.nodeCount), (0x2C, s.maxCodeLen),
        (0x40, s.bufLen[0]), (0x44, s.bufBits[0]), (0x48, s.bufLen[1]), (0x4C, s.bufBits[1]),
        (0x50, s.bufLen[2]), (0x54, s.bufBits[2]), (0x58, s.bufLen[3]), (0x5C, s.bufBits[3]),
        (0x60, BitVec.ofNat 32 s.params.bufCap), (0x64, BitVec.ofNat 32 s.params.dictCap)] →
      hostRead s .s32 (BitVec.ofNat 32 a) = .ok (x, s)) ∧
    (∀ (a : Nat) (t : State), (a, t) ∈ [(0x04, { s with irqEn := v.getLsbD 0 }), (0x10, { s with maxDict := v }),
        (0x14, { s with bitWidth := v }), (0x18, { s with codeCount := v }),
        (0x40, { s with bufLen := s.bufLen.set 0 v }), (0x44, { s with bufBits := s.bufBits.set 0 v }),
        (0x48, { s with bufLen := s.bufLen.set 1 v }), (0x4C, { s with bufBits := s.bufBits.set 1 v }),
        (0x50, { s with bufLen := s.bufLen.set 2 v }), (0x54, { s with bufBits := s.bufBits.set 2 v }),
        (0x58, { s with bufLen := s.bufLen.set 3 v }), (0x5C, { s with bufBits := s.bufBits.set 3 v })] →
      hostWrite s .s32 (BitVec.ofNat 32 a) v = .ok t) ∧
    (∀ a, a ∈ [0x00, 0x1C, 0x20, 0x24, 0x28, 0x2C, 0x60, 0x64] →
      hostWrite s .s32 (BitVec.ofNat 32 a) v = .ok s) ∧
    (∀ a, a % 4 = 0 → (0x30 ≤ a ∧ a < 0x40) ∨ (0x68 ≤ a ∧ a < 0x100) →
      hostRead s .s32 (BitVec.ofNat 32 a) = .ok (0, s) ∧ hostWrite s .s32 (BitVec.ofNat 32 a) v = .ok s) ∧
    (∀ r, r ∈ [Reg.maxDict, .bitWidth, .codeCount, .bufLen 0, .bufLen 1, .bufLen 2, .bufLen 3, .bufBits 0, .bufBits 1,
        .bufBits 2, .bufBits 3] →
      ∃ t, hostWrite s .s32 (BitVec.ofNat 32 r.addr) v = .ok t ∧
        hostRead t .s32 (BitVec.ofNat 32 r.addr) = .ok (v, t) ∧
        ∀ q, q ≠ r → t.readReg q = s.readReg q) ∧
    (∀ a, 0x2000 ≤ a → a < 0x8000 → a % 4 = 0 → hostWrite s .s32 (BitVec.ofNat 32 a) v = .ok s) ∧
    (∀ u : Byte, ∃ t, hostWrite s .s32 (BitVec.ofNat 32 (0x400 + 4 * u.toNat)) v = .ok t ∧ t = { s with freq := t.freq } ∧
      hostRead t .s32 (BitVec.ofNat 32 (0x400 + 4 * u.toNat)) = .ok (v, t) ∧ t.freqOf u = v ∧
      ∀ w, w ≠ u → t.freqOf w = s.freqOf w) ∧
    (∀ i, i < s.params.codeCap →
      ∃ t, hostWrite s .s32 (BitVec.ofNat 32 (0x04000000 + 4 * i)) v = .ok t ∧ t = { s with codes := t.codes } ∧
        hostRead t .s32 (BitVec.ofNat 32 (0x04000000 + 4 * i)) = .ok (v, t) ∧ cellGet t.codes i = some v ∧
        ∀ j, j ≠ i → cellGet t.codes j = cellGet s.codes j)

/-- Rule R25: the place of each field of `STATUS`, zero in every reserved bit, and what a host write to it does. -/
def Obligations.StatusWordLayout : Prop :=
  (∀ st : Status,
    st.toWord.getLsbD 0 = st.busy ∧ st.toWord.getLsbD 1 = st.done ∧
    (st.toWord.extractLsb' 4 4).toNat = st.err.code ∧ st.toWord.getLsbD 8 = st.empty ∧
    st.toWord.getLsbD 9 = st.frozen ∧ st.toWord.getLsbD 12 = st.treeValid ∧ st.toWord.getLsbD 13 = st.bookValid ∧
    st.toWord.getLsbD 16 = st.werr ∧
    ∀ b, (b = 2 ∨ b = 3 ∨ b = 10 ∨ b = 11 ∨ b = 14 ∨ b = 15 ∨ 17 ≤ b) → st.toWord.getLsbD b = false) ∧
  Status.reset.toWord = 0x00000000 ∧
  ∀ (s : State) (v : Word), hostWrite s .s32 0x08 v =
    .ok { s with status := { s.status with
      done := if v.getLsbD 1 then false else s.status.done
      werr := if v.getLsbD 16 then false else s.status.werr } }

/-- A host access is a bus error exactly when it is misaligned, smaller than 32 bits outside the buffers, or touches an unmapped byte, and
a bus error is what a read and a write then give (rules R63, R64, R67, R72); and a host read of any size, while idle, that touches a
buffer byte that nothing has written, or an unwritten `CODES` entry, is the fault `UnwrittenRead` (rules R59, R79). That it names the
first such byte of the access is DEDUCED (log entry 2). -/
def Obligations.HostAccessFaults : Prop :=
  (∀ (s : State) (size : Size) (addr v : Word),
    (locate s.params size addr = none ↔
      addr.toNat % size.bytes ≠ 0 ∨ (size ≠ .s32 ∧ addr.toNat < 0x10000000) ∨
        ∃ k, k < size.bytes ∧ ¬mappedByte s.params (addr.toNat + k)) ∧
    (locate s.params size addr = none ↔ hostRead s size addr = .error (.busError addr size)) ∧
    (locate s.params size addr = none ↔ hostWrite s size addr v = .error (.busError addr size))) ∧
  ∀ (s : State) (addr : Word), s.status.busy = false →
    (0x10000000 ≤ addr.toNat → ∀ size, locate s.params size addr ≠ none → ∀ k, k < size.bytes →
      (∀ j, j < k → cellGet s.mem (addr.toNat + j) ≠ none) → cellGet s.mem (addr.toNat + k) = none →
      hostRead s size addr = .error (.unwrittenRead (addr.toNat + k))) ∧
    (∀ i, i < s.params.codeCap → addr.toNat = 0x04000000 + 4 * i → cellGet s.codes i = none →
      hostRead s .s32 addr = .error (.unwrittenRead addr.toNat))

/-- Buffer accesses are little-endian: a write stores byte `k` of the value at address `a + k` and leaves every other byte, and a read
gives the written value back; a read of bytes that were all written has the byte at `a + k` as its byte `k` (rules R61, R79). For an
8- or 16-bit write of a value of more bits than the access, which rule R71 excludes, that the low bits are stored and read back is the
model's choice (DEDUCED: log entry 14). -/
def Obligations.BufferAccessIsLittleEndian : Prop :=
  (∀ (s : State) (size : Size) (addr : Word), s.status.busy = false → 0x10000000 ≤ addr.toNat →
    locate s.params size addr ≠ none → (∀ k, k < size.bytes → cellGet s.mem (addr.toNat + k) ≠ none) →
    ∃ x : Word, hostRead s size addr = .ok (x, s) ∧ x.toNat < 2 ^ (8 * size.bytes) ∧
      ∀ k, k < size.bytes → cellGet s.mem (addr.toNat + k) = some (x.extractLsb' (8 * k) 8)) ∧
  ∀ (s : State) (size : Size) (addr v : Word), s.status.busy = false → 0x10000000 ≤ addr.toNat →
    locate s.params size addr ≠ none →
    ∃ t, hostWrite s size addr v = .ok t ∧ t = { s with mem := t.mem } ∧
      (∀ k, k < size.bytes → cellGet t.mem (addr.toNat + k) = some (v.extractLsb' (8 * k) 8)) ∧
      (∀ a, a < addr.toNat ∨ addr.toNat + size.bytes ≤ a → cellGet t.mem a = cellGet s.mem a) ∧
      hostRead t size addr = .ok (BitVec.ofNat 32 (v.toNat % 2 ^ (8 * size.bytes)), t)

/-- The host's views of a node and of a codebook entry, bit for bit (rules R50, R52). -/
def Obligations.TableViews : Prop :=
  (∀ (s : State) (i : Nat) (n : Slot), s.status.busy = false → i < 512 → n = slotOf s.node i →
    ∃ w0 w1 w2 w3 : Word,
      hostRead s .s32 (BitVec.ofNat 32 (0x2000 + 16 * i)) = .ok (w0, s) ∧
      hostRead s .s32 (BitVec.ofNat 32 (0x2000 + 16 * i + 4)) = .ok (w1, s) ∧
      hostRead s .s32 (BitVec.ofNat 32 (0x2000 + 16 * i + 8)) = .ok (w2, s) ∧
      hostRead s .s32 (BitVec.ofNat 32 (0x2000 + 16 * i + 12)) = .ok (w3, s) ∧
      w0.getLsbD 31 = n.present ∧ w0.getLsbD 30 = n.isLeaf ∧ w0.extractLsb' 0 8 = n.sym ∧
      w0.extractLsb' 8 22 = 0 ∧ w1.extractLsb' 0 9 = n.left ∧ w1.extractLsb' 16 9 = n.right ∧
      w1.extractLsb' 9 7 = 0 ∧ w1.extractLsb' 25 7 = 0 ∧
      w2 = n.freq.extractLsb' 0 32 ∧ w3.toNat = (n.freq.extractLsb' 32 8).toNat) ∧
  (∀ (s : State) (v : Byte) (w : Nat), s.status.busy = false → w < 16 → (s.bookCode v).length ≤ 255 →
    ∃ x : Word, hostRead s .s32 (BitVec.ofNat 32 (0x4000 + 64 * v.toNat + 4 * w)) = .ok (x, s) ∧
      (w = 0 → x.toNat = (s.bookCode v).length) ∧
      (1 ≤ w → w ≤ 8 → ∀ b, b < 32 → x.getLsbD (31 - b) = (s.bookCode v).getD (32 * (w - 1) + b) false) ∧
      (9 ≤ w → x = 0))

/-- A busy core reaches the engine's step: a host that waits, after the pending number of host steps, whatever that number is; a host
program with no step left, at once, whatever that number is (rules R86, R88, R105). That the engine then moves at once, that the number is held in `agent.delay`, and that `WAIT` is one operation done again at each host step, are the model's choices (DESIGN
CHOICE: log entries 6 and 7); the rules say only that finitely many host steps come before. -/
def Obligations.WaitReachesCompletion : Prop :=
  (∀ (s : State) (rest : List HostOp), s.status.busy = true → s.agent.host = .wait :: rest →
    core.run (s.agent.delay + 1) s = engineStep { s with agent := { s.agent with delay := 0 } }) ∧
  ∀ s : State, s.status.busy = true → s.agent.host = [] ∨ s.agent.delay = 0 → step s = engineStep s

/-- `IRQ` follows `CTRL.IRQ_EN` at every completion, is 0 after `RESET`, is cleared by an issue and by a write of 1 to `DONE`, and rises in
the write that sets `IRQ_EN` while `DONE = 1` (rules R230, R231). -/
def Obligations.InterruptFollowsDone : Prop :=
  (∀ (i : Instr) (s t : State), exec i s = .next t → t.irq = t.irqEn ∧ (i = .reset → t.irq = false)) ∧
  (∀ (s t : State) (c : Word), s.status.busy = false → hostWrite s .s32 0x0C c = .ok t → t.irq = false) ∧
  (∀ (s t : State) (v : Word), v.getLsbD 1 = true → hostWrite s .s32 0x08 v = .ok t → t.irq = false) ∧
  (∀ (s t : State) (v : Word), s.status.done = true → hostWrite s .s32 0x04 v = .ok t → t.irq = v.getLsbD 0)
end

