-- ==== Sys2Proof/Laws/Bits.lean ====
section
/-! SUPPORT. The laws of numbers as bit lists, of packing and of unpacking. -/

namespace Sys2Proof.Machine

/-! ### bin and num -/

@[simp] theorem length_bin (w c : Nat) : (bin w c).length = w := by
  induction w with
  | zero => rfl
  | succ w ih => simp [bin, ih]

theorem getElem_bin {w c i : Nat} (h : i < (bin w c).length) : (bin w c)[i] = c.testBit (w - 1 - i) := by
  induction w generalizing i with
  | zero => simp at h
  | succ w ih =>
    cases i with
    | zero => simp [bin]
    | succ i =>
      simp only [bin, List.getElem_cons_succ]
      rw [ih (by simpa using h)]
      congr 1
      omega

theorem foldl_num (n : Nat) (bs : List Bool) :
    bs.foldl (fun n b => 2 * n + b.toNat) n = n * 2 ^ bs.length + num bs := by
  induction bs generalizing n with
  | nil => simp [num]
  | cons b bs ih =>
    simp only [num, List.foldl_cons, List.length_cons]
    rw [ih, ih (2 * 0 + b.toNat)]
    ring

@[simp] theorem num_nil : num [] = 0 := rfl

theorem num_cons (b : Bool) (bs : List Bool) : num (b :: bs) = b.toNat * 2 ^ bs.length + num bs := by
  show List.foldl _ (2 * 0 + b.toNat) bs = _
  rw [foldl_num]; simp

theorem num_append (as bs : List Bool) : num (as ++ bs) = num as * 2 ^ bs.length + num bs := by
  induction as with
  | nil => simp
  | cons a as ih => rw [List.cons_append, num_cons, num_cons, ih, List.length_append]; ring

theorem num_lt (bs : List Bool) : num bs < 2 ^ bs.length := by
  induction bs with
  | nil => simp
  | cons b bs ih =>
    rw [num_cons, List.length_cons, Nat.pow_succ]
    cases b <;> simp <;> omega

/-- `num` reads back the low `w` bits `bin` wrote. -/
theorem num_bin_mod (w c : Nat) : num (bin w c) = c % 2 ^ w := by
  induction w with
  | zero => simp [bin, Nat.mod_one]
  | succ w ih =>
    rw [bin, num_cons, ih, length_bin, Nat.mod_pow_succ, Nat.toNat_testBit]
    ring

theorem num_bin {w c : Nat} (h : c < 2 ^ w) : num (bin w c) = c := by
  rw [num_bin_mod, Nat.mod_eq_of_lt h]

/-- `bin` looks at the low `w` bits only. -/
theorem bin_mod (w c : Nat) : bin w (c % 2 ^ w) = bin w c := by
  apply List.ext_getElem (by simp)
  intro i h1 h2
  rw [getElem_bin, getElem_bin, Nat.testBit_mod_two_pow]
  simp only [length_bin] at h1
  simp; omega

/-- `bin` reads back the bit list of a number. -/
theorem bin_num (bs : List Bool) : bin bs.length (num bs) = bs := by
  induction bs with
  | nil => rfl
  | cons b bs ih =>
    have h := num_lt bs
    rw [List.length_cons, bin, ← bin_mod bs.length, num_cons, Nat.mul_comm, Nat.mul_add_mod, Nat.mod_eq_of_lt h, ih,
      Nat.testBit_eq_decide_div_mod_eq, Nat.mul_add_div (by positivity), Nat.div_eq_of_lt h]
    cases b <;> simp

/-! ### Chunks -/

theorem chunks_length (w n : Nat) (bits : List Bool) : (chunks w n bits).length = n := by
  induction n generalizing bits with
  | zero => rfl
  | succ n ih => simp [chunks, ih]

/-- Chunk `i` is the number of its `w` bits. -/
theorem getElem_chunks {w n i : Nat} {bits : List Bool} (h : i < (chunks w n bits).length) :
    (chunks w n bits)[i] = num ((bits.drop (i * w)).take w) := by
  induction n generalizing bits i with
  | zero => simp [chunks] at h
  | succ n ih =>
    cases i with
    | zero => simp [chunks]
    | succ i =>
      simp only [chunks, List.getElem_cons_succ]
      rw [ih, List.drop_drop]
      congr 3; ring

@[simp] theorem length_codeBits (w : Nat) (codes : List Nat) : (codeBits w codes).length = codes.length * w := by
  induction codes with
  | nil => simp [codeBits]
  | cons c cs ih =>
    have : codeBits w (c :: cs) = bin w c ++ codeBits w cs := rfl
    rw [this, List.length_append, ih, length_bin, List.length_cons]; ring

/-- Unpacking gives back packed codes, whatever follows them (rule R148). -/
theorem chunks_codeBits {w : Nat} {codes : List Nat} (h : ∀ c ∈ codes, c < 2 ^ w) (rest : List Bool) :
    chunks w codes.length (codeBits w codes ++ rest) = codes := by
  induction codes with
  | nil => rfl
  | cons c cs ih =>
    have e : codeBits w (c :: cs) = bin w c ++ codeBits w cs := rfl
    have hl : (bin w c).length = w := length_bin w c
    rw [List.length_cons, chunks, e, List.append_assoc, List.take_append_of_le_length (by omega),
      List.take_of_length_le (by omega), List.drop_append_of_le_length (by omega), List.drop_of_length_le (by omega),
      List.nil_append, num_bin (h c (by simp)), ih fun x hx => h x (by simp [hx])]

/-- The unpacker recovers the codes from `BITS = n·w` and from `BITS = 8·LEN` (rule R148). -/
theorem unpackCodes_codeBits {w : Nat} {codes : List Nat} (h : ∀ c ∈ codes, c < 2 ^ w) {rest : List Bool}
    (hr : rest.length < w) : unpackCodes (codeBits w codes ++ rest) w = codes := by
  have : (codeBits w codes ++ rest).length / w = codes.length := by
    rw [List.length_append, length_codeBits, Nat.mul_comm, Nat.mul_add_div (by omega), Nat.div_eq_of_lt hr]; omega
  rw [unpackCodes, this, chunks_codeBits h]

/-! ### Bytes -/

theorem padLen_lt (n : Nat) : padLen n < 8 := by unfold padLen; omega

theorem padLen_spec (n : Nat) : (n + padLen n) % 8 = 0 ∧ (n + padLen n) / 8 = bytesFor n := by
  unfold padLen bytesFor; omega

@[simp] theorem bytesOfBits_length (n : Nat) (bits : List Bool) : (bytesOfBits n bits).length = n := by
  induction n generalizing bits with
  | zero => rfl
  | succ n ih => simp [bytesOfBits, ih]

/-- The bytes of `PackBits` (rules R141, R142). -/
@[simp] theorem packBits_length (bits : List Bool) (pad : Bool) : (packBits bits pad).length = bytesFor bits.length := by
  rw [packBits, bytesOfBits_length, (padLen_spec _).2]

@[simp] theorem bitsOfBytes_length (bytes : List Byte) : (bitsOfBytes bytes).length = 8 * bytes.length := by
  induction bytes with
  | nil => rfl
  | cons b bs ih =>
    have : bitsOfBytes (b :: bs) = bin 8 b.toNat ++ bitsOfBytes bs := rfl
    rw [this, List.length_append, ih, length_bin, List.length_cons]; ring

/-- The bits of packed bytes are the bits that were packed. -/
theorem bitsOfBytes_bytesOfBits {n : Nat} {bits : List Bool} (h : bits.length = 8 * n) :
    bitsOfBytes (bytesOfBits n bits) = bits := by
  induction n generalizing bits with
  | zero => simp at h; simp [h, bytesOfBits, bitsOfBytes]
  | succ n ih =>
    have e : ∀ (b : Byte) bs, bitsOfBytes (b :: bs) = bin 8 b.toNat ++ bitsOfBytes bs := fun _ _ => rfl
    have hl : (bits.take 8).length = 8 := by rw [List.length_take]; omega
    have hn := num_lt (bits.take 8)
    rw [hl] at hn
    have hb : bin 8 (num (bits.take 8)) = bits.take 8 := by simpa only [hl] using bin_num (bits.take 8)
    rw [bytesOfBits, e, ih (by rw [List.length_drop]; omega), BitVec.toNat_ofNat, Nat.mod_eq_of_lt hn, hb,
      List.take_append_drop]

/-- The stream bits of a packed stream are the stream and its pad (rule R141). -/
theorem bitsOfBytes_packBits (bits : List Bool) (pad : Bool) :
    bitsOfBytes (packBits bits pad) = bits ++ List.replicate (padLen bits.length) pad := by
  apply bitsOfBytes_bytesOfBits
  have := padLen_spec bits.length
  rw [List.length_append, List.length_replicate]; omega

/-- Stream bit `k` of a list of bytes is bit `7 − (k mod 8)` of byte `k div 8` (rule R60). -/
theorem getElem_bitsOfBytes {bytes : List Byte} {k : Nat} (h : k < (bitsOfBytes bytes).length)
    (h2 : k / 8 < bytes.length) : (bitsOfBytes bytes)[k] = bytes[k / 8].getLsbD (7 - k % 8) := by
  induction bytes generalizing k with
  | nil => simp at h2
  | cons b bs ih =>
    have e : bitsOfBytes (b :: bs) = bin 8 b.toNat ++ bitsOfBytes bs := rfl
    simp only [e]
    by_cases hk : k < 8
    · rw [List.getElem_append_left (by simpa using hk), getElem_bin]
      have h0 : k / 8 = 0 := by omega
      have h1 : k % 8 = k := by omega
      simp only [h0, h1, List.getElem_cons_zero, BitVec.getLsbD]
    · have h0 : k / 8 = (k - 8) / 8 + 1 := by omega
      have h1 : k % 8 = (k - 8) % 8 := by omega
      rw [List.getElem_append_right (by simpa using hk)]
      simp only [h0, h1, List.getElem_cons_succ, length_bin]
      rw [ih]

/-! ### clog2 -/

theorem clog2From_spec (fuel w x : Nat) (h : x ≤ 2 ^ (w + fuel)) :
    x ≤ 2 ^ (w + clog2From fuel w x) ∧ ∀ v, w ≤ v → x ≤ 2 ^ v → w + clog2From fuel w x ≤ v := by
  induction fuel generalizing w with
  | zero => exact ⟨by simpa [clog2From] using h, fun v hv _ => by simpa [clog2From] using hv⟩
  | succ fuel ih =>
    simp only [clog2From]
    split
    · rename_i hx
      have := ih (w + 1) (by rwa [show w + 1 + fuel = w + (fuel + 1) by omega])
      refine ⟨by rw [show w + (clog2From fuel (w + 1) x + 1) = w + 1 + clog2From fuel (w + 1) x by omega]; exact this.1, ?_⟩
      intro v hv hxv
      have hw : w ≠ v := by rintro rfl; omega
      have := this.2 v (by omega) hxv
      omega
    · exact ⟨by simp; omega, fun v hv _ => by simpa using hv⟩

/-- `clog2(x)` is enough bits for `x` values (rule R12). -/
theorem le_two_pow_clog2 (x : Nat) : x ≤ 2 ^ clog2 x := by
  have := (clog2From_spec x 0 x (by simpa using Nat.lt_two_pow_self.le)).1
  simpa [clog2] using this

/-- `clog2(x)` is the least such width (rule R12). -/
theorem clog2_le {x v : Nat} (h : x ≤ 2 ^ v) : clog2 x ≤ v := by
  have := (clog2From_spec x 0 x (by simpa using Nat.lt_two_pow_self.le)).2 v (Nat.zero_le v) h
  simpa [clog2] using this

theorem clog2_mono {x y : Nat} (h : x ≤ y) : clog2 x ≤ clog2 y := clog2_le (h.trans (le_two_pow_clog2 y))

end Sys2Proof.Machine
end

