-- ==== Sys2Proof/Laws/Cells.lean ====
section
/-! SUPPORT. The laws of the cell lists: read after write, and that every write keeps the canonical form. -/

namespace Sys2Proof.Machine

variable {α : Type}

@[simp] theorem cellGet_nil (a : Nat) : cellGet ([] : List (Nat × α)) a = none := rfl

/-- Read after write: the written cell gives the value, every other cell what it gave. -/
theorem cellGet_cellPut (m : List (Nat × α)) (a b : Nat) (v : α) :
    cellGet (cellPut m a v) b = if b = a then some v else cellGet m b := by
  induction m with
  | nil => simp [cellPut, cellGet]
  | cons c m ih =>
    obtain ⟨k, u⟩ := c
    simp only [cellPut]
    split
    · simp [cellGet]
    · split
      · rename_i h; subst h; simp only [cellGet]; split <;> simp_all
      · simp only [cellGet, ih]
        by_cases hk : b = k <;> by_cases ha : b = a <;> simp_all

@[simp] theorem cellGet_cellPut_same (m : List (Nat × α)) (a : Nat) (v : α) :
    cellGet (cellPut m a v) a = some v := by simp [cellGet_cellPut]

theorem cellGet_cellPut_other {m : List (Nat × α)} {a b : Nat} {v : α} (h : b ≠ a) :
    cellGet (cellPut m a v) b = cellGet m b := by simp [cellGet_cellPut, h]

/-- A run of writes: the cells of the run give the values, every other cell what it gave. -/
theorem cellGet_cellPutRun (m : List (Nat × α)) (base : Nat) (vs : List α) (a : Nat) :
    cellGet (cellPutRun m base vs) a =
      if base ≤ a ∧ a < base + vs.length then vs[a - base]? else cellGet m a := by
  induction vs generalizing m base with
  | nil => simp only [cellPutRun, List.length_nil]; split <;> first | omega | rfl
  | cons v vs ih =>
    simp only [cellPutRun, ih, cellGet_cellPut, List.length_cons]
    by_cases h1 : base + 1 ≤ a ∧ a < base + 1 + vs.length
    · have h2 : base ≤ a ∧ a < base + (vs.length + 1) := by omega
      have h3 : a - base = (a - (base + 1)) + 1 := by omega
      rw [if_pos h1, if_pos h2, h3, List.getElem?_cons_succ]
    · rw [if_neg h1]
      by_cases h4 : a = base
      · subst h4
        have h5 : a ≤ a ∧ a < a + (vs.length + 1) := by omega
        rw [if_pos rfl, if_pos h5]; simp
      · have h6 : ¬(base ≤ a ∧ a < base + (vs.length + 1)) := by omega
        rw [if_neg h4, if_neg h6]

/-- Outside the run nothing changes. -/
theorem cellGet_cellPutRun_outside {m : List (Nat × α)} {base : Nat} {vs : List α} {a : Nat}
    (h : a < base ∨ base + vs.length ≤ a) : cellGet (cellPutRun m base vs) a = cellGet m a := by
  rw [cellGet_cellPutRun, if_neg (by omega)]

/-- Inside the run the values are read. -/
theorem cellGet_cellPutRun_inside {m : List (Nat × α)} {base : Nat} {vs : List α} {i : Nat} (h : i < vs.length) :
    cellGet (cellPutRun m base vs) (base + i) = some vs[i] := by
  rw [cellGet_cellPutRun, if_pos (by omega), show base + i - base = i by omega, List.getElem?_eq_getElem h]

/-- A cell of a written list is the written one or was there. -/
theorem mem_cellPut {m : List (Nat × α)} {a : Nat} {v : α} {c : Nat × α} (h : c ∈ cellPut m a v) :
    c = (a, v) ∨ c ∈ m := by
  induction m with
  | nil => simpa [cellPut] using h
  | cons d m ih =>
    obtain ⟨k, u⟩ := d
    simp only [cellPut] at h
    split at h
    · simpa using h
    · split at h
      · simp only [List.mem_cons] at h ⊢; tauto
      · simp only [List.mem_cons] at h ⊢; tauto

/-- A cell of a list after a run of writes lies in the run or was there. -/
theorem mem_cellPutRun {m : List (Nat × α)} {base : Nat} {vs : List α} {c : Nat × α}
    (h : c ∈ cellPutRun m base vs) : (base ≤ c.1 ∧ c.1 < base + vs.length) ∨ c ∈ m := by
  induction vs generalizing m base with
  | nil => exact .inr h
  | cons v vs ih =>
    rcases ih h with h1 | h1
    · exact .inl (by simp only [List.length_cons]; omega)
    · rcases mem_cellPut h1 with rfl | h2
      · exact .inl (by simp)
      · exact .inr h2

theorem cellPut_keys {m : List (Nat × α)} {a : Nat} {v : α} {k : Nat} (hk : k < a)
    (h : ∀ x ∈ m.map Prod.fst, k < x) : ∀ x ∈ (cellPut m a v).map Prod.fst, k < x := by
  intro x hx
  obtain ⟨c, hc, rfl⟩ := List.mem_map.1 hx
  rcases mem_cellPut hc with rfl | h1
  · exact hk
  · exact h _ (List.mem_map.2 ⟨c, h1, rfl⟩)

/-- Writing a cell keeps the canonical form. -/
theorem cellPut_wf {m : List (Nat × α)} (a : Nat) (v : α) (h : cellsWf m) : cellsWf (cellPut m a v) := by
  induction m with
  | nil => simp [cellsWf, cellPut]
  | cons c m ih =>
    obtain ⟨k, u⟩ := c
    simp only [cellsWf, List.map_cons, List.pairwise_cons] at h
    simp only [cellPut]
    split
    · rename_i hk
      simp only [cellsWf, List.map_cons, List.pairwise_cons, List.mem_cons]
      refine ⟨?_, h.1, h.2⟩
      rintro x (rfl | hx)
      · exact hk
      · exact hk.trans (h.1 x hx)
    · split
      · rename_i hk; subst hk
        simpa only [cellsWf, List.map_cons, List.pairwise_cons] using h
      · rename_i h1 h2
        simp only [cellsWf, List.map_cons, List.pairwise_cons]
        exact ⟨cellPut_keys (by omega) h.1, ih h.2⟩

/-- A run of writes keeps the canonical form. -/
theorem cellPutRun_wf {m : List (Nat × α)} (base : Nat) (vs : List α) (h : cellsWf m) :
    cellsWf (cellPutRun m base vs) := by
  induction vs generalizing m base with
  | nil => exact h
  | cons v vs ih => exact ih (base + 1) (cellPut_wf base v h)

end Sys2Proof.Machine
end

