-- ==== Sys2Proof/Laws/State.lean ====
section
/-! SUPPORT. Each field of the state after each named update, so that no proof unfolds a record update. -/

namespace Sys2Proof.Machine

variable (s : State)

/-! ### State.finish -/

@[simp] theorem State.finish_params : (s.finish).params = s.params := rfl
@[simp] theorem State.finish_irqEn : (s.finish).irqEn = s.irqEn := rfl
@[simp] theorem State.finish_status : (s.finish).status = { s.status with busy := false, done := true } := rfl
@[simp] theorem State.finish_cmd : (s.finish).cmd = s.cmd := rfl
@[simp] theorem State.finish_maxDict : (s.finish).maxDict = s.maxDict := rfl
@[simp] theorem State.finish_bitWidth : (s.finish).bitWidth = s.bitWidth := rfl
@[simp] theorem State.finish_codeCount : (s.finish).codeCount = s.codeCount := rfl
@[simp] theorem State.finish_nextCode : (s.finish).nextCode = s.nextCode := rfl
@[simp] theorem State.finish_errInfo : (s.finish).errInfo = s.errInfo := rfl
@[simp] theorem State.finish_errValue : (s.finish).errValue = s.errValue := rfl
@[simp] theorem State.finish_nodeCount : (s.finish).nodeCount = s.nodeCount := rfl
@[simp] theorem State.finish_maxCodeLen : (s.finish).maxCodeLen = s.maxCodeLen := rfl
@[simp] theorem State.finish_bufLen : (s.finish).bufLen = s.bufLen := rfl
@[simp] theorem State.finish_bufBits : (s.finish).bufBits = s.bufBits := rfl
@[simp] theorem State.finish_freq : (s.finish).freq = s.freq := rfl
@[simp] theorem State.finish_node : (s.finish).node = s.node := rfl
@[simp] theorem State.finish_book : (s.finish).book = s.book := rfl
@[simp] theorem State.finish_codes : (s.finish).codes = s.codes := rfl
@[simp] theorem State.finish_mem : (s.finish).mem = s.mem := rfl
@[simp] theorem State.finish_agent : (s.finish).agent = s.agent := rfl

/-! ### State.recordError -/

@[simp] theorem State.recordError_params (e : ErrCode) (info value : Nat) : (s.recordError e info value).params = s.params := rfl
@[simp] theorem State.recordError_irqEn (e : ErrCode) (info value : Nat) : (s.recordError e info value).irqEn = s.irqEn := rfl
@[simp] theorem State.recordError_status (e : ErrCode) (info value : Nat) : (s.recordError e info value).status = { s.status with err := e } := rfl
@[simp] theorem State.recordError_cmd (e : ErrCode) (info value : Nat) : (s.recordError e info value).cmd = s.cmd := rfl
@[simp] theorem State.recordError_maxDict (e : ErrCode) (info value : Nat) : (s.recordError e info value).maxDict = s.maxDict := rfl
@[simp] theorem State.recordError_bitWidth (e : ErrCode) (info value : Nat) : (s.recordError e info value).bitWidth = s.bitWidth := rfl
@[simp] theorem State.recordError_codeCount (e : ErrCode) (info value : Nat) : (s.recordError e info value).codeCount = s.codeCount := rfl
@[simp] theorem State.recordError_nextCode (e : ErrCode) (info value : Nat) : (s.recordError e info value).nextCode = s.nextCode := rfl
@[simp] theorem State.recordError_errInfo (e : ErrCode) (info value : Nat) : (s.recordError e info value).errInfo = BitVec.ofNat 32 info := rfl
@[simp] theorem State.recordError_errValue (e : ErrCode) (info value : Nat) : (s.recordError e info value).errValue = BitVec.ofNat 32 value := rfl
@[simp] theorem State.recordError_nodeCount (e : ErrCode) (info value : Nat) : (s.recordError e info value).nodeCount = s.nodeCount := rfl
@[simp] theorem State.recordError_maxCodeLen (e : ErrCode) (info value : Nat) : (s.recordError e info value).maxCodeLen = s.maxCodeLen := rfl
@[simp] theorem State.recordError_bufLen (e : ErrCode) (info value : Nat) : (s.recordError e info value).bufLen = s.bufLen := rfl
@[simp] theorem State.recordError_bufBits (e : ErrCode) (info value : Nat) : (s.recordError e info value).bufBits = s.bufBits := rfl
@[simp] theorem State.recordError_freq (e : ErrCode) (info value : Nat) : (s.recordError e info value).freq = s.freq := rfl
@[simp] theorem State.recordError_node (e : ErrCode) (info value : Nat) : (s.recordError e info value).node = s.node := rfl
@[simp] theorem State.recordError_book (e : ErrCode) (info value : Nat) : (s.recordError e info value).book = s.book := rfl
@[simp] theorem State.recordError_codes (e : ErrCode) (info value : Nat) : (s.recordError e info value).codes = s.codes := rfl
@[simp] theorem State.recordError_mem (e : ErrCode) (info value : Nat) : (s.recordError e info value).mem = s.mem := rfl
@[simp] theorem State.recordError_agent (e : ErrCode) (info value : Nat) : (s.recordError e info value).agent = s.agent := rfl

/-! ### State.latch -/

@[simp] theorem State.latch_params (c : Word) : (s.latch c).params = s.params := rfl
@[simp] theorem State.latch_irqEn (c : Word) : (s.latch c).irqEn = s.irqEn := rfl
@[simp] theorem State.latch_status (c : Word) : (s.latch c).status = { s.status with busy := true, done := false, err := .none, empty := false, frozen := false } := rfl
@[simp] theorem State.latch_cmd (c : Word) : (s.latch c).cmd = c := rfl
@[simp] theorem State.latch_maxDict (c : Word) : (s.latch c).maxDict = s.maxDict := rfl
@[simp] theorem State.latch_bitWidth (c : Word) : (s.latch c).bitWidth = s.bitWidth := rfl
@[simp] theorem State.latch_codeCount (c : Word) : (s.latch c).codeCount = s.codeCount := rfl
@[simp] theorem State.latch_nextCode (c : Word) : (s.latch c).nextCode = s.nextCode := rfl
@[simp] theorem State.latch_errInfo (c : Word) : (s.latch c).errInfo = 0 := rfl
@[simp] theorem State.latch_errValue (c : Word) : (s.latch c).errValue = 0 := rfl
@[simp] theorem State.latch_nodeCount (c : Word) : (s.latch c).nodeCount = s.nodeCount := rfl
@[simp] theorem State.latch_maxCodeLen (c : Word) : (s.latch c).maxCodeLen = s.maxCodeLen := rfl
@[simp] theorem State.latch_bufLen (c : Word) : (s.latch c).bufLen = s.bufLen := rfl
@[simp] theorem State.latch_bufBits (c : Word) : (s.latch c).bufBits = s.bufBits := rfl
@[simp] theorem State.latch_freq (c : Word) : (s.latch c).freq = s.freq := rfl
@[simp] theorem State.latch_node (c : Word) : (s.latch c).node = s.node := rfl
@[simp] theorem State.latch_book (c : Word) : (s.latch c).book = s.book := rfl
@[simp] theorem State.latch_codes (c : Word) : (s.latch c).codes = s.codes := rfl
@[simp] theorem State.latch_mem (c : Word) : (s.latch c).mem = s.mem := rfl
@[simp] theorem State.latch_agent (c : Word) : (s.latch c).agent = s.agent := rfl

/-! ### State.issue -/

@[simp] theorem State.issue_params (c : Word) : (s.issue c).params = s.params := rfl
@[simp] theorem State.issue_irqEn (c : Word) : (s.issue c).irqEn = s.irqEn := rfl
@[simp] theorem State.issue_status (c : Word) : (s.issue c).status = { s.status with busy := true, done := false, err := .none, empty := false, frozen := false } := rfl
@[simp] theorem State.issue_cmd (c : Word) : (s.issue c).cmd = c := rfl
@[simp] theorem State.issue_maxDict (c : Word) : (s.issue c).maxDict = s.maxDict := rfl
@[simp] theorem State.issue_bitWidth (c : Word) : (s.issue c).bitWidth = s.bitWidth := rfl
@[simp] theorem State.issue_codeCount (c : Word) : (s.issue c).codeCount = s.codeCount := rfl
@[simp] theorem State.issue_nextCode (c : Word) : (s.issue c).nextCode = s.nextCode := rfl
@[simp] theorem State.issue_errInfo (c : Word) : (s.issue c).errInfo = 0 := rfl
@[simp] theorem State.issue_errValue (c : Word) : (s.issue c).errValue = 0 := rfl
@[simp] theorem State.issue_nodeCount (c : Word) : (s.issue c).nodeCount = s.nodeCount := rfl
@[simp] theorem State.issue_maxCodeLen (c : Word) : (s.issue c).maxCodeLen = s.maxCodeLen := rfl
@[simp] theorem State.issue_bufLen (c : Word) : (s.issue c).bufLen = s.bufLen := rfl
@[simp] theorem State.issue_bufBits (c : Word) : (s.issue c).bufBits = s.bufBits := rfl
@[simp] theorem State.issue_freq (c : Word) : (s.issue c).freq = s.freq := rfl
@[simp] theorem State.issue_node (c : Word) : (s.issue c).node = s.node := rfl
@[simp] theorem State.issue_book (c : Word) : (s.issue c).book = s.book := rfl
@[simp] theorem State.issue_codes (c : Word) : (s.issue c).codes = s.codes := rfl
@[simp] theorem State.issue_mem (c : Word) : (s.issue c).mem = s.mem := rfl
@[simp] theorem State.issue_agent (c : Word) : (s.issue c).agent = s.agent.startDelay := rfl

/-! ### State.writeOutput -/

@[simp] theorem State.writeOutput_params (n : BufId) (bytes : List Byte) (nbits : Nat) : (s.writeOutput n bytes nbits).params = s.params := rfl
@[simp] theorem State.writeOutput_irqEn (n : BufId) (bytes : List Byte) (nbits : Nat) : (s.writeOutput n bytes nbits).irqEn = s.irqEn := rfl
@[simp] theorem State.writeOutput_status (n : BufId) (bytes : List Byte) (nbits : Nat) : (s.writeOutput n bytes nbits).status = s.status := rfl
@[simp] theorem State.writeOutput_cmd (n : BufId) (bytes : List Byte) (nbits : Nat) : (s.writeOutput n bytes nbits).cmd = s.cmd := rfl
@[simp] theorem State.writeOutput_maxDict (n : BufId) (bytes : List Byte) (nbits : Nat) : (s.writeOutput n bytes nbits).maxDict = s.maxDict := rfl
@[simp] theorem State.writeOutput_bitWidth (n : BufId) (bytes : List Byte) (nbits : Nat) : (s.writeOutput n bytes nbits).bitWidth = s.bitWidth := rfl
@[simp] theorem State.writeOutput_codeCount (n : BufId) (bytes : List Byte) (nbits : Nat) : (s.writeOutput n bytes nbits).codeCount = s.codeCount := rfl
@[simp] theorem State.writeOutput_nextCode (n : BufId) (bytes : List Byte) (nbits : Nat) : (s.writeOutput n bytes nbits).nextCode = s.nextCode := rfl
@[simp] theorem State.writeOutput_errInfo (n : BufId) (bytes : List Byte) (nbits : Nat) : (s.writeOutput n bytes nbits).errInfo = s.errInfo := rfl
@[simp] theorem State.writeOutput_errValue (n : BufId) (bytes : List Byte) (nbits : Nat) : (s.writeOutput n bytes nbits).errValue = s.errValue := rfl
@[simp] theorem State.writeOutput_nodeCount (n : BufId) (bytes : List Byte) (nbits : Nat) : (s.writeOutput n bytes nbits).nodeCount = s.nodeCount := rfl
@[simp] theorem State.writeOutput_maxCodeLen (n : BufId) (bytes : List Byte) (nbits : Nat) : (s.writeOutput n bytes nbits).maxCodeLen = s.maxCodeLen := rfl
@[simp] theorem State.writeOutput_bufLen (n : BufId) (bytes : List Byte) (nbits : Nat) : (s.writeOutput n bytes nbits).bufLen = s.bufLen.set n (BitVec.ofNat 32 bytes.length) := rfl
@[simp] theorem State.writeOutput_bufBits (n : BufId) (bytes : List Byte) (nbits : Nat) : (s.writeOutput n bytes nbits).bufBits = s.bufBits.set n (BitVec.ofNat 32 nbits) := rfl
@[simp] theorem State.writeOutput_freq (n : BufId) (bytes : List Byte) (nbits : Nat) : (s.writeOutput n bytes nbits).freq = s.freq := rfl
@[simp] theorem State.writeOutput_node (n : BufId) (bytes : List Byte) (nbits : Nat) : (s.writeOutput n bytes nbits).node = s.node := rfl
@[simp] theorem State.writeOutput_book (n : BufId) (bytes : List Byte) (nbits : Nat) : (s.writeOutput n bytes nbits).book = s.book := rfl
@[simp] theorem State.writeOutput_codes (n : BufId) (bytes : List Byte) (nbits : Nat) : (s.writeOutput n bytes nbits).codes = s.codes := rfl
@[simp] theorem State.writeOutput_mem (n : BufId) (bytes : List Byte) (nbits : Nat) : (s.writeOutput n bytes nbits).mem = cellPutRun s.mem (bufBase n) bytes := rfl
@[simp] theorem State.writeOutput_agent (n : BufId) (bytes : List Byte) (nbits : Nat) : (s.writeOutput n bytes nbits).agent = s.agent := rfl

/-! ### State.writeCodes -/

@[simp] theorem State.writeCodes_params (cs : List Nat) : (s.writeCodes cs).params = s.params := rfl
@[simp] theorem State.writeCodes_irqEn (cs : List Nat) : (s.writeCodes cs).irqEn = s.irqEn := rfl
@[simp] theorem State.writeCodes_status (cs : List Nat) : (s.writeCodes cs).status = s.status := rfl
@[simp] theorem State.writeCodes_cmd (cs : List Nat) : (s.writeCodes cs).cmd = s.cmd := rfl
@[simp] theorem State.writeCodes_maxDict (cs : List Nat) : (s.writeCodes cs).maxDict = s.maxDict := rfl
@[simp] theorem State.writeCodes_bitWidth (cs : List Nat) : (s.writeCodes cs).bitWidth = s.bitWidth := rfl
@[simp] theorem State.writeCodes_codeCount (cs : List Nat) : (s.writeCodes cs).codeCount = BitVec.ofNat 32 cs.length := rfl
@[simp] theorem State.writeCodes_nextCode (cs : List Nat) : (s.writeCodes cs).nextCode = s.nextCode := rfl
@[simp] theorem State.writeCodes_errInfo (cs : List Nat) : (s.writeCodes cs).errInfo = s.errInfo := rfl
@[simp] theorem State.writeCodes_errValue (cs : List Nat) : (s.writeCodes cs).errValue = s.errValue := rfl
@[simp] theorem State.writeCodes_nodeCount (cs : List Nat) : (s.writeCodes cs).nodeCount = s.nodeCount := rfl
@[simp] theorem State.writeCodes_maxCodeLen (cs : List Nat) : (s.writeCodes cs).maxCodeLen = s.maxCodeLen := rfl
@[simp] theorem State.writeCodes_bufLen (cs : List Nat) : (s.writeCodes cs).bufLen = s.bufLen := rfl
@[simp] theorem State.writeCodes_bufBits (cs : List Nat) : (s.writeCodes cs).bufBits = s.bufBits := rfl
@[simp] theorem State.writeCodes_freq (cs : List Nat) : (s.writeCodes cs).freq = s.freq := rfl
@[simp] theorem State.writeCodes_node (cs : List Nat) : (s.writeCodes cs).node = s.node := rfl
@[simp] theorem State.writeCodes_book (cs : List Nat) : (s.writeCodes cs).book = s.book := rfl
@[simp] theorem State.writeCodes_codes (cs : List Nat) : (s.writeCodes cs).codes = cellPutRun s.codes 0 (cs.map (BitVec.ofNat 32)) := rfl
@[simp] theorem State.writeCodes_mem (cs : List Nat) : (s.writeCodes cs).mem = s.mem := rfl
@[simp] theorem State.writeCodes_agent (cs : List Nat) : (s.writeCodes cs).agent = s.agent := rfl

/-! ### State.setNextCode -/

@[simp] theorem State.setNextCode_params (n : Nat) : (s.setNextCode n).params = s.params := rfl
@[simp] theorem State.setNextCode_irqEn (n : Nat) : (s.setNextCode n).irqEn = s.irqEn := rfl
@[simp] theorem State.setNextCode_status (n : Nat) : (s.setNextCode n).status = s.status := rfl
@[simp] theorem State.setNextCode_cmd (n : Nat) : (s.setNextCode n).cmd = s.cmd := rfl
@[simp] theorem State.setNextCode_maxDict (n : Nat) : (s.setNextCode n).maxDict = s.maxDict := rfl
@[simp] theorem State.setNextCode_bitWidth (n : Nat) : (s.setNextCode n).bitWidth = s.bitWidth := rfl
@[simp] theorem State.setNextCode_codeCount (n : Nat) : (s.setNextCode n).codeCount = s.codeCount := rfl
@[simp] theorem State.setNextCode_nextCode (n : Nat) : (s.setNextCode n).nextCode = BitVec.ofNat 32 n := rfl
@[simp] theorem State.setNextCode_errInfo (n : Nat) : (s.setNextCode n).errInfo = s.errInfo := rfl
@[simp] theorem State.setNextCode_errValue (n : Nat) : (s.setNextCode n).errValue = s.errValue := rfl
@[simp] theorem State.setNextCode_nodeCount (n : Nat) : (s.setNextCode n).nodeCount = s.nodeCount := rfl
@[simp] theorem State.setNextCode_maxCodeLen (n : Nat) : (s.setNextCode n).maxCodeLen = s.maxCodeLen := rfl
@[simp] theorem State.setNextCode_bufLen (n : Nat) : (s.setNextCode n).bufLen = s.bufLen := rfl
@[simp] theorem State.setNextCode_bufBits (n : Nat) : (s.setNextCode n).bufBits = s.bufBits := rfl
@[simp] theorem State.setNextCode_freq (n : Nat) : (s.setNextCode n).freq = s.freq := rfl
@[simp] theorem State.setNextCode_node (n : Nat) : (s.setNextCode n).node = s.node := rfl
@[simp] theorem State.setNextCode_book (n : Nat) : (s.setNextCode n).book = s.book := rfl
@[simp] theorem State.setNextCode_codes (n : Nat) : (s.setNextCode n).codes = s.codes := rfl
@[simp] theorem State.setNextCode_mem (n : Nat) : (s.setNextCode n).mem = s.mem := rfl
@[simp] theorem State.setNextCode_agent (n : Nat) : (s.setNextCode n).agent = s.agent := rfl

/-! ### State.setBitWidth -/

@[simp] theorem State.setBitWidth_params (w : Nat) : (s.setBitWidth w).params = s.params := rfl
@[simp] theorem State.setBitWidth_irqEn (w : Nat) : (s.setBitWidth w).irqEn = s.irqEn := rfl
@[simp] theorem State.setBitWidth_status (w : Nat) : (s.setBitWidth w).status = s.status := rfl
@[simp] theorem State.setBitWidth_cmd (w : Nat) : (s.setBitWidth w).cmd = s.cmd := rfl
@[simp] theorem State.setBitWidth_maxDict (w : Nat) : (s.setBitWidth w).maxDict = s.maxDict := rfl
@[simp] theorem State.setBitWidth_bitWidth (w : Nat) : (s.setBitWidth w).bitWidth = BitVec.ofNat 32 w := rfl
@[simp] theorem State.setBitWidth_codeCount (w : Nat) : (s.setBitWidth w).codeCount = s.codeCount := rfl
@[simp] theorem State.setBitWidth_nextCode (w : Nat) : (s.setBitWidth w).nextCode = s.nextCode := rfl
@[simp] theorem State.setBitWidth_errInfo (w : Nat) : (s.setBitWidth w).errInfo = s.errInfo := rfl
@[simp] theorem State.setBitWidth_errValue (w : Nat) : (s.setBitWidth w).errValue = s.errValue := rfl
@[simp] theorem State.setBitWidth_nodeCount (w : Nat) : (s.setBitWidth w).nodeCount = s.nodeCount := rfl
@[simp] theorem State.setBitWidth_maxCodeLen (w : Nat) : (s.setBitWidth w).maxCodeLen = s.maxCodeLen := rfl
@[simp] theorem State.setBitWidth_bufLen (w : Nat) : (s.setBitWidth w).bufLen = s.bufLen := rfl
@[simp] theorem State.setBitWidth_bufBits (w : Nat) : (s.setBitWidth w).bufBits = s.bufBits := rfl
@[simp] theorem State.setBitWidth_freq (w : Nat) : (s.setBitWidth w).freq = s.freq := rfl
@[simp] theorem State.setBitWidth_node (w : Nat) : (s.setBitWidth w).node = s.node := rfl
@[simp] theorem State.setBitWidth_book (w : Nat) : (s.setBitWidth w).book = s.book := rfl
@[simp] theorem State.setBitWidth_codes (w : Nat) : (s.setBitWidth w).codes = s.codes := rfl
@[simp] theorem State.setBitWidth_mem (w : Nat) : (s.setBitWidth w).mem = s.mem := rfl
@[simp] theorem State.setBitWidth_agent (w : Nat) : (s.setBitWidth w).agent = s.agent := rfl

/-! ### State.setFreq -/

@[simp] theorem State.setFreq_params (f : Vector Word 256) : (s.setFreq f).params = s.params := rfl
@[simp] theorem State.setFreq_irqEn (f : Vector Word 256) : (s.setFreq f).irqEn = s.irqEn := rfl
@[simp] theorem State.setFreq_status (f : Vector Word 256) : (s.setFreq f).status = s.status := rfl
@[simp] theorem State.setFreq_cmd (f : Vector Word 256) : (s.setFreq f).cmd = s.cmd := rfl
@[simp] theorem State.setFreq_maxDict (f : Vector Word 256) : (s.setFreq f).maxDict = s.maxDict := rfl
@[simp] theorem State.setFreq_bitWidth (f : Vector Word 256) : (s.setFreq f).bitWidth = s.bitWidth := rfl
@[simp] theorem State.setFreq_codeCount (f : Vector Word 256) : (s.setFreq f).codeCount = s.codeCount := rfl
@[simp] theorem State.setFreq_nextCode (f : Vector Word 256) : (s.setFreq f).nextCode = s.nextCode := rfl
@[simp] theorem State.setFreq_errInfo (f : Vector Word 256) : (s.setFreq f).errInfo = s.errInfo := rfl
@[simp] theorem State.setFreq_errValue (f : Vector Word 256) : (s.setFreq f).errValue = s.errValue := rfl
@[simp] theorem State.setFreq_nodeCount (f : Vector Word 256) : (s.setFreq f).nodeCount = s.nodeCount := rfl
@[simp] theorem State.setFreq_maxCodeLen (f : Vector Word 256) : (s.setFreq f).maxCodeLen = s.maxCodeLen := rfl
@[simp] theorem State.setFreq_bufLen (f : Vector Word 256) : (s.setFreq f).bufLen = s.bufLen := rfl
@[simp] theorem State.setFreq_bufBits (f : Vector Word 256) : (s.setFreq f).bufBits = s.bufBits := rfl
@[simp] theorem State.setFreq_freq (f : Vector Word 256) : (s.setFreq f).freq = f := rfl
@[simp] theorem State.setFreq_node (f : Vector Word 256) : (s.setFreq f).node = s.node := rfl
@[simp] theorem State.setFreq_book (f : Vector Word 256) : (s.setFreq f).book = s.book := rfl
@[simp] theorem State.setFreq_codes (f : Vector Word 256) : (s.setFreq f).codes = s.codes := rfl
@[simp] theorem State.setFreq_mem (f : Vector Word 256) : (s.setFreq f).mem = s.mem := rfl
@[simp] theorem State.setFreq_agent (f : Vector Word 256) : (s.setFreq f).agent = s.agent := rfl

/-! ### State.setTree -/

@[simp] theorem State.setTree_params (t : Vector Slot 511) (n : Nat) : (s.setTree t n).params = s.params := rfl
@[simp] theorem State.setTree_irqEn (t : Vector Slot 511) (n : Nat) : (s.setTree t n).irqEn = s.irqEn := rfl
@[simp] theorem State.setTree_status (t : Vector Slot 511) (n : Nat) : (s.setTree t n).status = { s.status with treeValid := true, bookValid := false } := rfl
@[simp] theorem State.setTree_cmd (t : Vector Slot 511) (n : Nat) : (s.setTree t n).cmd = s.cmd := rfl
@[simp] theorem State.setTree_maxDict (t : Vector Slot 511) (n : Nat) : (s.setTree t n).maxDict = s.maxDict := rfl
@[simp] theorem State.setTree_bitWidth (t : Vector Slot 511) (n : Nat) : (s.setTree t n).bitWidth = s.bitWidth := rfl
@[simp] theorem State.setTree_codeCount (t : Vector Slot 511) (n : Nat) : (s.setTree t n).codeCount = s.codeCount := rfl
@[simp] theorem State.setTree_nextCode (t : Vector Slot 511) (n : Nat) : (s.setTree t n).nextCode = s.nextCode := rfl
@[simp] theorem State.setTree_errInfo (t : Vector Slot 511) (n : Nat) : (s.setTree t n).errInfo = s.errInfo := rfl
@[simp] theorem State.setTree_errValue (t : Vector Slot 511) (n : Nat) : (s.setTree t n).errValue = s.errValue := rfl
@[simp] theorem State.setTree_nodeCount (t : Vector Slot 511) (n : Nat) : (s.setTree t n).nodeCount = BitVec.ofNat 32 n := rfl
@[simp] theorem State.setTree_maxCodeLen (t : Vector Slot 511) (n : Nat) : (s.setTree t n).maxCodeLen = s.maxCodeLen := rfl
@[simp] theorem State.setTree_bufLen (t : Vector Slot 511) (n : Nat) : (s.setTree t n).bufLen = s.bufLen := rfl
@[simp] theorem State.setTree_bufBits (t : Vector Slot 511) (n : Nat) : (s.setTree t n).bufBits = s.bufBits := rfl
@[simp] theorem State.setTree_freq (t : Vector Slot 511) (n : Nat) : (s.setTree t n).freq = s.freq := rfl
@[simp] theorem State.setTree_node (t : Vector Slot 511) (n : Nat) : (s.setTree t n).node = t := rfl
@[simp] theorem State.setTree_book (t : Vector Slot 511) (n : Nat) : (s.setTree t n).book = s.book := rfl
@[simp] theorem State.setTree_codes (t : Vector Slot 511) (n : Nat) : (s.setTree t n).codes = s.codes := rfl
@[simp] theorem State.setTree_mem (t : Vector Slot 511) (n : Nat) : (s.setTree t n).mem = s.mem := rfl
@[simp] theorem State.setTree_agent (t : Vector Slot 511) (n : Nat) : (s.setTree t n).agent = s.agent := rfl

/-! ### State.setBook -/

@[simp] theorem State.setBook_params (b : Vector (List Bool) 256) (n : Nat) : (s.setBook b n).params = s.params := rfl
@[simp] theorem State.setBook_irqEn (b : Vector (List Bool) 256) (n : Nat) : (s.setBook b n).irqEn = s.irqEn := rfl
@[simp] theorem State.setBook_status (b : Vector (List Bool) 256) (n : Nat) : (s.setBook b n).status = { s.status with bookValid := true } := rfl
@[simp] theorem State.setBook_cmd (b : Vector (List Bool) 256) (n : Nat) : (s.setBook b n).cmd = s.cmd := rfl
@[simp] theorem State.setBook_maxDict (b : Vector (List Bool) 256) (n : Nat) : (s.setBook b n).maxDict = s.maxDict := rfl
@[simp] theorem State.setBook_bitWidth (b : Vector (List Bool) 256) (n : Nat) : (s.setBook b n).bitWidth = s.bitWidth := rfl
@[simp] theorem State.setBook_codeCount (b : Vector (List Bool) 256) (n : Nat) : (s.setBook b n).codeCount = s.codeCount := rfl
@[simp] theorem State.setBook_nextCode (b : Vector (List Bool) 256) (n : Nat) : (s.setBook b n).nextCode = s.nextCode := rfl
@[simp] theorem State.setBook_errInfo (b : Vector (List Bool) 256) (n : Nat) : (s.setBook b n).errInfo = s.errInfo := rfl
@[simp] theorem State.setBook_errValue (b : Vector (List Bool) 256) (n : Nat) : (s.setBook b n).errValue = s.errValue := rfl
@[simp] theorem State.setBook_nodeCount (b : Vector (List Bool) 256) (n : Nat) : (s.setBook b n).nodeCount = s.nodeCount := rfl
@[simp] theorem State.setBook_maxCodeLen (b : Vector (List Bool) 256) (n : Nat) : (s.setBook b n).maxCodeLen = BitVec.ofNat 32 n := rfl
@[simp] theorem State.setBook_bufLen (b : Vector (List Bool) 256) (n : Nat) : (s.setBook b n).bufLen = s.bufLen := rfl
@[simp] theorem State.setBook_bufBits (b : Vector (List Bool) 256) (n : Nat) : (s.setBook b n).bufBits = s.bufBits := rfl
@[simp] theorem State.setBook_freq (b : Vector (List Bool) 256) (n : Nat) : (s.setBook b n).freq = s.freq := rfl
@[simp] theorem State.setBook_node (b : Vector (List Bool) 256) (n : Nat) : (s.setBook b n).node = s.node := rfl
@[simp] theorem State.setBook_book (b : Vector (List Bool) 256) (n : Nat) : (s.setBook b n).book = b := rfl
@[simp] theorem State.setBook_codes (b : Vector (List Bool) 256) (n : Nat) : (s.setBook b n).codes = s.codes := rfl
@[simp] theorem State.setBook_mem (b : Vector (List Bool) 256) (n : Nat) : (s.setBook b n).mem = s.mem := rfl
@[simp] theorem State.setBook_agent (b : Vector (List Bool) 256) (n : Nat) : (s.setBook b n).agent = s.agent := rfl

/-! ### State.setEmpty -/

@[simp] theorem State.setEmpty_params (b : Bool) : (s.setEmpty b).params = s.params := rfl
@[simp] theorem State.setEmpty_irqEn (b : Bool) : (s.setEmpty b).irqEn = s.irqEn := rfl
@[simp] theorem State.setEmpty_status (b : Bool) : (s.setEmpty b).status = { s.status with empty := b } := rfl
@[simp] theorem State.setEmpty_cmd (b : Bool) : (s.setEmpty b).cmd = s.cmd := rfl
@[simp] theorem State.setEmpty_maxDict (b : Bool) : (s.setEmpty b).maxDict = s.maxDict := rfl
@[simp] theorem State.setEmpty_bitWidth (b : Bool) : (s.setEmpty b).bitWidth = s.bitWidth := rfl
@[simp] theorem State.setEmpty_codeCount (b : Bool) : (s.setEmpty b).codeCount = s.codeCount := rfl
@[simp] theorem State.setEmpty_nextCode (b : Bool) : (s.setEmpty b).nextCode = s.nextCode := rfl
@[simp] theorem State.setEmpty_errInfo (b : Bool) : (s.setEmpty b).errInfo = s.errInfo := rfl
@[simp] theorem State.setEmpty_errValue (b : Bool) : (s.setEmpty b).errValue = s.errValue := rfl
@[simp] theorem State.setEmpty_nodeCount (b : Bool) : (s.setEmpty b).nodeCount = s.nodeCount := rfl
@[simp] theorem State.setEmpty_maxCodeLen (b : Bool) : (s.setEmpty b).maxCodeLen = s.maxCodeLen := rfl
@[simp] theorem State.setEmpty_bufLen (b : Bool) : (s.setEmpty b).bufLen = s.bufLen := rfl
@[simp] theorem State.setEmpty_bufBits (b : Bool) : (s.setEmpty b).bufBits = s.bufBits := rfl
@[simp] theorem State.setEmpty_freq (b : Bool) : (s.setEmpty b).freq = s.freq := rfl
@[simp] theorem State.setEmpty_node (b : Bool) : (s.setEmpty b).node = s.node := rfl
@[simp] theorem State.setEmpty_book (b : Bool) : (s.setEmpty b).book = s.book := rfl
@[simp] theorem State.setEmpty_codes (b : Bool) : (s.setEmpty b).codes = s.codes := rfl
@[simp] theorem State.setEmpty_mem (b : Bool) : (s.setEmpty b).mem = s.mem := rfl
@[simp] theorem State.setEmpty_agent (b : Bool) : (s.setEmpty b).agent = s.agent := rfl

/-! ### State.setFrozen -/

@[simp] theorem State.setFrozen_params (b : Bool) : (s.setFrozen b).params = s.params := rfl
@[simp] theorem State.setFrozen_irqEn (b : Bool) : (s.setFrozen b).irqEn = s.irqEn := rfl
@[simp] theorem State.setFrozen_status (b : Bool) : (s.setFrozen b).status = { s.status with frozen := b } := rfl
@[simp] theorem State.setFrozen_cmd (b : Bool) : (s.setFrozen b).cmd = s.cmd := rfl
@[simp] theorem State.setFrozen_maxDict (b : Bool) : (s.setFrozen b).maxDict = s.maxDict := rfl
@[simp] theorem State.setFrozen_bitWidth (b : Bool) : (s.setFrozen b).bitWidth = s.bitWidth := rfl
@[simp] theorem State.setFrozen_codeCount (b : Bool) : (s.setFrozen b).codeCount = s.codeCount := rfl
@[simp] theorem State.setFrozen_nextCode (b : Bool) : (s.setFrozen b).nextCode = s.nextCode := rfl
@[simp] theorem State.setFrozen_errInfo (b : Bool) : (s.setFrozen b).errInfo = s.errInfo := rfl
@[simp] theorem State.setFrozen_errValue (b : Bool) : (s.setFrozen b).errValue = s.errValue := rfl
@[simp] theorem State.setFrozen_nodeCount (b : Bool) : (s.setFrozen b).nodeCount = s.nodeCount := rfl
@[simp] theorem State.setFrozen_maxCodeLen (b : Bool) : (s.setFrozen b).maxCodeLen = s.maxCodeLen := rfl
@[simp] theorem State.setFrozen_bufLen (b : Bool) : (s.setFrozen b).bufLen = s.bufLen := rfl
@[simp] theorem State.setFrozen_bufBits (b : Bool) : (s.setFrozen b).bufBits = s.bufBits := rfl
@[simp] theorem State.setFrozen_freq (b : Bool) : (s.setFrozen b).freq = s.freq := rfl
@[simp] theorem State.setFrozen_node (b : Bool) : (s.setFrozen b).node = s.node := rfl
@[simp] theorem State.setFrozen_book (b : Bool) : (s.setFrozen b).book = s.book := rfl
@[simp] theorem State.setFrozen_codes (b : Bool) : (s.setFrozen b).codes = s.codes := rfl
@[simp] theorem State.setFrozen_mem (b : Bool) : (s.setFrozen b).mem = s.mem := rfl
@[simp] theorem State.setFrozen_agent (b : Bool) : (s.setFrozen b).agent = s.agent := rfl

/-! ### State.setWerr -/

@[simp] theorem State.setWerr_params : (s.setWerr).params = s.params := rfl
@[simp] theorem State.setWerr_irqEn : (s.setWerr).irqEn = s.irqEn := rfl
@[simp] theorem State.setWerr_status : (s.setWerr).status = { s.status with werr := true } := rfl
@[simp] theorem State.setWerr_cmd : (s.setWerr).cmd = s.cmd := rfl
@[simp] theorem State.setWerr_maxDict : (s.setWerr).maxDict = s.maxDict := rfl
@[simp] theorem State.setWerr_bitWidth : (s.setWerr).bitWidth = s.bitWidth := rfl
@[simp] theorem State.setWerr_codeCount : (s.setWerr).codeCount = s.codeCount := rfl
@[simp] theorem State.setWerr_nextCode : (s.setWerr).nextCode = s.nextCode := rfl
@[simp] theorem State.setWerr_errInfo : (s.setWerr).errInfo = s.errInfo := rfl
@[simp] theorem State.setWerr_errValue : (s.setWerr).errValue = s.errValue := rfl
@[simp] theorem State.setWerr_nodeCount : (s.setWerr).nodeCount = s.nodeCount := rfl
@[simp] theorem State.setWerr_maxCodeLen : (s.setWerr).maxCodeLen = s.maxCodeLen := rfl
@[simp] theorem State.setWerr_bufLen : (s.setWerr).bufLen = s.bufLen := rfl
@[simp] theorem State.setWerr_bufBits : (s.setWerr).bufBits = s.bufBits := rfl
@[simp] theorem State.setWerr_freq : (s.setWerr).freq = s.freq := rfl
@[simp] theorem State.setWerr_node : (s.setWerr).node = s.node := rfl
@[simp] theorem State.setWerr_book : (s.setWerr).book = s.book := rfl
@[simp] theorem State.setWerr_codes : (s.setWerr).codes = s.codes := rfl
@[simp] theorem State.setWerr_mem : (s.setWerr).mem = s.mem := rfl
@[simp] theorem State.setWerr_agent : (s.setWerr).agent = s.agent := rfl

/-! ### State.softReset -/

@[simp] theorem State.softReset_params : (s.softReset).params = s.params := rfl
@[simp] theorem State.softReset_irqEn : (s.softReset).irqEn = false := rfl
@[simp] theorem State.softReset_status : (s.softReset).status = Status.reset := rfl
@[simp] theorem State.softReset_cmd : (s.softReset).cmd = s.cmd := rfl
@[simp] theorem State.softReset_maxDict : (s.softReset).maxDict = 256 := rfl
@[simp] theorem State.softReset_bitWidth : (s.softReset).bitWidth = 8 := rfl
@[simp] theorem State.softReset_codeCount : (s.softReset).codeCount = 0 := rfl
@[simp] theorem State.softReset_nextCode : (s.softReset).nextCode = 256 := rfl
@[simp] theorem State.softReset_errInfo : (s.softReset).errInfo = 0 := rfl
@[simp] theorem State.softReset_errValue : (s.softReset).errValue = 0 := rfl
@[simp] theorem State.softReset_nodeCount : (s.softReset).nodeCount = 0 := rfl
@[simp] theorem State.softReset_maxCodeLen : (s.softReset).maxCodeLen = 0 := rfl
@[simp] theorem State.softReset_bufLen : (s.softReset).bufLen = Vector.replicate 4 0 := rfl
@[simp] theorem State.softReset_bufBits : (s.softReset).bufBits = Vector.replicate 4 0 := rfl
@[simp] theorem State.softReset_freq : (s.softReset).freq = Vector.replicate 256 0 := rfl
@[simp] theorem State.softReset_node : (s.softReset).node = Vector.replicate 511 .absent := rfl
@[simp] theorem State.softReset_book : (s.softReset).book = Vector.replicate 256 [] := rfl
@[simp] theorem State.softReset_codes : (s.softReset).codes = s.codes := rfl
@[simp] theorem State.softReset_mem : (s.softReset).mem = s.mem := rfl
@[simp] theorem State.softReset_agent : (s.softReset).agent = s.agent := rfl

/-! ### State.hardReset -/

@[simp] theorem State.hardReset_params : (s.hardReset).params = s.params := rfl
@[simp] theorem State.hardReset_irqEn : (s.hardReset).irqEn = false := rfl
@[simp] theorem State.hardReset_status : (s.hardReset).status = Status.reset := rfl
@[simp] theorem State.hardReset_cmd : (s.hardReset).cmd = 0 := rfl
@[simp] theorem State.hardReset_maxDict : (s.hardReset).maxDict = 256 := rfl
@[simp] theorem State.hardReset_bitWidth : (s.hardReset).bitWidth = 8 := rfl
@[simp] theorem State.hardReset_codeCount : (s.hardReset).codeCount = 0 := rfl
@[simp] theorem State.hardReset_nextCode : (s.hardReset).nextCode = 256 := rfl
@[simp] theorem State.hardReset_errInfo : (s.hardReset).errInfo = 0 := rfl
@[simp] theorem State.hardReset_errValue : (s.hardReset).errValue = 0 := rfl
@[simp] theorem State.hardReset_nodeCount : (s.hardReset).nodeCount = 0 := rfl
@[simp] theorem State.hardReset_maxCodeLen : (s.hardReset).maxCodeLen = 0 := rfl
@[simp] theorem State.hardReset_bufLen : (s.hardReset).bufLen = Vector.replicate 4 0 := rfl
@[simp] theorem State.hardReset_bufBits : (s.hardReset).bufBits = Vector.replicate 4 0 := rfl
@[simp] theorem State.hardReset_freq : (s.hardReset).freq = Vector.replicate 256 0 := rfl
@[simp] theorem State.hardReset_node : (s.hardReset).node = Vector.replicate 511 .absent := rfl
@[simp] theorem State.hardReset_book : (s.hardReset).book = Vector.replicate 256 [] := rfl
@[simp] theorem State.hardReset_codes : (s.hardReset).codes = [] := rfl
@[simp] theorem State.hardReset_mem : (s.hardReset).mem = [] := rfl
@[simp] theorem State.hardReset_agent : (s.hardReset).agent = s.agent := rfl

/-! ### State.drawn -/

@[simp] theorem State.drawn_params : (s.drawn).params = s.params := rfl
@[simp] theorem State.drawn_irqEn : (s.drawn).irqEn = s.irqEn := rfl
@[simp] theorem State.drawn_status : (s.drawn).status = s.status := rfl
@[simp] theorem State.drawn_cmd : (s.drawn).cmd = s.cmd := rfl
@[simp] theorem State.drawn_maxDict : (s.drawn).maxDict = s.maxDict := rfl
@[simp] theorem State.drawn_bitWidth : (s.drawn).bitWidth = s.bitWidth := rfl
@[simp] theorem State.drawn_codeCount : (s.drawn).codeCount = s.codeCount := rfl
@[simp] theorem State.drawn_nextCode : (s.drawn).nextCode = s.nextCode := rfl
@[simp] theorem State.drawn_errInfo : (s.drawn).errInfo = s.errInfo := rfl
@[simp] theorem State.drawn_errValue : (s.drawn).errValue = s.errValue := rfl
@[simp] theorem State.drawn_nodeCount : (s.drawn).nodeCount = s.nodeCount := rfl
@[simp] theorem State.drawn_maxCodeLen : (s.drawn).maxCodeLen = s.maxCodeLen := rfl
@[simp] theorem State.drawn_bufLen : (s.drawn).bufLen = s.bufLen := rfl
@[simp] theorem State.drawn_bufBits : (s.drawn).bufBits = s.bufBits := rfl
@[simp] theorem State.drawn_freq : (s.drawn).freq = s.freq := rfl
@[simp] theorem State.drawn_node : (s.drawn).node = s.node := rfl
@[simp] theorem State.drawn_book : (s.drawn).book = s.book := rfl
@[simp] theorem State.drawn_codes : (s.drawn).codes = s.codes := rfl
@[simp] theorem State.drawn_mem : (s.drawn).mem = s.mem := rfl
@[simp] theorem State.drawn_agent : (s.drawn).agent = { s.agent with draws := s.agent.draws + 1 } := rfl

/-! ### State.popHost -/

@[simp] theorem State.popHost_params (rest : List HostOp) : (s.popHost rest).params = s.params := rfl
@[simp] theorem State.popHost_irqEn (rest : List HostOp) : (s.popHost rest).irqEn = s.irqEn := rfl
@[simp] theorem State.popHost_status (rest : List HostOp) : (s.popHost rest).status = s.status := rfl
@[simp] theorem State.popHost_cmd (rest : List HostOp) : (s.popHost rest).cmd = s.cmd := rfl
@[simp] theorem State.popHost_maxDict (rest : List HostOp) : (s.popHost rest).maxDict = s.maxDict := rfl
@[simp] theorem State.popHost_bitWidth (rest : List HostOp) : (s.popHost rest).bitWidth = s.bitWidth := rfl
@[simp] theorem State.popHost_codeCount (rest : List HostOp) : (s.popHost rest).codeCount = s.codeCount := rfl
@[simp] theorem State.popHost_nextCode (rest : List HostOp) : (s.popHost rest).nextCode = s.nextCode := rfl
@[simp] theorem State.popHost_errInfo (rest : List HostOp) : (s.popHost rest).errInfo = s.errInfo := rfl
@[simp] theorem State.popHost_errValue (rest : List HostOp) : (s.popHost rest).errValue = s.errValue := rfl
@[simp] theorem State.popHost_nodeCount (rest : List HostOp) : (s.popHost rest).nodeCount = s.nodeCount := rfl
@[simp] theorem State.popHost_maxCodeLen (rest : List HostOp) : (s.popHost rest).maxCodeLen = s.maxCodeLen := rfl
@[simp] theorem State.popHost_bufLen (rest : List HostOp) : (s.popHost rest).bufLen = s.bufLen := rfl
@[simp] theorem State.popHost_bufBits (rest : List HostOp) : (s.popHost rest).bufBits = s.bufBits := rfl
@[simp] theorem State.popHost_freq (rest : List HostOp) : (s.popHost rest).freq = s.freq := rfl
@[simp] theorem State.popHost_node (rest : List HostOp) : (s.popHost rest).node = s.node := rfl
@[simp] theorem State.popHost_book (rest : List HostOp) : (s.popHost rest).book = s.book := rfl
@[simp] theorem State.popHost_codes (rest : List HostOp) : (s.popHost rest).codes = s.codes := rfl
@[simp] theorem State.popHost_mem (rest : List HostOp) : (s.popHost rest).mem = s.mem := rfl
@[simp] theorem State.popHost_agent (rest : List HostOp) : (s.popHost rest).agent = { s.agent with host := rest, delay := s.agent.delay - 1 } := rfl

/-! ### State.again -/

@[simp] theorem State.again_params (op : HostOp) : (s.again op).params = s.params := rfl
@[simp] theorem State.again_irqEn (op : HostOp) : (s.again op).irqEn = s.irqEn := rfl
@[simp] theorem State.again_status (op : HostOp) : (s.again op).status = s.status := rfl
@[simp] theorem State.again_cmd (op : HostOp) : (s.again op).cmd = s.cmd := rfl
@[simp] theorem State.again_maxDict (op : HostOp) : (s.again op).maxDict = s.maxDict := rfl
@[simp] theorem State.again_bitWidth (op : HostOp) : (s.again op).bitWidth = s.bitWidth := rfl
@[simp] theorem State.again_codeCount (op : HostOp) : (s.again op).codeCount = s.codeCount := rfl
@[simp] theorem State.again_nextCode (op : HostOp) : (s.again op).nextCode = s.nextCode := rfl
@[simp] theorem State.again_errInfo (op : HostOp) : (s.again op).errInfo = s.errInfo := rfl
@[simp] theorem State.again_errValue (op : HostOp) : (s.again op).errValue = s.errValue := rfl
@[simp] theorem State.again_nodeCount (op : HostOp) : (s.again op).nodeCount = s.nodeCount := rfl
@[simp] theorem State.again_maxCodeLen (op : HostOp) : (s.again op).maxCodeLen = s.maxCodeLen := rfl
@[simp] theorem State.again_bufLen (op : HostOp) : (s.again op).bufLen = s.bufLen := rfl
@[simp] theorem State.again_bufBits (op : HostOp) : (s.again op).bufBits = s.bufBits := rfl
@[simp] theorem State.again_freq (op : HostOp) : (s.again op).freq = s.freq := rfl
@[simp] theorem State.again_node (op : HostOp) : (s.again op).node = s.node := rfl
@[simp] theorem State.again_book (op : HostOp) : (s.again op).book = s.book := rfl
@[simp] theorem State.again_codes (op : HostOp) : (s.again op).codes = s.codes := rfl
@[simp] theorem State.again_mem (op : HostOp) : (s.again op).mem = s.mem := rfl
@[simp] theorem State.again_agent (op : HostOp) : (s.again op).agent = { s.agent with host := op :: s.agent.host } := rfl

/-! ### State.gotValue -/

@[simp] theorem State.gotValue_params (v : Word) : (s.gotValue v).params = s.params := rfl
@[simp] theorem State.gotValue_irqEn (v : Word) : (s.gotValue v).irqEn = s.irqEn := rfl
@[simp] theorem State.gotValue_status (v : Word) : (s.gotValue v).status = s.status := rfl
@[simp] theorem State.gotValue_cmd (v : Word) : (s.gotValue v).cmd = s.cmd := rfl
@[simp] theorem State.gotValue_maxDict (v : Word) : (s.gotValue v).maxDict = s.maxDict := rfl
@[simp] theorem State.gotValue_bitWidth (v : Word) : (s.gotValue v).bitWidth = s.bitWidth := rfl
@[simp] theorem State.gotValue_codeCount (v : Word) : (s.gotValue v).codeCount = s.codeCount := rfl
@[simp] theorem State.gotValue_nextCode (v : Word) : (s.gotValue v).nextCode = s.nextCode := rfl
@[simp] theorem State.gotValue_errInfo (v : Word) : (s.gotValue v).errInfo = s.errInfo := rfl
@[simp] theorem State.gotValue_errValue (v : Word) : (s.gotValue v).errValue = s.errValue := rfl
@[simp] theorem State.gotValue_nodeCount (v : Word) : (s.gotValue v).nodeCount = s.nodeCount := rfl
@[simp] theorem State.gotValue_maxCodeLen (v : Word) : (s.gotValue v).maxCodeLen = s.maxCodeLen := rfl
@[simp] theorem State.gotValue_bufLen (v : Word) : (s.gotValue v).bufLen = s.bufLen := rfl
@[simp] theorem State.gotValue_bufBits (v : Word) : (s.gotValue v).bufBits = s.bufBits := rfl
@[simp] theorem State.gotValue_freq (v : Word) : (s.gotValue v).freq = s.freq := rfl
@[simp] theorem State.gotValue_node (v : Word) : (s.gotValue v).node = s.node := rfl
@[simp] theorem State.gotValue_book (v : Word) : (s.gotValue v).book = s.book := rfl
@[simp] theorem State.gotValue_codes (v : Word) : (s.gotValue v).codes = s.codes := rfl
@[simp] theorem State.gotValue_mem (v : Word) : (s.gotValue v).mem = s.mem := rfl
@[simp] theorem State.gotValue_agent (v : Word) : (s.gotValue v).agent = { s.agent with reads := v :: s.agent.reads } := rfl

end Sys2Proof.Machine
end

