-- ==== Sys2Proof/Laws/Commands.lean ====
section
/-! SUPPORT. What the shared operations of the commands can do: checks, reads of cells, completion, and one lemma per command
that says when its rule returns a result and which. -/

namespace Sys2Proof.Machine

/-! ### Evaluation -/

/-- A sequence gives a result exactly when each part does. -/
theorem bind_eq_ok {ε α β : Type} {x : Except ε α} {f : α → Except ε β} {b : β} :
    (x >>= f) = .ok b ↔ ∃ a, x = .ok a ∧ f a = .ok b := by
  cases x with
  | error e => exact ⟨nofun, nofun⟩
  | ok a => exact ⟨fun h => ⟨a, rfl, h⟩, fun ⟨_, rfl, h⟩ => h⟩

/-- A sequence stops where its first failing part does. -/
theorem bind_eq_error {ε α β : Type} {x : Except ε α} {f : α → Except ε β} {e : ε} :
    (x >>= f) = .error e ↔ x = .error e ∨ ∃ a, x = .ok a ∧ f a = .error e := by
  cases x with
  | error e' =>
    show Except.error e' = Except.error e ↔ _
    exact ⟨fun h => .inl (by cases h; rfl), fun h => h.elim (fun h => by cases h; rfl) nofun⟩
  | ok a => exact ⟨fun h => .inr ⟨a, rfl, h⟩, fun h => h.elim nofun fun ⟨_, rfl, h⟩ => h⟩

theorem require_eq_ok {p : Prop} [Decidable p] {stop : Stop} {u : Unit} : require p stop = .ok u ↔ p := by
  unfold require; split <;> simp_all

theorem require_eq_error {p : Prop} [Decidable p] {stop e : Stop} : require p stop = .error e ↔ ¬p ∧ e = stop := by
  unfold require; split <;> simp_all [eq_comm]

/-! ### Completion -/

/-- What completion can do: commit a result, record an error and nothing else, or fault on an unwritten cell (rule R82). -/
theorem complete_cases (s : State) (r : Except Stop State) :
    (∃ t, r = .ok t ∧ complete s r = .next t.finish) ∨
    (∃ e info value, r = .error (.raise e info value) ∧
      complete s r = .next (s.recordError e info value).finish) ∨
    (∃ a, r = .error (.unwritten a) ∧ complete s r = .fault (.unwrittenRead a)) := by
  rcases r with (⟨e, i, v⟩ | a) | t
  · exact .inr (.inl ⟨e, i, v, rfl, rfl⟩)
  · exact .inr (.inr ⟨a, rfl, rfl⟩)
  · exact .inl ⟨t, rfl, rfl⟩

theorem complete_eq_next {s t : State} {r : Except Stop State} (h : complete s r = .next t) :
    (∃ u, r = .ok u ∧ t = u.finish) ∨
    ∃ e info value, r = .error (.raise e info value) ∧ t = (s.recordError e info value).finish := by
  rcases complete_cases s r with ⟨u, hu, h'⟩ | ⟨e, i, v, hr, h'⟩ | ⟨a, _, h'⟩
  · rw [h'] at h; cases h; exact .inl ⟨u, hu, rfl⟩
  · rw [h'] at h; cases h; exact .inr ⟨e, i, v, hr, rfl⟩
  · rw [h'] at h; cases h

/-- No command is refused, and the only fault of a command is a read of an unwritten cell (rules R59, R87). -/
theorem complete_total (s : State) (r : Except Stop State) :
    (∃ t, complete s r = .next t) ∨ ∃ a, complete s r = .fault (.unwrittenRead a) := by
  rcases complete_cases s r with ⟨t, _, h⟩ | ⟨e, i, v, _, h⟩ | ⟨a, _, h⟩
  · exact .inl ⟨_, h⟩
  · exact .inl ⟨_, h⟩
  · exact .inr ⟨_, h⟩

/-! ### Reads of cells -/

theorem readByte_eq_ok {s : State} {n : BufId} {i : Nat} {b : Byte} :
    s.readByte n i = .ok b ↔ cellGet s.mem (bufBase n + i) = some b := by
  unfold State.readByte; split <;> simp_all

theorem readByte_eq_error {s : State} {n : BufId} {i : Nat} {e : Stop} :
    s.readByte n i = .error e ↔ cellGet s.mem (bufBase n + i) = none ∧ e = .unwritten (bufBase n + i) := by
  unfold State.readByte
  cases cellGet s.mem (bufBase n + i) <;> simp [eq_comm]

/-- The bytes read are those written, all of them. -/
theorem readBytes_eq_ok {s : State} {n : BufId} {i k : Nat} {data : List Byte} :
    s.readBytes n i k = .ok data ↔
      data.length = k ∧ ∀ j (h : j < data.length), cellGet s.mem (bufBase n + (i + j)) = some data[j] := by
  induction k generalizing i data with
  | zero =>
    simp only [State.readBytes]
    constructor
    · intro h; cases h; exact ⟨rfl, fun j h => absurd h (Nat.not_lt_zero j)⟩
    · rintro ⟨h, _⟩; rw [List.length_eq_zero_iff.1 h]
  | succ k ih =>
    simp only [State.readBytes, bind_eq_ok, readByte_eq_ok, ih]
    constructor
    · rintro ⟨b, hb, bs, ⟨rfl, hbs⟩, h⟩
      cases h
      refine ⟨rfl, ?_⟩
      intro j hj
      cases j with
      | zero => simpa using hb
      | succ j =>
        have := hbs j (by simpa using hj)
        rw [show i + 1 + j = i + (j + 1) by omega] at this
        simpa using this
    · rintro ⟨hl, h⟩
      cases data with
      | nil => simp at hl
      | cons b bs =>
        refine ⟨b, h 0 (by simp), bs, ⟨by simpa using hl, ?_⟩, rfl⟩
        intro j hj
        have := h (j + 1) (by simpa using hj)
        rw [show i + (j + 1) = i + 1 + j by omega] at this
        simpa using this

/-- Reading bytes either succeeds or stops at an unwritten one. -/
theorem readBytes_eq_error {s : State} {n : BufId} {i k : Nat} {e : Stop} (h : s.readBytes n i k = .error e) :
    ∃ j, j < k ∧ e = .unwritten (bufBase n + (i + j)) ∧ cellGet s.mem (bufBase n + (i + j)) = none := by
  induction k generalizing i with
  | zero => cases h
  | succ k ih =>
    simp only [State.readBytes, bind_eq_error, readByte_eq_error, readByte_eq_ok] at h
    rcases h with ⟨h0, rfl⟩ | ⟨b, _, h1 | ⟨bs, _, h2⟩⟩
    · exact ⟨0, by omega, rfl, h0⟩
    · obtain ⟨j, hj, he, hn⟩ := ih h1
      rw [show i + 1 + j = i + (j + 1) by omega] at he hn
      exact ⟨j + 1, by omega, he, hn⟩
    · cases h2

/-- A buffer that holds `data` is read as `data`. -/
theorem bytesOperand_of_holds {s : State} {n : BufId} {data : List Byte} (h : s.holds n data) :
    s.bytesOperand n (s.len n) = .ok data :=
  readBytes_eq_ok.2 ⟨h.1.symm, fun j hj => by simpa using h.2 j hj⟩

/-- A byte command reads a buffer exactly when the buffer holds the bytes read. -/
theorem bytesOperand_eq_ok {s : State} {n : BufId} {data : List Byte} :
    s.bytesOperand n (s.len n) = .ok data ↔ s.holds n data := by
  refine ⟨fun h => ?_, bytesOperand_of_holds⟩
  obtain ⟨hl, hd⟩ := readBytes_eq_ok.1 h
  exact ⟨hl.symm, fun i hi => by simpa using hd i hi⟩

/-- The bits a bit command reads are those the buffer holds, bit for bit (rules R60, R145). -/
theorem streamBits_eq_ok {s : State} {n : BufId} {k : Nat} {bits : List Bool} :
    s.streamBits n k = .ok bits ↔ bits.length = k ∧ s.holdsBits n bits := by
  simp only [State.streamBits, bind_eq_ok, readBytes_eq_ok]
  constructor
  · rintro ⟨bytes, ⟨hl, hb⟩, h⟩
    cases h
    have hle : k ≤ (bitsOfBytes bytes).length := by
      rw [bitsOfBytes_length, hl]; unfold bytesFor; omega
    refine ⟨by rw [List.length_take]; omega, ?_⟩
    intro j hj
    rw [List.length_take] at hj
    have hj8 : j / 8 < bytes.length := by rw [hl]; unfold bytesFor; omega
    refine ⟨bytes[j / 8], by simpa using hb _ hj8, ?_⟩
    rw [List.getElem_take, getElem_bitsOfBytes _ hj8]
  · rintro ⟨rfl, h⟩
    have hbyte : ∀ j : Fin (bytesFor bits.length), ∃ b, cellGet s.mem (bufBase n + j) = some b := by
      intro j
      have hj := j.isLt
      obtain ⟨b, hb, _⟩ := h (8 * j) (by unfold bytesFor at hj; omega)
      exact ⟨b, by rwa [show 8 * (j : Nat) / 8 = j by omega] at hb⟩
    choose f hf using hbyte
    have hlen : (List.ofFn f).length = bytesFor bits.length := by simp
    have hle : bits.length ≤ (bitsOfBytes (List.ofFn f)).length := by
      rw [bitsOfBytes_length, hlen]; unfold bytesFor; omega
    refine ⟨List.ofFn f, ⟨hlen, ?_⟩, ?_⟩
    · intro j hj
      rw [hlen] at hj
      simpa using hf ⟨j, hj⟩
    · congr 1
      apply List.ext_getElem (by rw [List.length_take]; omega)
      intro j h1 h2
      have hj8 : j / 8 < bytesFor bits.length := by unfold bytesFor; omega
      obtain ⟨b, hb, hbit⟩ := h j h2
      have : f ⟨j / 8, hj8⟩ = b := by have := hf ⟨j / 8, hj8⟩; simp only [hb] at this; exact (Option.some.inj this).symm
      rw [List.getElem_take, getElem_bitsOfBytes _ (by simpa using hj8), List.getElem_ofFn, this, hbit]

/-- A command that reads all `BUFn_BITS` bits reads the stream the buffer holds (rule R44). -/
theorem streamBits_bits_eq_ok {s : State} {n : BufId} {stream : List Bool} :
    s.streamBits n (s.bits n) = .ok stream ↔ s.holdsStream n stream := by
  rw [streamBits_eq_ok, State.holdsStream, eq_comm]

/-- Reading bits either succeeds or stops at an unwritten byte among those that hold them. -/
theorem streamBits_eq_error {s : State} {n : BufId} {k : Nat} {e : Stop} (h : s.streamBits n k = .error e) :
    ∃ j, j < bytesFor k ∧ e = .unwritten (bufBase n + j) ∧ cellGet s.mem (bufBase n + j) = none := by
  rw [State.streamBits, bind_eq_error] at h
  rcases h with h | ⟨_, _, h⟩
  · obtain ⟨j, hj, he, hn⟩ := readBytes_eq_error h
    rw [Nat.zero_add] at he hn
    exact ⟨j, hj, he, hn⟩
  · cases h

theorem readCode_eq_ok {s : State} {i : Nat} {c : Word} : s.readCode i = .ok c ↔ cellGet s.codes i = some c := by
  unfold State.readCode; split <;> simp_all

/-- The codes `CODE_PACK` reads: written, and each fits the width (rule R144). -/
theorem codesOperand_eq_ok {s : State} {w i k : Nat} {codes : List Nat} :
    s.codesOperand w i k = .ok codes ↔
      codes.length = k ∧ ∀ j (h : j < codes.length),
        codes[j] < 2 ^ w ∧ ∃ c, cellGet s.codes (i + j) = some c ∧ c.toNat = codes[j] := by
  induction k generalizing i codes with
  | zero =>
    simp only [State.codesOperand]
    constructor
    · intro h; cases h; exact ⟨rfl, fun j h => absurd h (Nat.not_lt_zero j)⟩
    · rintro ⟨h, _⟩; rw [List.length_eq_zero_iff.1 h]
  | succ k ih =>
    simp only [State.codesOperand, bind_eq_ok, readCode_eq_ok, require_eq_ok, ih]
    constructor
    · rintro ⟨c, hc, _, hw, cs, ⟨rfl, hcs⟩, h⟩
      cases h
      refine ⟨rfl, ?_⟩
      intro j hj
      cases j with
      | zero => exact ⟨hw, c, by simpa using hc, rfl⟩
      | succ j =>
        have := hcs j (by simpa using hj)
        rw [show i + 1 + j = i + (j + 1) by omega] at this
        simpa using this
    · rintro ⟨hl, h⟩
      cases codes with
      | nil => simp at hl
      | cons c cs =>
        obtain ⟨hw, v, hv, rfl⟩ := h 0 (by simp)
        refine ⟨v, by simpa using hv, (), by simpa using hw, cs, ⟨by simpa using hl, ?_⟩, rfl⟩
        intro j hj
        have := h (j + 1) (by simpa using hj)
        rw [show i + (j + 1) = i + 1 + j by omega] at this
        simpa using this

/-! ### What each command's rule can return -/

theorem lenOperand_eq_ok {s : State} {n : BufId} {l : Nat} :
    s.lenOperand n = .ok l ↔ s.len n ≤ s.params.bufCap ∧ l = s.len n := by
  simp only [State.lenOperand, bind_eq_ok, require_eq_ok]
  exact ⟨fun ⟨_, h, e⟩ => ⟨h, by cases e; rfl⟩, fun ⟨h, e⟩ => ⟨(), h, by rw [e]⟩⟩

theorem bitsOperand_eq_ok {s : State} {n : BufId} {len l : Nat} :
    s.bitsOperand n len = .ok l ↔ s.bits n ≤ 8 * len ∧ l = s.bits n := by
  simp only [State.bitsOperand, bind_eq_ok, require_eq_ok]
  exact ⟨fun ⟨_, h, e⟩ => ⟨h, by cases e; rfl⟩, fun ⟨h, e⟩ => ⟨(), h, by rw [e]⟩⟩

theorem maxDictOperand_eq_ok {s : State} {m : Nat} :
    s.maxDictOperand = .ok m ↔ (256 ≤ s.maxDict.toNat ∧ s.maxDict.toNat ≤ s.params.dictCap) ∧ m = s.maxDict.toNat := by
  simp only [State.maxDictOperand, bind_eq_ok, require_eq_ok]
  exact ⟨fun ⟨_, h, e⟩ => ⟨h, by cases e; rfl⟩, fun ⟨h, e⟩ => ⟨(), h, by rw [e]⟩⟩

theorem widthOperand_eq_ok {s : State} {w : Nat} :
    s.widthOperand = .ok w ↔ (8 ≤ s.bitWidth.toNat ∧ s.bitWidth.toNat ≤ wMax s.params) ∧ w = s.bitWidth.toNat := by
  simp only [State.widthOperand, bind_eq_ok, require_eq_ok]
  exact ⟨fun ⟨_, h, e⟩ => ⟨h, by cases e; rfl⟩, fun ⟨h, e⟩ => ⟨(), h, by rw [e]⟩⟩

theorem codeCountOperand_eq_ok {s : State} {n : Nat} :
    s.codeCountOperand = .ok n ↔ s.codeCount.toNat ≤ s.params.codeCap ∧ n = s.codeCount.toNat := by
  simp only [State.codeCountOperand, bind_eq_ok, require_eq_ok]
  exact ⟨fun ⟨_, h, e⟩ => ⟨h, by cases e; rfl⟩, fun ⟨h, e⟩ => ⟨(), h, by rw [e]⟩⟩

/-! The same checks failing: each names its register's host address and value (rule R225). -/

theorem lenOperand_error {s : State} {n : BufId} (h : s.params.bufCap < s.len n) :
    s.lenOperand n = .error (.raise .configError (lenAddr n) (s.len n)) := by
  rw [State.lenOperand, bind_eq_error, require_eq_error]; exact .inl ⟨by omega, rfl⟩

theorem bitsOperand_error {s : State} {n : BufId} {len : Nat} (h : 8 * len < s.bits n) :
    s.bitsOperand n len = .error (.raise .configError (bitsAddr n) (s.bits n)) := by
  rw [State.bitsOperand, bind_eq_error, require_eq_error]; exact .inl ⟨by omega, rfl⟩

theorem maxDictOperand_error {s : State} (h : s.maxDict.toNat < 256 ∨ s.params.dictCap < s.maxDict.toNat) :
    s.maxDictOperand = .error (.raise .configError 0x10 s.maxDict.toNat) := by
  rw [State.maxDictOperand, bind_eq_error, require_eq_error]; exact .inl ⟨by omega, rfl⟩

theorem widthOperand_error {s : State} (h : s.bitWidth.toNat < 8 ∨ wMax s.params < s.bitWidth.toNat) :
    s.widthOperand = .error (.raise .configError 0x14 s.bitWidth.toNat) := by
  rw [State.widthOperand, bind_eq_error, require_eq_error]; exact .inl ⟨by omega, rfl⟩

theorem codeCountOperand_error {s : State} (h : s.params.codeCap < s.codeCount.toNat) :
    s.codeCountOperand = .error (.raise .configError 0x18 s.codeCount.toNat) := by
  rw [State.codeCountOperand, bind_eq_error, require_eq_error]; exact .inl ⟨by omega, rfl⟩

theorem needTree_error {s : State} (h : s.status.treeValid = false) :
    s.needTree = .error (.raise .treeError noIndex treeValidBit) := by
  rw [State.needTree, require_eq_error]; exact ⟨by simp [h], rfl⟩

theorem needBook_error {s : State} (h : s.status.bookValid = false) :
    s.needBook = .error (.raise .treeError noIndex bookValidBit) := by
  rw [State.needBook, require_eq_error]; exact ⟨by simp [h], rfl⟩

theorem needTree_eq_ok {s : State} {u : Unit} : s.needTree = .ok u ↔ s.status.treeValid = true := require_eq_ok

theorem needBook_eq_ok {s : State} {u : Unit} : s.needBook = .ok u ↔ s.status.bookValid = true := require_eq_ok

/-- When `LZW_ENC` has a result, and which (rule R110). -/
theorem lzwEncRule_eq_ok {s t : State} {src dst : BufId} :
    lzwEncRule src dst s = .ok t ↔
      s.len src ≤ s.params.bufCap ∧ (256 ≤ s.maxDict.toNat ∧ s.maxDict.toNat ≤ s.params.dictCap) ∧
      ∃ data, s.holds src data ∧
        let e := lzwEncode data s.maxDict.toNat
        let w := clog2 e.nextCode
        bytesFor (e.codes.length * w) ≤ s.params.bufCap ∧
        t = (((((s.writeCodes e.codes).setNextCode e.nextCode).setBitWidth w).writeOutput dst (packCodes e.codes w)
          (e.codes.length * w)).setEmpty (s.len src == 0)).setFrozen e.frozen := by
  simp only [lzwEncRule, bind_eq_ok, lenOperand_eq_ok, maxDictOperand_eq_ok, require_eq_ok, packCodes, packBits_length,
    length_codeBits]
  constructor
  · rintro ⟨_, ⟨h1, rfl⟩, _, ⟨h2, rfl⟩, data, hd, _, hc, h⟩
    cases h
    exact ⟨h1, h2, data, bytesOperand_eq_ok.1 hd, hc, rfl⟩
  · rintro ⟨h1, h2, data, hd, hc, rfl⟩
    exact ⟨_, ⟨h1, rfl⟩, _, ⟨h2, rfl⟩, data, bytesOperand_eq_ok.2 hd, (), hc, rfl⟩

/-- When `LZW_DEC` has a result, and which (rule R121). -/
theorem lzwDecRule_eq_ok {s t : State} {src dst : BufId} :
    lzwDecRule src dst s = .ok t ↔
      s.len src ≤ s.params.bufCap ∧ s.bits src ≤ 8 * s.len src ∧
      (256 ≤ s.maxDict.toNat ∧ s.maxDict.toNat ≤ s.params.dictCap) ∧
      (8 ≤ s.bitWidth.toNat ∧ s.bitWidth.toNat ≤ wMax s.params) ∧
      ∃ stream d, stream.length = s.bits src / s.bitWidth.toNat * s.bitWidth.toNat ∧ s.holdsBits src stream ∧
        lzwDecode s.maxDict.toNat s.params.bufCap (unpackCodes stream s.bitWidth.toNat) = .ok d ∧
        t = ((((s.writeCodes (unpackCodes stream s.bitWidth.toNat)).setNextCode d.nextCode).writeOutput dst d.out
          (8 * d.out.length)).setEmpty ((unpackCodes stream s.bitWidth.toNat).length == 0)).setFrozen d.frozen := by
  simp only [lzwDecRule, bind_eq_ok, lenOperand_eq_ok, bitsOperand_eq_ok, maxDictOperand_eq_ok, widthOperand_eq_ok]
  constructor
  · rintro ⟨_, ⟨h1, rfl⟩, _, ⟨h2, rfl⟩, _, ⟨h3, rfl⟩, _, ⟨h4, rfl⟩, stream, hs, d, hd, h⟩
    cases h
    exact ⟨h1, h2, h3, h4, stream, d, (streamBits_eq_ok.1 hs).1, (streamBits_eq_ok.1 hs).2, hd, rfl⟩
  · rintro ⟨h1, h2, h3, h4, stream, d, hl, hs, hd, rfl⟩
    exact ⟨_, ⟨h1, rfl⟩, _, ⟨h2, rfl⟩, _, ⟨h3, rfl⟩, _, ⟨h4, rfl⟩, stream, streamBits_eq_ok.2 ⟨hl, hs⟩, d, hd, rfl⟩

/-- When `CODE_PACK` has a result, and which (rule R144). -/
theorem codePackRule_eq_ok {s t : State} {dst : BufId} :
    codePackRule dst s = .ok t ↔
      (8 ≤ s.bitWidth.toNat ∧ s.bitWidth.toNat ≤ wMax s.params) ∧ s.codeCount.toNat ≤ s.params.codeCap ∧
      ∃ codes, s.holdsCodes codes ∧ (∀ c ∈ codes, c < 2 ^ s.bitWidth.toNat) ∧
        bytesFor (codes.length * s.bitWidth.toNat) ≤ s.params.bufCap ∧
        t = (s.writeOutput dst (packCodes codes s.bitWidth.toNat) (s.codeCount.toNat * s.bitWidth.toNat)).setEmpty
          (s.codeCount.toNat == 0) := by
  simp only [codePackRule, bind_eq_ok, widthOperand_eq_ok, codeCountOperand_eq_ok, codesOperand_eq_ok, require_eq_ok,
    packCodes, packBits_length, length_codeBits]
  constructor
  · rintro ⟨_, ⟨h1, rfl⟩, _, ⟨h2, rfl⟩, codes, ⟨hl, hc⟩, _, h3, h⟩
    cases h
    refine ⟨h1, h2, codes, ⟨hl.symm, fun i hi => ?_⟩, fun c hc' => ?_, h3, rfl⟩
    · simpa using (hc i hi).2
    · obtain ⟨i, hi, rfl⟩ := List.getElem_of_mem hc'
      exact (hc i hi).1
  · rintro ⟨h1, h2, codes, ⟨hl, hc⟩, hw, h3, rfl⟩
    exact ⟨_, ⟨h1, rfl⟩, _, ⟨h2, rfl⟩, codes,
      ⟨hl.symm, fun j hj => ⟨hw _ (List.getElem_mem hj), by simpa using hc j hj⟩⟩, (), h3, rfl⟩

/-- When `CODE_UNPACK` has a result, and which (rule R147). -/
theorem codeUnpackRule_eq_ok {s t : State} {src : BufId} :
    codeUnpackRule src s = .ok t ↔
      s.len src ≤ s.params.bufCap ∧ s.bits src ≤ 8 * s.len src ∧
      (8 ≤ s.bitWidth.toNat ∧ s.bitWidth.toNat ≤ wMax s.params) ∧
      ∃ stream, s.holdsStream src stream ∧
        t = (s.writeCodes (unpackCodes stream s.bitWidth.toNat)).setEmpty
          ((unpackCodes stream s.bitWidth.toNat).length == 0) := by
  simp only [codeUnpackRule, bind_eq_ok, lenOperand_eq_ok, bitsOperand_eq_ok, widthOperand_eq_ok]
  constructor
  · rintro ⟨_, ⟨h1, rfl⟩, _, ⟨h2, rfl⟩, _, ⟨h4, rfl⟩, stream, hs, h⟩
    cases h
    exact ⟨h1, h2, h4, stream, streamBits_bits_eq_ok.1 hs, rfl⟩
  · rintro ⟨h1, h2, h4, stream, hs, rfl⟩
    exact ⟨_, ⟨h1, rfl⟩, _, ⟨h2, rfl⟩, _, ⟨h4, rfl⟩, stream, streamBits_bits_eq_ok.2 hs, rfl⟩

/-- When `HUF_FREQ` has a result, and which (rule R160). -/
theorem hufFreqRule_eq_ok {s t : State} {src : BufId} :
    hufFreqRule src s = .ok t ↔
      s.len src ≤ s.params.bufCap ∧
      ∃ data, s.holds src data ∧ t = (s.setFreq (countBytes data)).setEmpty (s.len src == 0) := by
  simp only [hufFreqRule, bind_eq_ok, lenOperand_eq_ok]
  constructor
  · rintro ⟨_, ⟨h1, rfl⟩, data, hd, h⟩
    cases h
    exact ⟨h1, data, bytesOperand_eq_ok.1 hd, rfl⟩
  · rintro ⟨h1, data, hd, rfl⟩
    exact ⟨_, ⟨h1, rfl⟩, data, bytesOperand_eq_ok.2 hd, rfl⟩

/-- When `HUF_BOOK` has a result, and which (rule R169). -/
theorem hufBookRule_eq_ok {s t : State} :
    hufBookRule s = .ok t ↔
      s.status.treeValid = true ∧
        t = s.setBook (codebook s.node s.nodeCount.toNat) (longestCode (codebook s.node s.nodeCount.toNat)) := by
  simp only [hufBookRule, bind_eq_ok, needTree_eq_ok]
  exact ⟨fun ⟨_, h, e⟩ => ⟨h, by cases e; rfl⟩, fun ⟨h, e⟩ => ⟨(), h, by rw [e]⟩⟩

/-- The stream `HUF_ENC` writes: the codes of the bytes, each of which has one, within the capacity (rules R174 to R177). -/
theorem encodeFrom_eq_ok {s : State} {src : BufId} {i len k : Nat} {stream : List Bool} :
    s.encodeFrom src i len k = .ok stream ↔
      ∃ data : List Byte, data.length = k ∧
        (∀ j (h : j < data.length), cellGet s.mem (bufBase src + (i + j)) = some data[j]) ∧
        (∀ v ∈ data, s.bookCode v ≠ []) ∧ (k ≠ 0 → len + stream.length ≤ 8 * s.params.bufCap) ∧
        stream = data.flatMap s.bookCode := by
  induction k generalizing i len stream with
  | zero =>
    simp only [State.encodeFrom]
    constructor
    · intro h; cases h; exact ⟨[], rfl, fun j h => absurd h (Nat.not_lt_zero j), nofun, by simp, rfl⟩
    · rintro ⟨data, h, _, _, _, rfl⟩; rw [List.length_eq_zero_iff.1 h]; rfl
  | succ k ih =>
    simp only [State.encodeFrom, bind_eq_ok, readByte_eq_ok, require_eq_ok, ih]
    constructor
    · rintro ⟨b, hb, _, hc, _, hcap, rest, ⟨data, rfl, hd, hv, hl, rfl⟩, h⟩
      cases h
      refine ⟨b :: data, rfl, ?_, ?_, ?_, by simp⟩
      · intro j hj
        cases j with
        | zero => simpa using hb
        | succ j =>
          have := hd j (by simpa using hj)
          rw [show i + 1 + j = i + (j + 1) by omega] at this
          simpa using this
      · intro v hv'
        rcases List.mem_cons.1 hv' with rfl | h
        · intro h0; exact hc (by rw [h0]; rfl)
        · exact hv v h
      · intro _
        rw [List.length_append]
        by_cases h0 : data.length = 0
        · rw [List.length_eq_zero_iff.1 h0]; simpa using hcap
        · have := hl h0; omega
    · rintro ⟨data, hl, hd, hv, hcap, rfl⟩
      cases data with
      | nil => simp at hl
      | cons b data =>
        have hcap := hcap (by omega)
        simp only [List.flatMap_cons, List.length_append] at hcap
        refine ⟨b, hd 0 (by simp), (), ?_, (), by omega, data.flatMap s.bookCode,
          ⟨data, by simpa using hl, ?_, fun v h => hv v (by simp [h]), fun _ => by omega, rfl⟩, rfl⟩
        · intro h0; exact hv b (by simp) (List.length_eq_zero_iff.1 h0)
        · intro j hj
          have := hd (j + 1) (by simpa using hj)
          rw [show i + (j + 1) = i + 1 + j by omega] at this
          simpa using this

/-- When `HUF_ENC` has a result, and which (rule R174). -/
theorem hufEncRule_eq_ok {s t : State} {src dst : BufId} :
    hufEncRule src dst s = .ok t ↔
      s.len src ≤ s.params.bufCap ∧ s.status.bookValid = true ∧
      ∃ data, s.holds src data ∧ (∀ v ∈ data, s.bookCode v ≠ []) ∧
        (data.flatMap s.bookCode).length ≤ 8 * s.params.bufCap ∧
        t = (s.writeOutput dst (packBits (data.flatMap s.bookCode) false) (data.flatMap s.bookCode).length).setEmpty
          (s.len src == 0) := by
  simp only [hufEncRule, bind_eq_ok, lenOperand_eq_ok, needBook_eq_ok, encodeFrom_eq_ok]
  constructor
  · rintro ⟨_, ⟨h1, rfl⟩, _, h2, stream, ⟨data, hl, hd, hv, hc, rfl⟩, h⟩
    cases h
    refine ⟨h1, h2, data, ⟨hl.symm, fun i hi => by simpa using hd i hi⟩, hv, ?_, rfl⟩
    by_cases h0 : s.len src = 0
    · rw [List.length_eq_zero_iff.1 (hl.trans h0)]; simp
    · simpa using hc h0
  · rintro ⟨h1, h2, data, ⟨hl, hd⟩, hv, hc, rfl⟩
    exact ⟨_, ⟨h1, rfl⟩, (), h2, _, ⟨data, hl.symm, fun i hi => by simpa using hd i hi, hv, fun _ => by simpa using hc, rfl⟩, rfl⟩

/-- When `HUF_DEC` has a result, and which (rule R178). -/
theorem hufDecRule_eq_ok {s t : State} {src dst : BufId} :
    hufDecRule src dst s = .ok t ↔
      s.len src ≤ s.params.bufCap ∧ s.bits src ≤ 8 * s.len src ∧ s.status.treeValid = true ∧
      ∃ stream out, s.holdsStream src stream ∧
        hufDecode s.node s.nodeCount.toNat s.params.bufCap stream = .ok out ∧
        t = (s.writeOutput dst out (8 * out.length)).setEmpty (s.bits src == 0) := by
  simp only [hufDecRule, bind_eq_ok, lenOperand_eq_ok, bitsOperand_eq_ok, needTree_eq_ok]
  constructor
  · rintro ⟨_, ⟨h1, rfl⟩, _, ⟨h2, rfl⟩, _, h3, stream, hs, out, ho, h⟩
    cases h
    exact ⟨h1, h2, h3, stream, out, streamBits_bits_eq_ok.1 hs, ho, rfl⟩
  · rintro ⟨h1, h2, h3, stream, out, hs, ho, rfl⟩
    exact ⟨_, ⟨h1, rfl⟩, _, ⟨h2, rfl⟩, (), h3, stream, streamBits_bits_eq_ok.2 hs, out, ho, rfl⟩

end Sys2Proof.Machine
end

