-- ==== Sys2Proof/Laws/Machine.lean ====
section
/-! SUPPORT. Said once: how a command's execution can end, what a step of the machine is, what a host access can do, and that
every operation on the memories keeps their canonical form. -/

namespace Sys2Proof.Machine

/-! ### Execution -/

/-- The rule that each command evaluates (rules R16, R82). -/
def ruleOf : Instr → State → Except Stop State
  | .nop, s => .ok s
  | .lzwEnc src dst, s => lzwEncRule src dst s
  | .lzwDec src dst, s => lzwDecRule src dst s
  | .codePack dst, s => codePackRule dst s
  | .codeUnpack src, s => codeUnpackRule src s
  | .hufFreq src, s => hufFreqRule src s
  | .hufBuild, s => hufBuildRule s
  | .hufBook, s => hufBookRule s
  | .hufEnc src dst, s => hufEncRule src dst s
  | .hufDec src dst, s => hufDecRule src dst s
  | .bufCmp src dst, s => bufCmpRule src dst s
  | .reset, s => .ok s.softReset

/-- Every command is the completion of its rule. -/
theorem exec_eq_complete (i : Instr) (s : State) : exec i s = complete s (ruleOf i s) := by
  cases i <;> rfl

/-- A next state of a command is its committed result or its recorded error (rule R82). -/
theorem exec_eq_next {i : Instr} {s t : State} (h : exec i s = .next t) :
    (∃ u, ruleOf i s = .ok u ∧ t = u.finish) ∨
    ∃ e info value, ruleOf i s = .error (.raise e info value) ∧ t = (s.recordError e info value).finish :=
  complete_eq_next (exec_eq_complete i s ▸ h)

/-- A rule that gives a result completes the command with it. -/
theorem exec_of_ok {i : Instr} {s u : State} (h : ruleOf i s = .ok u) : exec i s = .next u.finish := by
  rw [exec_eq_complete, h]; rfl

/-- A rule that raises completes the command with the error's record. -/
theorem exec_of_raise {i : Instr} {s : State} {e : ErrCode} {info value : Nat}
    (h : ruleOf i s = .error (.raise e info value)) : exec i s = .next (s.recordError e info value).finish := by
  rw [exec_eq_complete, h]; rfl

/-- What `failedAs` says is what a raised error records. -/
theorem failedAs_iff {s t : State} {e : ErrCode} {info value : Nat} :
    s.failedAs t e info value ↔ t = (s.recordError e info value).finish := Iff.rfl

/-! ### Steps -/

theorem decode?_eq_some {c : Word} {i : Instr} : decode? c = some i ↔ decode c = .ok i := by
  unfold decode?; split <;> simp_all

/-- A step while the engine's turn is the execute step (rule R80). -/
theorem step_of_engineTurn {s : State} (h : s.engineTurn = true) : step s = engineStep s := by simp [step, h]

/-- Any other step is the host's (rule R70). -/
theorem step_of_hostTurn {s : State} (h : s.engineTurn = false) : step s = hostStep s := by simp [step, h]

/-- A next state of the engine: a command's, or the record of an illegal word (rules R82, R94). -/
theorem engineStep_eq_next {s t : State} (h : engineStep s = .next t) :
    (∃ i, decode s.cmd = .ok i ∧ exec i s = .next t) ∨
    ((∀ i, decode s.cmd ≠ .ok i) ∧ t = (s.recordError .illegalCommand 0 s.cmd.toNat).finish) := by
  unfold engineStep at h
  split at h
  · rename_i i hi; exact .inl ⟨i, decode?_eq_some.1 hi, h⟩
  · rename_i hn
    refine .inr ⟨fun i hi => ?_, ?_⟩
    · rw [decode?_eq_some.2 hi] at hn; cases hn
    · unfold illegalCommand complete at h; cases h; rfl

/-- A next state of the host: unchanged, or its next operation's. -/
theorem hostStep_eq_next {s t : State} (h : hostStep s = .next t) :
    (s.agent.host = [] ∧ t = s) ∨
    ∃ op rest, s.agent.host = op :: rest ∧ hostOp (s.popHost rest) op = .ok t := by
  unfold hostStep at h
  split at h
  · rename_i hn; cases h; exact .inl ⟨hn, rfl⟩
  · rename_i op rest hc
    split at h
    · rename_i u hu; cases h; exact .inr ⟨op, rest, hc, hu⟩
    · cases h

/-- In the host's turn, with an operation to do, a step is that operation and ends as it does. -/
theorem step_of_hostOp {s : State} {op : HostOp} {rest : List HostOp} (ht : s.engineTurn = false)
    (hh : s.agent.host = op :: rest) :
    (∀ t, hostOp (s.popHost rest) op = .ok t → step s = .next t) ∧
      ∀ e, hostOp (s.popHost rest) op = .error e → step s = .fault e := by
  rw [step_of_hostTurn ht, hostStep]
  constructor <;> intro _ h <;> simp only [hh, h]

/-- A run of one step or more, when the first answers a next state, for any machine. -/
theorem run_next (M : Host.Core) {k : Nat} {s t : M.State} (h : M.step s = .next t) : M.run (k + 1) s = M.run k t := by
  rw [Host.Core.run, h]

/-- A run of one step is the step, for any machine. -/
theorem run_step (M : Host.Core) (s : M.State) : M.run 1 s = M.step s := by
  rw [Host.Core.run]
  cases M.step s <;> rfl

/-- A run of the core, when its first step answers a next state. -/
theorem core_run_next {k : Nat} {s t : State} (h : step s = .next t) : core.run (k + 1) s = core.run k t :=
  run_next core h

/-- A run of one step of the core. -/
theorem core_run_one (s : State) : core.run 1 s = step s := run_step core s

/-! ### Host accesses -/

/-- A host read returns a value and changes at most the count of drawn values (rule R65). -/
theorem hostRead_eq_ok {s t : State} {size : Size} {addr v : Word} (h : hostRead s size addr = .ok (v, t)) :
    ∃ l, locate s.params size addr = some l ∧
      ((s.status.busy = true ∧ l.readableBusy = false ∧ t = s.drawn) ∨ (s.readIdle size l = .ok v ∧ t = s)) := by
  unfold hostRead at h
  split at h
  · cases h
  · rename_i l hl
    refine ⟨l, hl, ?_⟩
    split at h
    · rename_i hb; cases h
      simp only [Bool.and_eq_true, Bool.not_eq_true'] at hb
      exact .inl ⟨hb.1, hb.2, rfl⟩
    · split at h
      · rename_i w hw; cases h; exact .inr ⟨hw, rfl⟩
      · cases h

/-- A word-aligned 32-bit access below `0x100` is to the register there (rules R63, R64, R66). -/
theorem locate_register (p : Params) {a : Nat} (h4 : a % 4 = 0) (ha : a < 0x100) :
    locate p .s32 (BitVec.ofNat 32 a) = some (.register (Reg.at a)) := by
  have hn : (BitVec.ofNat 32 a).toNat = a := by rw [BitVec.toNat_ofNat]; omega
  simp [locate, hn, Size.bytes, h4, ha, wordOnly]

/-- While idle a register reads its value (rule R71). -/
theorem hostRead_register {s : State} {a : Nat} (hb : s.status.busy = false) (h4 : a % 4 = 0) (ha : a < 0x100) :
    hostRead s .s32 (BitVec.ofNat 32 a) = .ok (s.readReg (Reg.at a), s) := by
  unfold hostRead; rw [locate_register _ h4 ha]; simp [hb, State.readIdle]

/-- While idle a register takes a host write (rule R71). -/
theorem hostWrite_register {s : State} {a : Nat} {v : Word} (hb : s.status.busy = false) (h4 : a % 4 = 0)
    (ha : a < 0x100) : hostWrite s .s32 (BitVec.ofNat 32 a) v = .ok (s.writeReg v (Reg.at a)) := by
  unfold hostWrite; rw [locate_register _ h4 ha]; simp [hb, State.writeIdle]

/-- A host write is the idle or the busy write of a mapped location (rules R71, R85). -/
theorem hostWrite_eq_ok {s t : State} {size : Size} {addr v : Word} (h : hostWrite s size addr v = .ok t) :
    ∃ l, locate s.params size addr = some l ∧
      t = if s.status.busy then s.writeBusy v l else s.writeIdle size v l := by
  unfold hostWrite at h
  split at h
  · cases h
  · rename_i l hl; cases h; exact ⟨l, hl, rfl⟩

/-- A write while busy to anything but `CTRL` and `STATUS` sets `WERR` and does nothing else (D28, rule R33). -/
theorem writeBusy_eq_setWerr {s : State} {v : Word} {l : Location} (hc : l ≠ .register .ctrl)
    (hs : l ≠ .register .status) : s.writeBusy v l = s.setWerr := by
  unfold State.writeBusy
  split <;> first | rfl | exact absurd rfl hc | exact absurd rfl hs

/-- A write while busy touches neither memory (rule R85). -/
theorem writeBusy_memories (s : State) (v : Word) (l : Location) :
    (s.writeBusy v l).mem = s.mem ∧ (s.writeBusy v l).codes = s.codes := by
  unfold State.writeBusy
  split <;> exact ⟨rfl, rfl⟩

/-! ### Canonical form -/

theorem writeOutput_wf {s : State} (n : BufId) (bytes : List Byte) (nbits : Nat) (h : Memory.wf s.mem) :
    Memory.wf (s.writeOutput n bytes nbits).mem := cellPutRun_wf _ _ h

theorem writeCodes_wf {s : State} (codes : List Nat) (h : cellsWf s.codes) : cellsWf (s.writeCodes codes).codes :=
  cellPutRun_wf _ _ h

theorem writeIdle_mem_wf {s : State} (size : Size) (v : Word) (l : Location) (h : Memory.wf s.mem) :
    Memory.wf (s.writeIdle size v l).mem := by
  cases l with
  | register r => cases r <;> exact h
  | buffer a => exact cellPutRun_wf _ _ h
  | _ => exact h

theorem writeIdle_codes_wf {s : State} (size : Size) (v : Word) (l : Location) (h : cellsWf s.codes) :
    cellsWf (s.writeIdle size v l).codes := by
  cases l with
  | register r => cases r <;> exact h
  | code i => exact cellPut_wf _ _ h
  | _ => exact h

/-- A host write keeps the form of both memories. -/
theorem hostWrite_wf {s t : State} {size : Size} {addr v : Word} (h : hostWrite s size addr v = .ok t)
    (hm : Memory.wf s.mem) (hc : cellsWf s.codes) : Memory.wf t.mem ∧ cellsWf t.codes := by
  obtain ⟨l, _, rfl⟩ := hostWrite_eq_ok h
  split
  · rw [(writeBusy_memories s v l).1, (writeBusy_memories s v l).2]; exact ⟨hm, hc⟩
  · exact ⟨writeIdle_mem_wf size v l hm, writeIdle_codes_wf size v l hc⟩

/-- The memories after reset are in canonical form. -/
theorem reset_wf (p : Params) : Memory.wf (State.resetOf p).mem ∧ cellsWf (State.resetOf p).codes :=
  ⟨List.Pairwise.nil, List.Pairwise.nil⟩

/-! ### Buffers -/

/-- Bytes of different buffers have different addresses (rules R7, R54). -/
theorem bufBase_add_inj {m n : BufId} {i j : Nat} (hi : i < 0x10000000) (hj : j < 0x10000000)
    (h : bufBase m + i = bufBase n + j) : m = n ∧ i = j := by
  unfold bufBase at h
  have : m.val = n.val := by omega
  exact ⟨Fin.ext this, by omega⟩

/-- A buffer is at most `2^24` bytes (rule R7). -/
theorem bufCap_bounds (p : Params) : 1 ≤ p.bufCap ∧ p.bufCap ≤ 2 ^ 24 := by
  have := p.bufCapLess1.isLt
  unfold Params.bufCap; omega

/-- A dictionary has from 256 to `2^24` entries (rule R8). -/
theorem dictCap_bounds (p : Params) : 256 ≤ p.dictCap ∧ p.dictCap ≤ 2 ^ 24 := by
  have := p.dictCapLess256.isLt
  unfold Params.dictCap; omega

@[simp] theorem length_leBytes (k v : Nat) : (leBytes k v).length = k := by
  induction k generalizing v with
  | zero => rfl
  | succ k ih => simp [leBytes, ih]

/-- What an access at or above `0x10000000` reaches (rules R63, R66, R67). -/
theorem locate_high {p : Params} {size : Size} {addr : Word} (ha : 0x10000000 ≤ addr.toNat) :
    locate p size addr =
      if addr.toNat % size.bytes ≠ 0 then none
      else if addr.toNat < 0x50000000 then
        if addr.toNat % 0x10000000 + size.bytes ≤ p.bufCap then some (.buffer addr.toNat) else none
      else none := by
  have hc : ¬addr.toNat < codesBase := by unfold codesBase; omega
  unfold locate
  extract_lets a
  rw [if_neg (show ¬a < 0x100 by omega), if_neg (show ¬a < 0x400 by omega),
    if_neg (show ¬a < 0x800 by omega), if_neg (show ¬a < 0x2000 by omega),
    if_neg (show ¬a < 0x4000 by omega), if_neg (show ¬a < 0x8000 by omega), if_neg hc,
    if_neg (show ¬a < 0x08000000 by omega), if_neg (show ¬a < 0x10000000 by omega)]

/-- A legal access at or above `0x10000000` is to a buffer (rule R66). -/
theorem locate_buffer {p : Params} {size : Size} {addr : Word} (ha : 0x10000000 ≤ addr.toNat)
    (hl : locate p size addr ≠ none) : locate p size addr = some (.buffer addr.toNat) := by
  rw [locate_high ha] at *
  split_ifs at * <;> first | rfl | exact absurd rfl hl

/-- A read faults at the first byte that nothing has written (rules R59, R79). -/
theorem memRead_unwritten {m : List Host.Cell} {n a k : Nat} (hk : k < n)
    (hj : ∀ j, j < k → cellGet m (a + j) ≠ none) (hn : cellGet m (a + k) = none) :
    memRead m a n = .error (.unwrittenRead (a + k)) := by
  induction n generalizing a k with
  | zero => omega
  | succ n ih =>
    cases k with
    | zero => rw [Nat.add_zero] at hn; simp only [memRead, hn, Nat.add_zero]
    | succ k =>
      obtain ⟨b, hb⟩ := Option.ne_none_iff_exists'.1 (hj 0 (by omega))
      have := ih (a := a + 1) (k := k) (by omega)
        (fun j h => by have := hj (j + 1) (by omega); rwa [show a + (j + 1) = a + 1 + j by omega] at this)
        (by rwa [show a + (k + 1) = a + 1 + k by omega] at hn)
      rw [Nat.add_zero] at hb
      simp only [memRead, hb, this, show a + (k + 1) = a + 1 + k by omega]

/-- Byte `j` of a stored value (rule R61). -/
theorem getElem_leBytes {k v j : Nat} (h : j < (leBytes k v).length) :
    (leBytes k v)[j] = BitVec.ofNat 8 (v / 256 ^ j) := by
  induction k generalizing v j with
  | zero => simp [leBytes] at h
  | succ k ih =>
    cases j with
    | zero => simp [leBytes]
    | succ j =>
      simp only [leBytes, List.getElem_cons_succ]
      rw [ih, Nat.div_div_eq_div_mul, Nat.pow_succ, Nat.mul_comm]

end Sys2Proof.Machine
end

