-- ==== Sys2Proof/Laws/PerInstr.lean ====
section
/-! SUPPORT. One statement about every command as syntax, proved per constructor: where its encoding holds what. -/

namespace Sys2Proof.Laws.EncodeFields

/-- The `RES` field of a command's word is 0 (rule R93), and the word decodes to a command exactly when the command is well formed
(rules R93, R94). -/
def Statement (i : Instr) : Prop := resField (encode i) = 0 ∧ ((decode? (encode i)).isSome = i.wellFormed)

theorem nop : Statement .nop := by unfold Statement; decide +kernel

theorem lzwEnc (src dst : BufId) : Statement (.lzwEnc src dst) := by
  unfold Statement; revert src dst; decide +kernel

theorem lzwDec (src dst : BufId) : Statement (.lzwDec src dst) := by
  unfold Statement; revert src dst; decide +kernel

theorem codePack (dst : BufId) : Statement (.codePack dst) := by
  unfold Statement; revert dst; decide +kernel

theorem codeUnpack (src : BufId) : Statement (.codeUnpack src) := by
  unfold Statement; revert src; decide +kernel

theorem hufFreq (src : BufId) : Statement (.hufFreq src) := by
  unfold Statement; revert src; decide +kernel

theorem hufBuild : Statement .hufBuild := by unfold Statement; decide +kernel

theorem hufBook : Statement .hufBook := by unfold Statement; decide +kernel

theorem hufEnc (src dst : BufId) : Statement (.hufEnc src dst) := by
  unfold Statement; revert src dst; decide +kernel

theorem hufDec (src dst : BufId) : Statement (.hufDec src dst) := by
  unfold Statement; revert src dst; decide +kernel

theorem bufCmp (src dst : BufId) : Statement (.bufCmp src dst) := by
  unfold Statement; revert src dst; decide +kernel

theorem reset : Statement .reset := by unfold Statement; decide +kernel

end Sys2Proof.Laws.EncodeFields
end

