-- ==== Sys2Proof/Laws/Tree.lean ====
section
/-! SUPPORT. Tables and the arena: what an entry is, what a slot beyond the arena reads as, and the tree property from a check
that evaluates. -/

namespace Sys2Proof.Machine

@[simp] theorem tableOf_getElem {α : Type} {n i : Nat} (f : Nat → α) (h : i < n) : (tableOf n f)[i] = f i := by
  simp [tableOf]

/-- An index beyond the table reads as an absent slot (rule R50). -/
theorem slotOf_beyond {node : Vector Slot 511} {i : Nat} (h : 511 ≤ i) : slotOf node i = .absent := by
  simp [slotOf, Vector.getD, Array.getD, h]

/-- A slot of the table made of an arena is the arena's, and absent beyond it (rule R162). -/
theorem slotOf_nodeTable {arena : List Slot} (h : arena.length ≤ 511) (i : Nat) :
    slotOf (nodeTable arena) i = arena.getD i .absent := by
  by_cases hi : i < 511
  · unfold slotOf nodeTable
    simp [Vector.getD, Array.getD, tableOf, hi]
  · rw [slotOf_beyond (by omega), List.getD_eq_getElem?_getD, List.getElem?_eq_none (by omega)]; rfl

/-- A leaf is present (rule R49). -/
theorem present_of_isLeaf {n : Slot} (h : n.isLeaf = true) : n.present = true := by
  cases n <;> first | rfl | cases h

/-- The checks of `ArenaTree` on an arena, over its own indices. -/
def treeCheck (arena : List Slot) : Bool :=
  let n := arena.length
  let at' := fun i => arena.getD i .absent
  decide (n ≤ 511) &&
    (List.range n).all fun i =>
      (at' i).present &&
      ((at' i).isLeaf ||
        (decide ((at' i).left.toNat < i) && decide ((at' i).right.toNat < i) && (at' i).left != (at' i).right &&
          (at' i).freq.toNat == (at' (at' i).left.toNat).freq.toNat + (at' (at' i).right.toNat).freq.toNat)) &&
      (decide (i + 1 = n) ||
        (List.range n).any fun j => !(at' j).isLeaf && ((at' j).left.toNat == i || (at' j).right.toNat == i)) &&
      (List.range n).all fun j =>
        i == j ||
          ((!(at' i).isLeaf || !(at' j).isLeaf || (at' i).sym != (at' j).sym) &&
            ((at' i).isLeaf || (at' j).isLeaf ||
              ((at' i).left != (at' j).left && (at' i).left != (at' j).right && (at' i).right != (at' j).right)))

/-- An arena that passes the check is a tree. -/
theorem ArenaTree_of_check {arena : List Slot} (h : treeCheck arena = true) : ArenaTree (nodeTable arena) arena.length := by
  simp only [treeCheck, Bool.and_eq_true, decide_eq_true_eq, List.all_eq_true, List.mem_range, Bool.or_eq_true, bne_iff_ne,
    beq_iff_eq, List.any_eq_true, Bool.not_eq_true', ne_eq] at h
  obtain ⟨hn, h⟩ := h
  have hs : ∀ i, slotOf (nodeTable arena) i = arena.getD i .absent := slotOf_nodeTable hn
  have hp : ∀ i, (slotOf (nodeTable arena) i).present = true ↔ i < arena.length := by
    intro i
    rw [hs]
    refine ⟨fun hi => ?_, fun hi => (h i hi).1.1.1⟩
    by_contra hc
    rw [List.getD_eq_getElem?_getD, List.getElem?_eq_none (by omega)] at hi
    cases hi
  refine
    { count := hn
      present := hp
      children := fun i hi hl => ?_
      symbols := fun i j hi hj he => ?_
      parents := fun k hk => ?_
      oneParent := fun i j hi hj hl hl' he => ?_ }
  · simp only [hs] at hl ⊢
    obtain ⟨⟨⟨h1, h2⟩, h3⟩, h4⟩ := (h i hi).1.1.2.resolve_left (fun h0 => by rw [hl] at h0; cases h0)
    exact ⟨h1, h2, h3, h4⟩
  · have hi' := (hp i).1 (present_of_isLeaf hi)
    have hj' := (hp j).1 (present_of_isLeaf hj)
    simp only [hs] at hi hj he
    rcases (h i hi').2 j hj' with h0 | ⟨(h0 | h0) | h0, _⟩
    · exact h0
    · rw [hi] at h0; cases h0
    · rw [hj] at h0; cases h0
    · exact absurd he h0
  · rcases (h k (by omega)).1.2 with h0 | ⟨j, hj, hl, h1⟩
    · omega
    · exact ⟨j, hj, (hp j).2 hj, by rw [hs]; exact hl, by rw [hs]; exact h1⟩
  · simp only [hs] at hl hl' he
    rcases (h i hi).2 j hj with h0 | ⟨_, (h0 | h0) | ⟨⟨h1, h2⟩, h3⟩⟩
    · exact h0
    · rw [hl] at h0; cases h0
    · rw [hl'] at h0; cases h0
    · rcases he with he | he | he
      · exact absurd he h1
      · exact absurd he h2
      · exact absurd he h3

end Sys2Proof.Machine
end

