-- ==== Sys2Proof/Tests/Slice0.lean ====
section
/-! SUPPORT. Tests: expected results are the vectors of spec/95_test_vectors.md; and a witness for the hypotheses of each
obligation that has some. -/

namespace Sys2Proof.Tests

-- One theorem at a time: each kernel evaluation would otherwise hold a thread of its own.
set_option Elab.async false

open Sys2Proof Sys2Proof.Machine

/-! ### Well-formedness: each check refuses an ill-formed term (rule R93) -/

theorem test_illFormed_lzwEnc : (Instr.lzwEnc 1 1).wellFormed = false := by decide
theorem test_illFormed_lzwDec : (Instr.lzwDec 2 2).wellFormed = false := by decide
theorem test_illFormed_hufEnc : (Instr.hufEnc 0 0).wellFormed = false := by decide
theorem test_illFormed_hufDec : (Instr.hufDec 3 3).wellFormed = false := by decide
theorem test_illFormed_bufCmp : (Instr.bufCmp 1 1).wellFormed = false := by decide

/-! ### Decoding: words written out from rule R91's pattern, RES DST SRC OP -/

theorem test_decode_nop : decode 0b000000000000000000000000_00_00_0000 = .ok .nop := by rfl
theorem test_decode_lzwEnc : decode 0b000000000000000000000000_01_00_0001 = .ok (.lzwEnc 0 1) := by rfl
theorem test_decode_lzwDec : decode 0b000000000000000000000000_11_01_0010 = .ok (.lzwDec 1 3) := by rfl
theorem test_decode_codePack : decode 0b000000000000000000000000_10_00_0011 = .ok (.codePack 2) := by rfl
theorem test_decode_codeUnpack : decode 0b000000000000000000000000_00_01_0100 = .ok (.codeUnpack 1) := by rfl
theorem test_decode_hufFreq : decode 0b000000000000000000000000_00_11_0101 = .ok (.hufFreq 3) := by rfl
theorem test_decode_hufBuild : decode 0b000000000000000000000000_00_00_0110 = .ok .hufBuild := by rfl
theorem test_decode_hufBook : decode 0b000000000000000000000000_00_00_0111 = .ok .hufBook := by rfl
theorem test_decode_hufEnc : decode 0b000000000000000000000000_10_01_1000 = .ok (.hufEnc 1 2) := by rfl
theorem test_decode_hufDec : decode 0b000000000000000000000000_01_10_1001 = .ok (.hufDec 2 1) := by rfl
theorem test_decode_bufCmp : decode 0b000000000000000000000000_11_00_1010 = .ok (.bufCmp 0 3) := by rfl
theorem test_decode_reset : decode 0b000000000000000000000000_00_00_1111 = .ok .reset := by rfl

/-- One word for each check of rule R94 (rule R109 and vector CT7). -/
theorem test_decode_illegal :
    decode 0x00000141 = .error .reservedBits ∧ decode 0x0000000B = .error .reservedOpcode ∧
      decode 0x00000013 = .error .srcNotZero ∧ decode 0x00000046 = .error .dstNotZero ∧
      decode 0x00000051 = .error .sameBuffer := ⟨rfl, rfl, rfl, rfl, rfl⟩

theorem test_disassemble : disassemble 0xD2 = "LZW_DEC b1, b3" ∧ disassemble 0x141 = ".word 0x00000141" := by
  decide +kernel

/-! ### Small states -/

/-- The core of the vectors after reset: `BUF_CAP = 1024`, `DICT_CAP = 4096`. -/
def base : State := State.resetOf { bufCapLess1 := 1023, dictCapLess256 := 3840 }

/-- `LOADBITS bN, bytes, m` done (rule R104). -/
def loadedBits (s : State) (n : BufId) (bytes : List Nat) (m : Nat) : State :=
  s.writeOutput n (bytes.map (BitVec.ofNat 8)) m

/-- `LOAD bN, bytes` done (rule R104). -/
def loaded (s : State) (n : BufId) (bytes : List Nat) : State := loadedBits s n bytes (8 * bytes.length)

/-- The state after a command issued and run, or the state before it if it does not complete. -/
def after (s : State) (i : Instr) : State :=
  match exec i (s.latch (encode i)) with
  | .next t => t
  | _ => s

/-- The command completes. -/
def runs (s : State) (i : Instr) : Bool :=
  match exec i (s.latch (encode i)) with
  | .next _ => true
  | _ => false

theorem runsTo_after {s : State} {i : Instr} (h : runs s i = true) : s.runsTo i (after s i) := by
  unfold State.runsTo after
  unfold runs at h
  split at h
  · rename_i t ht; rw [ht]
  · cases h

/-- What buffer `n` holds, if all of it was written. -/
def bytesIn (s : State) (n : BufId) : Option (List Nat) :=
  match s.readBytes n 0 (s.len n) with
  | .ok bs => some (bs.map BitVec.toNat)
  | .error _ => none

/-- `STATUS.ERR`, `ERR_INFO` and `ERR_VALUE`. -/
def record (s : State) : Nat × Nat × Nat := (s.status.err.code, s.errInfo.toNat, s.errValue.toNat)

/-- `CODES[0..CODE_COUNT)`. -/
def codesIn (s : State) : List (Option Nat) :=
  (List.range s.codeCount.toNat).map fun i => (cellGet s.codes i).map BitVec.toNat

/-- The host address that an unwritten read faults at. -/
def unwrittenAt (s : State) (i : Instr) : Option Nat :=
  match exec i (s.latch (encode i)) with
  | .fault (.unwrittenRead a) => some a
  | _ => none

def abab : List Nat := [0x41, 0x42, 0x41, 0x42, 0x41, 0x42, 0x41, 0x42]

/-- The arena of vector HB1. -/
def hb1 : List Slot :=
  [.leaf 0x41 5, .leaf 0x42 2, .leaf 0x43 1, .leaf 0x44 1, .internal 2 2 3, .internal 4 1 4, .internal 9 5 0]

/-- The codebook of vector HK1. -/
def hk1 : Vector (List Bool) 256 :=
  ((((Vector.replicate 256 ([] : List Bool)).set 0x41 [true]).set 0x42 [false, false]).set 0x43 [false, true, false]).set 0x44
    [false, true, true]

def aaaaabbcd : List Nat := [0x41, 0x41, 0x41, 0x41, 0x41, 0x42, 0x42, 0x43, 0x44]

/-- The core with the tree HB1 and the codebook HK1. -/
def huf : State := (base.setTree (nodeTable hb1) 7).setBook hk1 3

/-- The frequency table of vector HB1. -/
def freq1 : Vector Word 256 :=
  (((Vector.replicate 256 (0 : Word)).set 0x41 5).set 0x42 2 |>.set 0x43 1).set 0x44 1

/-! ### Commands -/

/-- Vector CT1. -/
theorem test_nop :
    let t := after { base with irqEn := true } .nop
    t.status.toWord = 2 ∧ t.irq = true := by decide +kernel

/-- Vector LE4. -/
theorem test_lzwEnc :
    let t := after (loaded { base with maxDict := 260 } 0 abab) (.lzwEnc 0 1)
    codesIn t = [some 65, some 66, some 256, some 258, some 66] ∧ t.nextCode = 260 ∧ t.bitWidth = 9 ∧
      t.status.frozen = false ∧ t.bits 1 = 45 ∧ bytesIn t 1 = some [0x20, 0x90, 0xA0, 0x10, 0x22, 0x17] := by
  decide +kernel

/-- Vector LE12: nothing but the record is written. -/
theorem test_lzwEnc_capacity :
    let t := after (loaded { State.resetOf ⟨7, 3840⟩ with maxDict := 4096 } 0 [65, 66, 67, 68, 69, 70, 71, 72]) (.lzwEnc 0 1)
    record t = (6, 8, 9) ∧ t.bitWidth = 8 ∧ t.codeCount = 0 ∧ t.len 1 = 0 := by decide +kernel

/-- Vector LD6: the pending case. -/
theorem test_lzwDec :
    let t := after (loadedBits { base with maxDict := 257, bitWidth := 9 } 1 [0x20, 0xC0, 0x3F] 18) (.lzwDec 1 3)
    bytesIn t 3 = some [65, 65, 65] ∧ t.nextCode = 257 ∧ t.status.frozen = false ∧ record t = (0, 0, 0) := by
  decide +kernel

/-- Vector LD5: the pending case while frozen. -/
theorem test_lzwDec_malformed :
    record (after (loadedBits { base with bitWidth := 9 } 1 [0x20, 0xC0, 0x3F] 18) (.lzwDec 1 3)) = (1, 1, 256) := by
  decide +kernel

/-- Vector BP1. -/
theorem test_codePack :
    let t := after ({ base with bitWidth := 9 }.writeCodes [65, 66, 256, 258, 66]) (.codePack 2)
    bytesIn t 2 = some [0x20, 0x90, 0xA0, 0x10, 0x22, 0x17] ∧ t.bits 2 = 45 := by decide +kernel

/-- Vector BP5: a code that does not fit. -/
theorem test_codePack_tooWide : record (after (base.writeCodes [256]) (.codePack 2)) = (5, 0x04000000, 256) := by
  decide +kernel

/-- Vector BP8: no check against a dictionary. -/
theorem test_codeUnpack :
    codesIn (after (loadedBits { base with bitWidth := 10 } 1 [0x20, 0x90, 0xA0, 0x10, 0x22, 0x17] 48) (.codeUnpack 1)) =
      [some 130, some 266, some 4, some 34] := by decide +kernel

/-- Vector BP12. -/
theorem test_codeUnpack_bits :
    record (after (loadedBits { base with bitWidth := 9 } 1 [0x20, 0x90, 0xA0, 0x10, 0x22, 0x17] 49) (.codeUnpack 1)) =
      (5, 0x4C, 49) := by decide +kernel

/-- Vector HF3. -/
theorem test_hufFreq :
    let t := after (loaded base 0 aaaaabbcd) (.hufFreq 0)
    t.freqOf 0x41 = 5 ∧ t.freqOf 0x44 = 1 ∧ t.freqOf 0 = 0 := by decide +kernel

/-- Vector HF4. -/
theorem test_hufFreq_length :
    record (after { base with bufLen := base.bufLen.set 0 1025 } (.hufFreq 0)) = (5, 0x40, 1025) := by decide +kernel

/-- Vector HB1. -/
theorem test_hufBuild :
    buildArena freq1 = hb1 ∧ (after { base with freq := freq1 } .hufBuild).nodeCount = 7 := by
  decide +kernel

/-- Vector HK1. -/
theorem test_hufBook :
    let t := after (base.setTree (nodeTable hb1) 7) .hufBook
    t.bookCode 0x41 = [true] ∧ t.bookCode 0x42 = [false, false] ∧ t.bookCode 0x43 = [false, true, false] ∧
      t.bookCode 0x44 = [false, true, true] ∧ t.bookCode 0x45 = [] ∧ t.maxCodeLen = 3 := by decide +kernel

/-- Vector HK4. -/
theorem test_hufBook_noTree : record (after base .hufBook) = (7, 0xFFFFFFFF, 12) := by decide +kernel

/-- Vector HE1. -/
theorem test_hufEnc :
    let t := after (loaded huf 0 aaaaabbcd) (.hufEnc 0 1)
    bytesIn t 1 = some [0xF8, 0x26] ∧ t.bits 1 = 15 := by decide +kernel

/-- Vector HE5: a byte with no code. -/
theorem test_hufEnc_noCode : record (after (loaded huf 0 [0x41, 0x45]) (.hufEnc 0 1)) = (7, 1, 0x45) := by decide +kernel

/-- Vector HD1. -/
theorem test_hufDec :
    let t := after (loadedBits huf 1 [0xF8, 0x26] 15) (.hufDec 1 2)
    bytesIn t 2 = some [0x41, 0x41, 0x41, 0x41, 0x41, 0x42, 0x42, 0x43, 0x44] ∧ t.bits 2 = 72 := by decide +kernel

/-- Vector HD4: the pad ends in mid-descent. -/
theorem test_hufDec_truncated :
    record (after (loadedBits huf 1 [0xF8, 0x26] 16) (.hufDec 1 2)) = (2, 16, 1) := by decide +kernel

/-- Vector CT3. -/
theorem test_bufCmp : record (after (loaded (loaded base 0 abab) 3 abab) (.bufCmp 0 3)) = (0, 0, 0) := by decide +kernel

/-- Vector CT4: the second buffer has ended. -/
theorem test_bufCmp_ended :
    record (after (loaded (loaded base 0 [65, 66, 67]) 3 [65, 66]) (.bufCmp 0 3)) = (3, 2, 0x01000043) := by decide +kernel

/-- Vector CT2. -/
theorem test_reset :
    let t := after { huf with irqEn := true } .reset
    t.status.toWord = 2 ∧ t.irq = false ∧ t.cmd = 0x0F ∧ t.maxDict = 256 ∧ t.len 0 = 0 ∧ t.mem = huf.mem ∧
      t.freqOf 0x41 = 0 := by decide +kernel

/-- Rule R59: a byte within the length that nothing has written. -/
theorem test_unwritten : unwrittenAt { base with bufLen := base.bufLen.set 2 1 } (.hufFreq 2) = some 0x30000000 := by
  decide +kernel

/-! ### The host port -/

/-- Vector CT12: little-endian reads. -/
theorem test_read_littleEndian :
    let s := loaded base 0 [0x41, 0x42, 0x43, 0x44]
    (hostRead s .s32 0x10000000).map Prod.fst = .ok 0x44434241 ∧ (hostRead s .s16 0x10000002).map Prod.fst = .ok 0x4443 := by
  exact ⟨rfl, rfl⟩

/-- Vector CT11: bus errors. -/
theorem test_busErrors :
    locate base.params .s16 0x10 = none ∧ locate base.params .s32 0x12 = none ∧ locate base.params .s32 0x100 = none ∧
      locate base.params .s32 0x10000400 = none ∧ locate base.params .s32 0x100003FC = some (.buffer 0x100003FC) := by
  decide +kernel

/-- Vector CT13. -/
theorem test_resetRegisters :
    base.readReg .id = 0x544B0007 ∧ base.readReg .maxDict = 256 ∧ base.readReg .bitWidth = 8 ∧ base.readReg .nextCode = 256 := by
  decide +kernel

/-- Word views of vectors HB1 and HK1. -/
theorem test_views :
    (Slot.internal 9 5 0).word 0 = 0x80000000 ∧ (Slot.internal 9 5 0).word 1 = 5 ∧ (Slot.leaf 0x41 5).word 0 = 0xC0000041 ∧
      bookWord [false, true, false] 0 = 3 ∧ bookWord [false, true, false] 1 = 0x40000000 := by decide +kernel

/-- Program P6, from `ISSUE NOP` on, with `d` host steps before the engine's. -/
def p6 (d : Nat) : State :=
  { base with
    irqEn := true
    agent := { HostAgent.idle with host := [opIssue .nop, opSet .maxDict 300, .wait], schedule := [d] } }

/-- The state after `k` steps of the machine, or the start if it stops. -/
def stepped (k : Nat) (s : State) : State :=
  match core.run k s with
  | .next t => t
  | _ => s

/-- Program P6, outcome (a): the engine step comes first. -/
theorem test_p6_engineFirst :
    (stepped 4 (p6 0)).status.toWord = 2 ∧ (stepped 4 (p6 0)).maxDict = 300 := by decide +kernel

/-- Program P6, outcome (b): the write comes first, is ignored and sets `WERR`. -/
theorem test_p6_writeFirst :
    (stepped 4 (p6 2)).status.toWord = 0x00010002 ∧ (stepped 4 (p6 2)).maxDict = 256 := by decide +kernel

/-- D28: a write while busy to a parameter register, a read-only register or a view sets `WERR`; one to `CTRL` does not. -/
theorem test_busyWrites :
    let werr (a : Word) := (hostWrite (base.latch 0) .s32 a 1).map fun t => t.status.werr
    werr 0x10 = .ok true ∧ werr 0x1C = .ok true ∧ werr 0x2000 = .ok true ∧ werr 0x7FFC = .ok true ∧ werr 0x04 = .ok false :=
  ⟨rfl, rfl, rfl, rfl, rfl⟩

/-- `CHECK` of the code that `STATUS` holds, and of a number that is no code (rule R106). -/
theorem test_check :
    hostOp base (.check 0) = .ok base ∧ hostOp base (.check 8) = .error (.checkFailed .none) := ⟨rfl, rfl⟩

/-- The word placed by `withFetchWord` is the one the next step runs. -/
theorem test_withFetchWord :
    (State.reset.withFetchWord 32 0x0F).engineTurn = true ∧
      step (State.reset.withFetchWord 32 0x0F) = exec .reset (State.reset.withFetchWord 32 0x0F) := ⟨rfl, rfl⟩

/-! ### Witnesses: states that meet the hypotheses of an obligation -/

theorem witness_StepRunsDecoded :
    (base.withFetchWord 32 0x41).engineTurn = true ∧ decode (base.withFetchWord 32 0x41).cmd = .ok (.lzwEnc 0 1) := ⟨rfl, rfl⟩

/-- A host about to do `op`. -/
def hostAt (op : HostOp) : State := { base with agent := { HostAgent.idle with host := [op] } }

/-- One operation of each kind, accesses that succeed and that are bus errors (vector CT11), and a host with nothing to do. -/
theorem witness_StepRunsDecoded_host :
    (∀ op, (hostAt op).engineTurn = false ∧ (hostAt op).agent.host = op :: []) ∧
      base.engineTurn = false ∧ base.agent.host = [] ∧
      hostRead base .s32 0x10 = .ok (256, base) ∧ hostRead base .s16 0x10 = .error (.busError 0x10 .s16) ∧
      (∃ t, hostWrite base .s32 0x10 300 = .ok t) ∧ hostWrite base .s16 0x10 300 = .error (.busError 0x10 .s16) :=
  ⟨fun _ => ⟨rfl, rfl⟩, rfl, rfl, rfl, rfl, ⟨_, rfl⟩, rfl⟩

theorem witness_IllegalWordFails :
    (base.withFetchWord 32 0x0B).engineTurn = true ∧ ∀ i, decode (base.withFetchWord 32 0x0B).cmd ≠ .ok i := by
  refine ⟨rfl, fun i h => ?_⟩
  have h' : decode (base.withFetchWord 32 0x0B).cmd = .error .reservedOpcode := rfl
  rw [h'] at h; cases h

theorem witness_ResetStates : base.runsTo .reset (after base .reset) := runsTo_after rfl

/-- A hardware reset during a command. -/
def resetting : State :=
  { base.latch 0x41 with agent := { HostAgent.idle with host := [.hardReset, .wait], delay := 3 } }

theorem witness_HardResetAbandonsCommand :
    resetting.agent.host = .hardReset :: [.wait] ∧ resetting.engineTurn = false := ⟨rfl, rfl⟩

def bytes (bs : List Nat) : List Byte := bs.map (BitVec.ofNat 8)

/-- Two equal buffers. -/
def equalBufs : State := loaded (loaded base 0 abab) 3 abab

theorem witness_BufCmpEqualCompletes :
    equalBufs.holds 0 (bytes abab) ∧ equalBufs.holds 3 (bytes abab) ∧ (bytes abab).length ≤ equalBufs.params.bufCap := by
  unfold State.holds; decide +kernel

/-- Vector CT5: the last byte differs. -/
theorem witness_BufCmpReportsFirstDifference :
    let s := loaded (loaded base 0 [65, 66, 67]) 3 [65, 66, 68]
    let a := bytes [65, 66, 67]
    let b := bytes [65, 66, 68]
    s.holds 0 a ∧ s.holds 3 b ∧ a.length ≤ s.params.bufCap ∧ b.length ≤ s.params.bufCap ∧
      (∀ j, j < 2 → a[j]? = b[j]?) ∧ a[2]? ≠ b[2]? := by
  unfold State.holds; decide +kernel

/-- Vector CT4: a buffer has ended. -/
theorem witness_BufCmpReportsFirstDifference_ended :
    let s := loaded (loaded base 0 [65, 66, 67]) 3 [65, 66]
    let a := bytes [65, 66, 67]
    let b := bytes [65, 66]
    s.holds 0 a ∧ s.holds 3 b ∧ a.length ≤ s.params.bufCap ∧ b.length ≤ s.params.bufCap ∧
      (∀ j, j < 2 → a[j]? = b[j]?) ∧ a[2]? ≠ b[2]? := by
  unfold State.holds; decide +kernel

/-- The start of vector LE4. -/
def le4 : State := loaded { base with maxDict := 260 } 0 abab

theorem witness_LzwEncCompletes :
    le4.holds 0 (bytes abab) ∧ (bytes abab).length ≤ le4.params.bufCap ∧ 256 ≤ le4.maxDict.toNat ∧
      le4.maxDict.toNat ≤ le4.params.dictCap ∧
      bytesFor ((lzwEncode (bytes abab) 260).codes.length * clog2 (lzwEncode (bytes abab) 260).nextCode) ≤
        le4.params.bufCap := by
  unfold State.holds; decide +kernel

/-- Both clauses, the second frozen from the start (vector LE5). -/
theorem witness_LzwEncodeCounts :
    lzwEncode [] 256 = { codes := [], nextCode := 256, frozen := false } ∧ bytes abab ≠ [] ∧
      lzwEncode (bytes abab) 256 = { codes := [65, 66, 65, 66, 65, 66, 65, 66], nextCode := 256, frozen := true } := by
  decide +kernel

theorem witness_LzwDecodeInvertsEncode : 256 ≤ 260 ∧ (bytes abab).length ≤ 8 := by decide

def le4Done : State := after le4 (.lzwEnc 0 1)

theorem witness_LzwCommandsRoundTrip :
    (0 : BufId) ≠ 1 ∧ (3 : BufId) ≠ 1 ∧ le4.holds 0 (bytes abab) ∧ le4.runsTo (.lzwEnc 0 1) le4Done ∧
      le4Done.status.err = .none ∧ le4Done.params = le4.params ∧ le4Done.maxDict = le4.maxDict ∧
      le4Done.bitWidth = le4Done.bitWidth ∧ le4Done.sameBytes le4Done 1 ∧
      (le4Done.bits 1 = le4Done.bits 1 ∨ le4Done.bits 1 = 8 * le4Done.len 1) := by
  refine ⟨by decide, by decide, ?_, runsTo_after (by decide +kernel), by decide +kernel, rfl, rfl, rfl, ⟨rfl, fun _ _ => rfl⟩,
    .inl rfl⟩
  unfold State.holds; decide +kernel

/-- The stream of vector LD6. -/
def ld6 : State := loadedBits { base with maxDict := 257, bitWidth := 9 } 1 [0x20, 0xC0, 0x3F] 18

def ld6Stream : List Bool := (bitsOfBytes (bytes [0x20, 0xC0, 0x3F])).take 18

theorem stream_iff (s : State) (n : BufId) (stream : List Bool) :
    s.bits n = stream.length → s.streamBits n stream.length = .ok stream → s.holdsStream n stream := by
  intro h h'
  rw [← h] at h'
  exact streamBits_bits_eq_ok.1 h'

theorem ld6_stream : ld6.holdsStream 1 ld6Stream := stream_iff _ _ _ (by decide +kernel) (by rfl)

theorem witness_LzwDecCompletes :
    ld6.holdsBits 1 ld6Stream ∧ ld6Stream.length = ld6.bits 1 / ld6.bitWidth.toNat * ld6.bitWidth.toNat ∧
      ld6.len 1 ≤ ld6.params.bufCap ∧ ld6.bits 1 ≤ 8 * ld6.len 1 ∧ 256 ≤ ld6.maxDict.toNat ∧ ld6.maxDict.toNat ≤ ld6.params.dictCap ∧ 8 ≤ ld6.bitWidth.toNat ∧
      ld6.bitWidth.toNat ≤ wMax ld6.params ∧
      lzwDecode ld6.maxDict.toNat ld6.params.bufCap (unpackCodes ld6Stream ld6.bitWidth.toNat) =
        .ok { out := [65, 65, 65], nextCode := 257, frozen := false } := by
  refine ⟨ld6_stream.2, by decide +kernel, ?_⟩
  refine ⟨by decide +kernel, by decide +kernel, by decide +kernel, by decide +kernel, by decide +kernel, by decide +kernel, by rfl⟩

/-- A code list that no encoder emits, with two entries `"AA"` (at `M = 4096` the rules give `NEXT_CODE = 258`), and its segments. -/
theorem witness_LzwDecCompletes_anyCodes :
    lzwDecode 4096 3 [65, 65, 65] = .ok { out := [65, 65, 65], nextCode := 258, frozen := false } ∧
      LzwParse [65, 65, 65] 4096 [65, 65, 65] [[65], [65], [65]] :=
  ⟨by rfl, rfl, rfl, fun i h => .inl ⟨65, by
    match i, h with
    | 0, _ => exact ⟨rfl, rfl⟩
    | 1, _ => exact ⟨rfl, rfl⟩
    | 2, _ => exact ⟨rfl, rfl⟩⟩⟩

/-- Five bits of a byte that nothing has written, at a width of nine: no whole code, so nothing is read (rule R134). -/
def unreadPad : State := { base with bitWidth := 9, bufLen := base.bufLen.set 1 1, bufBits := base.bufBits.set 1 5 }

theorem witness_LzwDecCompletes_unreadPad :
    unreadPad.holdsBits 1 [] ∧ 0 = unreadPad.bits 1 / unreadPad.bitWidth.toNat * unreadPad.bitWidth.toNat ∧
      unreadPad.len 1 ≤ unreadPad.params.bufCap ∧ unreadPad.bits 1 ≤ 8 * unreadPad.len 1 ∧
      256 ≤ unreadPad.maxDict.toNat ∧ unreadPad.maxDict.toNat ≤ unreadPad.params.dictCap ∧
      8 ≤ unreadPad.bitWidth.toNat ∧ unreadPad.bitWidth.toNat ≤ wMax unreadPad.params ∧
      lzwDecode unreadPad.maxDict.toNat unreadPad.params.bufCap (unpackCodes [] 9) =
        .ok { out := [], nextCode := 256, frozen := false } ∧ cellGet unreadPad.mem (bufBase 1) = none := by
  refine ⟨nofun, ?_⟩
  decide +kernel

/-- The start of vector LD5, and its stream decodes to a malformed code. -/
def ld5 : State := loadedBits { base with bitWidth := 9 } 1 [0x20, 0xC0, 0x3F] 18

theorem witness_LzwDecodeDataErrors_command :
    ld5.holdsBits 1 ld6Stream ∧ ld6Stream.length = ld5.bits 1 / ld5.bitWidth.toNat * ld5.bitWidth.toNat ∧
      ld5.len 1 ≤ ld5.params.bufCap ∧ ld5.bits 1 ≤ 8 * ld5.len 1 ∧ 256 ≤ ld5.maxDict.toNat ∧
      ld5.maxDict.toNat ≤ ld5.params.dictCap ∧ 8 ≤ ld5.bitWidth.toNat ∧ ld5.bitWidth.toNat ≤ wMax ld5.params ∧
      lzwDecode ld5.maxDict.toNat ld5.params.bufCap (unpackCodes ld6Stream ld5.bitWidth.toNat) =
        .error (.raise .malformedCode 1 256) := by
  refine ⟨(stream_iff ld5 1 ld6Stream (by decide +kernel) (by rfl)).2, by decide +kernel, ?_⟩
  refine ⟨by decide +kernel, by decide +kernel, by decide +kernel, by decide +kernel, by decide +kernel, by decide +kernel, by rfl⟩

/-- Each clause at its boundary: vectors LD2, LD3 and LD5, and one byte too many. -/
theorem witness_LzwDecodeDataErrors :
    256 ≤ 256 ∧ [65] ≠ ([] : List Nat) ∧
      lzwDecode 256 4 [65] = .ok { out := [65], nextCode := 256, frozen := false } ∧ 256 < 257 ∧ (256 = 256 ∧ 256 ≤ 256) ∧
      lzwDecode 257 (2 + 1) ([65] ++ [65]) = .ok { out := [65, 65], nextCode := 257, frozen := false } ∧
      lzwDecode 257 1 [65] = .ok { out := [65], nextCode := 256, frozen := false } ∧ 1 < [65, 65].length := by
  refine ⟨by decide, by decide, by rfl, by decide, by decide, by rfl, by rfl, by decide⟩

/-- The start of vector BP1. -/
def bp1 : State := { base with bitWidth := 9 }.writeCodes [65, 66, 256, 258, 66]

theorem bp1_codes : bp1.holdsCodes [65, 66, 256, 258, 66] := by
  refine ⟨by decide +kernel, fun i h => ?_⟩
  have : ∀ j, (hj : j < 5) → cellGet bp1.codes j = some (BitVec.ofNat 32 ([65, 66, 256, 258, 66][j]'hj)) ∧
      (BitVec.ofNat 32 ([65, 66, 256, 258, 66][j]'hj)).toNat = [65, 66, 256, 258, 66][j]'hj := by decide +kernel
  exact ⟨_, this i h⟩

/-- The hypotheses of `CodePackCompletes` and of `PackerRoundTrip`. -/
theorem witness_CodePackCompletes :
    bp1.holdsCodes [65, 66, 256, 258, 66] ∧ 9 = bp1.bitWidth.toNat ∧ 8 ≤ 9 ∧ 9 ≤ wMax bp1.params ∧
      5 ≤ bp1.params.codeCap ∧ (∀ c ∈ [65, 66, 256, 258, 66], c < 2 ^ 9) ∧ bytesFor (5 * 9) ≤ bp1.params.bufCap :=
  ⟨bp1_codes, by decide +kernel, by decide, by decide +kernel, by decide +kernel, by decide, by decide +kernel⟩

theorem sameBytes_bufBits (t : State) (n : BufId) (b : Vector Word 4) : t.sameBytes { t with bufBits := b } n :=
  ⟨rfl, fun _ _ => rfl⟩

/-- The end of vector BP1. -/
def bp1Done : State := after bp1 (.codePack 2)

/-- The inner hypotheses of `PackerRoundTrip`, the buffer's bit length replaced by `8·BUFD_LEN`. -/
theorem witness_PackerRoundTrip :
    let u : State := { bp1Done with bufBits := bp1Done.bufBits.set 2 48 }
    bp1.runsTo (.codePack 2) bp1Done ∧ u.params = bp1.params ∧ u.bitWidth = bp1Done.bitWidth ∧ bp1Done.sameBytes u 2 ∧
      u.bits 2 = 8 * bp1Done.len 2 :=
  ⟨runsTo_after (by decide +kernel), by decide +kernel, by decide +kernel, sameBytes_bufBits _ _ _, by decide +kernel⟩

theorem witness_CodeUnpackCompletes :
    ld6.holdsStream 1 ld6Stream ∧ 9 = ld6.bitWidth.toNat ∧ ld6.len 1 ≤ ld6.params.bufCap ∧ ld6.bits 1 ≤ 8 * ld6.len 1 ∧
      8 ≤ 9 ∧ 9 ≤ wMax ld6.params ∧ 1 < ld6Stream.length / 9 :=
  ⟨ld6_stream, by decide +kernel, by decide +kernel, by decide +kernel, by decide, by decide +kernel,
    by decide +kernel⟩

theorem witness_HufFreqCompletes : le4.holds 0 (bytes abab) ∧ (bytes abab).length ≤ le4.params.bufCap :=
  ⟨witness_LzwEncCompletes.1, witness_LzwEncCompletes.2.1⟩

/-- Node 5 of vector HB1, whose merge was a tie. -/
theorem witness_HufBuildMergesTwoLeast :
    ∃ (node : Vector Slot 511) (waiting : Nat → Prop) (before : Nat → Nat → Prop),
      node = nodeTable (buildArena freq1) ∧ (slotOf node 5).present = true ∧ (slotOf node 5).isLeaf = false ∧
        1 = (slotOf node 5).left.toNat ∧ 4 = (slotOf node 5).right.toNat ∧
        (∀ j, waiting j ↔ j < 5 ∧ ¬childBefore node 5 j) ∧
        ∀ i j, before i j ↔ (slotOf node i).freq.toNat < (slotOf node j).freq.toNat ∨
          ((slotOf node i).freq.toNat = (slotOf node j).freq.toNat ∧ i < j) := by
  refine ⟨_, _, _, rfl, ?_, ?_, ?_, ?_, fun _ => Iff.rfl, fun _ _ => Iff.rfl⟩ <;> decide +kernel

/-! The trees of vectors HB1, HB2 and HB3. -/

theorem tree_hb1 : ArenaTree (nodeTable hb1) 7 := ArenaTree_of_check (arena := hb1) (by decide +kernel)

def hb2 : List Slot := [.leaf 0x61 3]

theorem tree_hb2 : ArenaTree (nodeTable hb2) 1 := ArenaTree_of_check (arena := hb2) (by decide +kernel)

def hb3 : List Slot := []

theorem tree_hb3 : ArenaTree (nodeTable hb3) 0 := ArenaTree_of_check (arena := hb3) (by decide +kernel)

/-- A state with a valid tree meets `TreeInv`. -/
theorem treeInv_setTree {node : Vector Slot 511} {n : Nat} (s : State) (h : ArenaTree node n) :
    (s.setTree node n).TreeInv := by
  refine ⟨?_, fun h' => by cases h'⟩
  have hn : (BitVec.ofNat 32 n).toNat = n := by
    rw [BitVec.toNat_ofNat, Nat.mod_eq_of_lt]; have := h.count; omega
  show ArenaTree node (BitVec.ofNat 32 n).toNat
  rw [hn]; exact h

/-- Four leaves, and one. -/
theorem witness_HufBookCompletes :
    ((base.setTree (nodeTable hb1) 7).TreeInv ∧ (base.setTree (nodeTable hb1) 7).status.treeValid = true ∧ 7 = (base.setTree (nodeTable hb1) 7).nodeCount.toNat) ∧
      (base.setTree (nodeTable hb2) 1).TreeInv ∧ (base.setTree (nodeTable hb2) 1).status.treeValid = true ∧ 1 = (base.setTree (nodeTable hb2) 1).nodeCount.toNat :=
  ⟨⟨treeInv_setTree base tree_hb1, rfl, rfl⟩, treeInv_setTree base tree_hb2, rfl, rfl⟩

/-- Two symbols with a code in one codebook: those of vector HB6. -/
theorem witness_CodebookIsPrefixFree :
    let freq := ((Vector.replicate 256 (0 : Word)).set 0x41 1).set 0x42 1
    let book := codebook (nodeTable (buildArena freq)) (buildArena freq).length
    (0x41 : Byte) ≠ 0x42 ∧ book[(0x41 : Byte).toNat]'(by decide) ≠ [] ∧ book[(0x42 : Byte).toNat]'(by decide) ≠ [] := by
  decide +kernel

/-- Vector HE1. -/
def he1 : State := loaded huf 0 aaaaabbcd

theorem witness_HufEncCompletes :
    he1.holds 0 (bytes aaaaabbcd) ∧ (bytes aaaaabbcd).length ≤ he1.params.bufCap ∧ he1.status.bookValid = true ∧
      (∀ v ∈ bytes aaaaabbcd, he1.bookCode v ≠ []) ∧
      ((bytes aaaaabbcd).flatMap he1.bookCode).length ≤ 8 * he1.params.bufCap := by
  unfold State.holds; decide +kernel

/-- A state that holds a bit stream in `BUF1` and a tree. -/
def decoding (arena : List Slot) (n : Nat) (bs : List Nat) (nbits : Nat) : State :=
  (loadedBits base 1 bs nbits).setTree (nodeTable arena) n

/-- One symbol in a one-leaf tree, none in the empty tree, and vector HD6 in a tree of four leaves. -/
theorem witness_HufDecCompletes :
    ((decoding hb1 7 [0x40] 3).TreeInv ∧ (decoding hb1 7 [0x40] 3).status.treeValid = true ∧
      (codebook (nodeTable hb1) 7)[(0x43 : Byte).toNat]'(by decide) = [false, true, false] ∧
      (decoding hb1 7 [0x40] 3).holdsStream 1 [false, true, false] ∧ (decoding hb1 7 [0x40] 3).len 1 ≤ 1024 ∧
      (decoding hb1 7 [0x40] 3).bits 1 ≤ 8 * (decoding hb1 7 [0x40] 3).len 1) ∧
    ((decoding hb2 1 [0] 1).TreeInv ∧ (codebook (nodeTable hb2) 1)[(0x61 : Byte).toNat]'(by decide) = [false] ∧
      (decoding hb2 1 [0] 1).holdsStream 1 [false]) ∧
    (decoding hb3 0 [] 0).TreeInv ∧ (decoding hb3 0 [] 0).holdsStream 1 [] :=
  ⟨⟨treeInv_setTree _ tree_hb1, rfl, by decide +kernel, stream_iff _ _ _ (by decide +kernel) (by rfl), by decide +kernel,
      by decide +kernel⟩,
    ⟨treeInv_setTree _ tree_hb2, by decide +kernel, stream_iff _ _ _ (by decide +kernel) (by rfl)⟩,
    treeInv_setTree _ tree_hb3, stream_iff _ _ _ (by decide +kernel) (by rfl)⟩

/-- The data of program P5's first half. -/
def aaa : State := loaded base 0 [0x61, 0x61, 0x61]

def aaa1 : State := after aaa (.hufFreq 0)
def aaa2 : State := after aaa1 .hufBuild
def aaa3 : State := after aaa2 .hufBook
def aaa4 : State := after aaa3 (.hufEnc 0 1)

theorem witness_HuffmanCommandsRoundTrip :
    (0 : BufId) ≠ 1 ∧ aaa.holds 0 (bytes [0x61, 0x61, 0x61]) ∧ 3 ≤ aaa.params.bufCap ∧ aaa.runsTo (.hufFreq 0) aaa1 ∧
      aaa1.runsTo .hufBuild aaa2 ∧ aaa2.runsTo .hufBook aaa3 ∧ aaa3.runsTo (.hufEnc 0 1) aaa4 ∧ aaa4.status.err = .none ∧
      aaa4.params = aaa.params ∧ aaa4.status.treeValid = true := by
  refine ⟨by decide, ?_, by decide +kernel, runsTo_after (by decide +kernel), runsTo_after (by decide +kernel),
    runsTo_after (by decide +kernel), runsTo_after (by decide +kernel), by decide +kernel, by decide +kernel, by decide +kernel⟩
  unfold State.holds; decide +kernel

/-- Vectors HE5 and HE7: a byte with no code at index 1, and a code of nine bits in a buffer of one byte. -/
theorem witness_HufEncDataErrors :
    (let s := loaded huf 0 [0x41, 0x45]
     s.holds 0 (bytes [0x41, 0x45]) ∧ (∀ v ∈ (bytes [0x41, 0x45]).take 1, s.bookCode v ≠ []) ∧ s.bookCode 0x45 = [] ∧
       (((bytes [0x41, 0x45]).take 1).flatMap s.bookCode).length = 1) ∧
    (let s := (loaded (State.resetOf ⟨0, 0⟩) 0 [0]).setBook ((Vector.replicate 256 []).set 0 (List.replicate 9 true)) 9
     s.holds 0 [0] ∧ s.status.bookValid = true ∧ s.bookCode 0 ≠ [] ∧ 8 * s.params.bufCap < 0 + (s.bookCode 0).length) := by
  unfold State.holds; decide +kernel

/-- Vectors HD3b, HD2 and HD4, one for each clause. -/
theorem witness_HufDecDataErrors :
    ((decoding hb3 0 [0x80] 1).TreeInv ∧ (decoding hb3 0 [0x80] 1).holdsStream 1 [true] ∧ (decoding hb3 0 [0x80] 1).nodeCount = 0) ∧
    ((decoding hb2 1 [0x40] 2).TreeInv ∧ (decoding hb2 1 [0x40] 2).holdsStream 1 (List.replicate 1 false ++ true :: []) ∧
      (decoding hb2 1 [0x40] 2).nodeCount = 1) ∧
    (decoding hb1 7 [0x80] 2).TreeInv ∧ (decoding hb1 7 [0x80] 2).holdsStream 1 ([true] ++ [false]) ∧
      (codebook (nodeTable hb1) 7)[(0x41 : Byte).toNat]'(by decide) = [true] ∧
      (codebook (nodeTable hb1) 7)[(0x42 : Byte).toNat]'(by decide) = [false, false] ∧ [false] <+: [false, false] :=
  ⟨⟨treeInv_setTree _ tree_hb3, stream_iff _ _ _ (by decide +kernel) (by rfl), rfl⟩,
    ⟨treeInv_setTree _ tree_hb2, stream_iff _ _ _ (by decide +kernel) (by rfl), rfl⟩,
    treeInv_setTree _ tree_hb1, stream_iff _ _ _ (by decide +kernel) (by rfl), by decide +kernel, by decide +kernel, by decide⟩

/-- A core with buffers of one byte, a tree, and a stream of one symbol too many. -/
def tiny (arena : List Slot) (n : Nat) (byte nbits : Nat) : State :=
  (loadedBits (State.resetOf ⟨0, 0⟩) 1 [byte] nbits).setTree (nodeTable arena) n

/-- The capacity clauses: `"aa"` in the one-leaf tree HB2, and `"AB"` in the tree HB1. -/
theorem witness_HufDecDataErrors_capacity :
    ((tiny hb2 1 0 2).TreeInv ∧ (tiny hb2 1 0 2).nodeCount = 1 ∧
      (tiny hb2 1 0 2).holdsStream 1 (List.replicate ((tiny hb2 1 0 2).params.bufCap + 1) false ++ [])) ∧
    (tiny hb1 7 0x80 3).TreeInv ∧ 1 < (tiny hb1 7 0x80 3).nodeCount.toNat ∧
      [(0x41 : Byte)].length = (tiny hb1 7 0x80 3).params.bufCap ∧
      (codebook (nodeTable hb1) 7)[(0x41 : Byte).toNat]'(by decide) = [true] ∧
      (codebook (nodeTable hb1) 7)[(0x42 : Byte).toNat]'(by decide) = [false, false] ∧
      (tiny hb1 7 0x80 3).holdsStream 1 [true, false, false] :=
  ⟨⟨treeInv_setTree _ tree_hb2, rfl, stream_iff _ _ _ (by decide +kernel) (by rfl)⟩,
    treeInv_setTree _ tree_hb1, by decide +kernel, by decide +kernel, by decide +kernel, by decide +kernel,
    stream_iff _ _ _ (by decide +kernel) (by rfl)⟩

/-- Vector PIPE5. -/
def pipe : State := loaded base 0 [0x41]

def pipe1 : State := after pipe (.lzwEnc 0 1)
def pipe2 : State := after pipe1 (.hufFreq 1)
def pipe3 : State := after pipe2 .hufBuild
def pipe4 : State := after pipe3 .hufBook
def pipe5 : State := after pipe4 (.hufEnc 1 2)

theorem witness_PipelineRoundTrips :
    pipe.holds 0 (bytes [0x41]) ∧ 1 ≤ pipe.params.bufCap ∧ 256 ≤ pipe.maxDict.toNat ∧ pipe.maxDict.toNat ≤ pipe.params.dictCap ∧
      pipe.runsTo (.lzwEnc 0 1) pipe1 ∧ pipe1.status.err ≠ .capacityError ∧ pipe1.runsTo (.hufFreq 1) pipe2 ∧
      pipe2.runsTo .hufBuild pipe3 ∧ pipe3.runsTo .hufBook pipe4 ∧ pipe4.runsTo (.hufEnc 1 2) pipe5 ∧
      pipe5.status.err ≠ .capacityError := by
  refine ⟨?_, by decide +kernel, by decide +kernel, by decide +kernel, runsTo_after (by decide +kernel), by decide +kernel,
    runsTo_after (by decide +kernel), runsTo_after (by decide +kernel), runsTo_after (by decide +kernel),
    runsTo_after (by decide +kernel), by decide +kernel⟩
  unfold State.holds; decide +kernel

/-! ### Witnesses: operand errors, at the boundaries -/

/-- Vector LE15. -/
theorem witness_LengthAboveCapacityFails :
    { base with bufLen := base.bufLen.set 0 1025 }.params.bufCap < { base with bufLen := base.bufLen.set 0 1025 }.len 0 := by
  decide +kernel

/-- Vector BP12, and a second length of `BUF_CAP + 1`. -/
theorem witness_BitsAboveLengthFails :
    (let s := loadedBits base 1 [0x20, 0x90, 0xA0, 0x10, 0x22, 0x17] 49
     s.len 1 ≤ s.params.bufCap ∧ 8 * s.len 1 < s.bits 1) ∧
    (let s := { base with bufLen := base.bufLen.set 3 1025 }
     s.len 0 ≤ s.params.bufCap ∧ s.params.bufCap < s.len 3) := by decide +kernel

/-- Vectors LE13 and LE14. -/
theorem witness_MaxDictOutOfRangeFails :
    (base.len 0 ≤ base.params.bufCap ∧ base.bits 0 ≤ 8 * base.len 0) ∧ { base with maxDict := 255 }.maxDict.toNat < 256 ∧
      base.params.dictCap < { base with maxDict := 4097 }.maxDict.toNat := by decide +kernel

/-- Widths 7 and `W_MAX + 1`. -/
theorem witness_WidthOutOfRangeFails :
    { base with bitWidth := 7 }.bitWidth.toNat < 8 ∧ wMax base.params < { base with bitWidth := 13 }.bitWidth.toNat ∧
      wMax base.params = 12 ∧ base.len 1 ≤ base.params.bufCap ∧ base.bits 1 ≤ 8 * base.len 1 ∧ 256 ≤ base.maxDict.toNat ∧
      base.maxDict.toNat ≤ base.params.dictCap := by decide +kernel

/-- Vectors BP10 and BP5, the second after one code that fits. -/
theorem witness_CodePackOperandErrors :
    (8 ≤ base.bitWidth.toNat ∧ base.bitWidth.toNat ≤ wMax base.params ∧
      base.params.codeCap < { base with codeCount := 1025 }.codeCount.toNat) ∧
    (let s := base.writeCodes [255, 256]
     s.codeCount.toNat ≤ s.params.codeCap ∧ [(255 : Word)].length < s.codeCount.toNat ∧
       (∀ i (h : i < [(255 : Word)].length), cellGet s.codes i = some [(255 : Word)][i] ∧
         [(255 : Word)][i].toNat < 2 ^ s.bitWidth.toNat) ∧
       cellGet s.codes [(255 : Word)].length = some 256 ∧ 2 ^ s.bitWidth.toNat ≤ (256 : Word).toNat) := by decide +kernel

/-- Vectors HK4, HE6 and HD10. -/
theorem witness_TreeAndBookAreNeeded :
    base.status.treeValid = false ∧ base.len 0 ≤ base.params.bufCap ∧ base.status.bookValid = false ∧
      base.bits 0 ≤ 8 * base.len 0 := by decide +kernel

/-- A core with buffers of 8 bytes. -/
def small : State := { State.resetOf ⟨7, 3840⟩ with maxDict := 4096, bitWidth := 9 }

def abcdefgh : List Nat := [65, 66, 67, 68, 69, 70, 71, 72]

theorem small_codes : (small.writeCodes abcdefgh).holdsCodes abcdefgh := by
  refine ⟨by decide +kernel, fun i h => ?_⟩
  have : ∀ j, (hj : j < 8) → cellGet (small.writeCodes abcdefgh).codes j = some (BitVec.ofNat 32 (abcdefgh[j]'hj)) ∧
      (BitVec.ofNat 32 (abcdefgh[j]'hj)).toNat = abcdefgh[j]'hj := by decide +kernel
  exact ⟨_, this i h⟩

/-- Vector LE12, and the same codes packed by `CODE_PACK`. -/
theorem witness_PackedStreamAboveCapacityFails :
    (let s := loaded small 0 abcdefgh
     s.holds 0 (bytes abcdefgh) ∧ (bytes abcdefgh).length ≤ s.params.bufCap ∧ 256 ≤ s.maxDict.toNat ∧
       s.maxDict.toNat ≤ s.params.dictCap ∧
       s.params.bufCap < bytesFor ((lzwEncode (bytes abcdefgh) s.maxDict.toNat).codes.length *
         clog2 (lzwEncode (bytes abcdefgh) s.maxDict.toNat).nextCode)) ∧
    (small.writeCodes abcdefgh).holdsCodes abcdefgh ∧ 9 ≤ wMax small.params ∧ 8 ≤ small.params.codeCap ∧
      (∀ c ∈ abcdefgh, c < 2 ^ 9) ∧ small.params.bufCap < bytesFor (8 * 9) := by
  refine ⟨?_, small_codes, by decide +kernel, by decide +kernel, by decide, by decide +kernel⟩
  unfold State.holds; decide +kernel

/-! ### Witnesses: whole-machine rules and invariants -/

/-- `HUF_BOOK` after reset fails (vector HK4). -/
def failed : State := after base .hufBook

theorem witness_FailureCommitsNothing :
    exec .hufBook (base.latch 0x07) = .next failed ∧ failed.status.err ≠ .none :=
  ⟨runsTo_after (s := base) (i := .hufBook) (by decide +kernel), by decide +kernel⟩

theorem witness_FailedCommandFailsAgain : base.runsTo .hufBook failed ∧ failed.status.err ≠ .none :=
  ⟨runsTo_after (by decide +kernel), by decide +kernel⟩

/-- A next state of each kind for the frames: a command that writes, and one that fails. -/
theorem witness_RegisterAndTableFrame :
    exec (.lzwEnc 0 1) (le4.latch 0x41) = .next le4Done ∧ exec .hufBook (base.latch 0x07) = .next failed :=
  ⟨runsTo_after (s := le4) (i := .lzwEnc 0 1) (by decide +kernel),
    runsTo_after (s := base) (i := .hufBook) (by decide +kernel)⟩

/-- The first byte below `BUF1` and the first beyond the six written. -/
theorem witness_MemoryFrame :
    exec (.lzwEnc 0 1) (le4.latch 0x41) = .next le4Done ∧ writesBuffer (.lzwEnc 0 1) = some 1 ∧
      0x1FFFFFFF < bufBase 1 ∧ bufBase 1 + le4Done.len 1 ≤ 0x20000006 ∧ le4Done.codeCount.toNat ≤ 5 :=
  ⟨runsTo_after (s := le4) (i := .lzwEnc 0 1) (by decide +kernel), rfl, by decide, by decide +kernel, by decide +kernel⟩

/-- `HUF_ENC b0, b1` on `"A"`, about to run, with the tree HB1 and its codebook. -/
def running : State := (loaded huf 0 [0x41]).withFetchWord 32 0x48

def ran : State :=
  match step running with
  | .next t => t
  | _ => running

theorem running_steps : step running = .next ran := by
  have h : (match step running with | .next _ => true | _ => false) = true := by decide +kernel
  unfold ran
  split at h
  · rename_i t ht; rw [ht]
  · cases h

theorem witness_StepKeepsMemory : running.MemoryInv ∧ step running = .next ran := by
  refine ⟨⟨by decide +kernel, ?_, by decide +kernel, ?_⟩, running_steps⟩
  · intro c hc
    have : running.mem = [(0x10000000, 0x41)] := by decide +kernel
    rw [this, List.mem_singleton] at hc
    exact ⟨0, 0, by decide +kernel, by rw [hc]; rfl⟩
  · intro c hc
    have : running.codes = [] := by decide +kernel
    rw [this] at hc; cases hc

theorem witness_StepKeepsStatus : running.StatusInv ∧ failed.StatusInv ∧ step running = .next ran :=
  ⟨⟨by decide +kernel, by decide +kernel, by decide +kernel, by decide +kernel⟩,
    ⟨by decide +kernel, by decide +kernel, by decide +kernel, by decide +kernel⟩, running_steps⟩

theorem witness_StepKeepsNextCode : running.NextCodeInv ∧ step running = .next ran :=
  ⟨by unfold State.NextCodeInv; decide +kernel, running_steps⟩

theorem witness_StepKeepsTree : running.TreeInv ∧ step running = .next ran :=
  ⟨⟨tree_hb1, fun h => by cases h⟩, running_steps⟩

/-- A state with the codebook of its tree, and a command word about to run. -/
def withBook (s : State) (w : Nat) : State :=
  (s.setBook (codebook s.node s.nodeCount.toNat) (longestCode (codebook s.node s.nodeCount.toNat))).withFetchWord 32 w

theorem withBook_inv (s : State) (w : Nat) (h : longestCode (codebook s.node s.nodeCount.toNat) < 2 ^ 32) :
    (withBook s w).BookInv where
  book _ := rfl
  longest _ := by
    show (BitVec.ofNat 32 _).toNat = _
    rw [BitVec.toNat_ofNat, Nat.mod_eq_of_lt h]; rfl

/-- The tree HB1 with its codebook, and a `NOP` about to run. -/
def booked : State := withBook (base.setTree (nodeTable hb1) 7) 0

theorem booked_steps :
    step booked = .next { booked with status := { booked.status with busy := false, done := true } } := by
  have h : decode? booked.cmd = some .nop := by decide +kernel
  rw [step_of_engineTurn (by decide +kernel), engineStep, h]
  exact exec_of_ok (i := .nop) rfl

theorem witness_StepKeepsBook :
    booked.BookInv ∧ booked.status.bookValid = true ∧
      step booked = .next { booked with status := { booked.status with busy := false, done := true } } :=
  ⟨withBook_inv _ _ (by decide +kernel), by decide +kernel, booked_steps⟩

/-! ### Witnesses: host interface -/

theorem witness_IssueLatchesCommand : base.status.busy = false := rfl

/-- The places of the clauses, while busy: `CTRL`, `STATUS`, a read-only register, `CMD`, a reserved word, a table, the two views, a
code, a byte. -/
theorem witness_BusyWritesAreIgnored :
    running.status.busy = true ∧ locate running.params .s32 0x04 = some (.register .ctrl) ∧
      locate running.params .s32 0x08 = some (.register .status) ∧
      locate running.params .s32 0x64 = some (.register .dictCapR) ∧ locate running.params .s32 0x0C = some (.register .cmd) ∧
      locate running.params .s32 0x30 = some (.register .reserved) ∧ locate running.params .s32 0x7FC = some (.freq 255) ∧
      locate running.params .s32 0x3FFC = some (.node 511 3) ∧ locate running.params .s32 0x4000 = some (.book 0 0) ∧
      locate running.params .s32 0x04000FFC = some (.code 1023) ∧
      locate running.params .s8 0x100003FF = some (.buffer 0x100003FF) := by decide +kernel

theorem writes_succeed {s : State} {size : Size} {addr : Word} {l : Location} (v : Word)
    (h : locate s.params size addr = some l) : ∃ t, hostWrite s size addr v = .ok t := by
  unfold hostWrite; rw [h]; exact ⟨_, rfl⟩

theorem witness_BusyReads :
    running.status.busy = true ∧ locate running.params .s32 0x00 = some (.register .id) ∧
      locate running.params .s32 0x0C = some (.register .cmd) ∧ locate running.params .s16 0x100003FE = some (.buffer 0x100003FE) := by
  decide +kernel

/-- The first and the last entry of `CODES`, the edges of the views and of the reserved words. -/
theorem witness_IdleHostWrites :
    base.status.busy = false ∧ 0 < base.params.codeCap ∧ 1023 < base.params.codeCap ∧ 0x2000 < 0x8000 ∧ 0x7FFC % 4 = 0 ∧
      Reg.at 0x30 = .reserved ∧ Reg.at 0x3C = .reserved ∧ Reg.at 0x68 = .reserved ∧ Reg.at 0xFC = .reserved ∧
      0xFC % 4 = 0 := by
  decide +kernel

/-- A word at the end of `BUF0` whose first byte alone was written. -/
theorem witness_HostAccessFaults_word :
    let s := { base with mem := cellPut base.mem 0x100003FC 0x41 }
    s.status.busy = false ∧ 0x10000000 ≤ (0x100003FC : Word).toNat ∧ locate s.params .s32 0x100003FC ≠ none ∧
      1 < Size.bytes .s32 ∧ (∀ j, j < 1 → cellGet s.mem ((0x100003FC : Word).toNat + j) ≠ none) ∧
      cellGet s.mem ((0x100003FC : Word).toNat + 1) = none := by
  decide +kernel

/-- An unwritten byte at the end of `BUF0` and the last unwritten entry of `CODES`. -/
theorem witness_HostAccessFaults :
    base.status.busy = false ∧ locate base.params .s8 0x100003FF ≠ none ∧ cellGet base.mem 0x100003FF = none ∧
      1023 < base.params.codeCap ∧ (0x04000FFC : Word).toNat = 0x04000000 + 4 * 1023 ∧ cellGet base.codes 1023 = none := by
  decide +kernel

theorem witness_BufferAccessIsLittleEndian :
    base.status.busy = false ∧ 0x10000000 ≤ (0x100003FC : Word).toNat ∧ locate base.params .s32 0x100003FC ≠ none := by
  decide +kernel

/-- Vector CT12: a word all of whose bytes were written one by one. -/
theorem witness_BufferAccessIsLittleEndian_read :
    let s := loaded base 0 [0x41, 0x42, 0x43, 0x44]
    s.status.busy = false ∧ locate s.params .s32 0x10000000 ≠ none ∧
      ∀ k, k < Size.bytes .s32 → cellGet s.mem ((0x10000000 : Word).toNat + k) ≠ none := by
  decide +kernel

/-- A present node, the absent slot 511, and a code of 255 bits. -/
theorem witness_TableViews :
    huf.status.busy = false ∧ slotOf huf.node 6 = .internal 9 5 0 ∧ slotOf huf.node 511 = .absent ∧
      ((huf.setBook (huf.book.set 0 (List.replicate 255 true)) 255).bookCode 0).length ≤ 255 := by decide +kernel

/-- `WAIT` with three host steps to go, and with none. -/
theorem witness_WaitReachesCompletion :
    (let s := { running with agent := { HostAgent.idle with host := [.wait], delay := 3 } }
     s.status.busy = true ∧ s.agent.host = .wait :: []) ∧
    (let s := { running with agent := { HostAgent.idle with host := [.wait] } }
     s.status.busy = true ∧ s.agent.host = .wait :: [] ∧ s.agent.delay = 0) := by decide +kernel

/-- A host program that has ended with seven host steps to go. -/
theorem witness_WaitReachesCompletion_ended :
    let s := { running with agent := { HostAgent.idle with delay := 7 } }
    s.status.busy = true ∧ s.agent.host = [] ∧ s.agent.delay = 7 := by decide +kernel

theorem witness_InterruptFollowsDone :
    exec .nop base = .next { base with status := { base.status with busy := false, done := true } } ∧
      base.status.busy = false ∧ (∃ t, hostWrite base .s32 0x0C 0 = .ok t) ∧ (2 : Word).getLsbD 1 = true ∧
      (∃ t, hostWrite base .s32 0x08 2 = .ok t) ∧ (after base .nop).status.done = true ∧
      ∃ t, hostWrite (after base .nop) .s32 0x04 1 = .ok t :=
  ⟨rfl, rfl, writes_succeed 0 rfl, by decide, writes_succeed 2 rfl, by decide +kernel,
    writes_succeed (l := .register .ctrl) 1 (by decide +kernel)⟩

end Sys2Proof.Tests
end

/-! # The codebook of a frequency table

The queue of `HUF_BUILD` is a forest: each waiting node is the root of a binary tree whose leaves are slots of the arena. A merge
joins two of these trees, so the last arena holds one tree, and its leaves are the symbols that occur (rules R163 to R165).
`HUF_BOOK` walks that tree, and a tree of at most 256 leaves has no path of more than 255 edges (rule R9). -/

namespace Sys2Proof.Machine

/-! ### Codebook entries written one by one -/

/-- A codebook after the entries `entries` are written into it in their order. -/
def setCodes (entries : List (Byte × List Bool)) (book : Vector (List Bool) 256) : Vector (List Bool) 256 :=
  entries.foldl (fun b e => b.set e.1.toNat e.2 e.1.isLt) book

theorem setCodes_append (es fs : List (Byte × List Bool)) (book : Vector (List Bool) 256) :
    setCodes (es ++ fs) book = setCodes fs (setCodes es book) := List.foldl_append

/-- A code of the result is one of those written for its symbol, or the old one where none was. -/
theorem setCodes_getElem (es : List (Byte × List Bool)) (book : Vector (List Bool) 256) (v : Byte) :
    (v, (setCodes es book)[v.toNat]'v.isLt) ∈ es ∨
      (v ∉ es.map Prod.fst ∧ (setCodes es book)[v.toNat]'v.isLt = book[v.toNat]'v.isLt) := by
  induction es generalizing book with
  | nil => exact .inr ⟨by simp, rfl⟩
  | cons e es ih =>
    change (v, (setCodes es (book.set e.1.toNat e.2 e.1.isLt))[v.toNat]'v.isLt) ∈ e :: es ∨ _
    rcases ih (book.set e.1.toNat e.2 e.1.isLt) with hmem | ⟨hnot, hkeep⟩
    · exact .inl (List.mem_cons_of_mem _ hmem)
    · by_cases hv : e.1 = v
      · subst hv
        left
        rw [hkeep]
        simp
      · right
        exact ⟨List.not_mem_cons_of_ne_of_not_mem (Ne.symm hv) hnot,
          hkeep.trans (Vector.getElem_set_ne _ _ fun h => hv (BitVec.eq_of_toNat_eq h))⟩

@[simp] theorem emptyBook_getElem (i : Nat) (h : i < 256) : emptyBook[i] = [] := by simp [emptyBook]

/-! ### Huffman trees and the slots that hold them -/

/-- A Huffman tree, without the frequencies. -/
inductive HufTree where
  | leaf (v : Byte)
  | node (left right : HufTree)

namespace HufTree

/-- The symbols of the leaves, from left to right. -/
def symbols : HufTree → List Byte
  | leaf v => [v]
  | node l r => l.symbols ++ r.symbols

/-- The symbols with their paths, each path put after `path`: 0 = left, 1 = right (rule R170). -/
def codes (path : List Bool) : HufTree → List (Byte × List Bool)
  | leaf v => [(v, path)]
  | node l r => l.codes (path ++ [false]) ++ r.codes (path ++ [true])

/-- The entries of the codebook: the paths from the root, and `[0]` for a tree of one leaf (rules R169 to R171). -/
def entries : HufTree → List (Byte × List Bool)
  | leaf v => [(v, [false])]
  | node l r => (node l r).codes []

theorem symbols_length_pos : (t : HufTree) → 0 < t.symbols.length
  | leaf _ => Nat.zero_lt_one
  | node l r => by simp [symbols, symbols_length_pos l]

theorem codes_fst (t : HufTree) (path : List Bool) : (t.codes path).map Prod.fst = t.symbols := by
  induction t generalizing path with
  | leaf v => rfl
  | node l r ihl ihr => simp [codes, symbols, ihl, ihr]

/-- A path has fewer edges than the tree has leaves. -/
theorem length_of_mem_codes {t : HufTree} {path : List Bool} {e : Byte × List Bool} (h : e ∈ t.codes path) :
    path.length ≤ e.2.length ∧ e.2.length < path.length + t.symbols.length := by
  induction t generalizing path with
  | leaf v =>
    obtain rfl := List.mem_singleton.1 h
    simp [symbols]
  | node l r ihl ihr =>
    have hl := l.symbols_length_pos
    have hr := r.symbols_length_pos
    rw [symbols, List.length_append]
    rcases List.mem_append.1 h with h | h
    · obtain ⟨hle, hlt⟩ := ihl h
      rw [List.length_append, List.length_singleton] at hle hlt
      omega
    · obtain ⟨hle, hlt⟩ := ihr h
      rw [List.length_append, List.length_singleton] at hle hlt
      omega

theorem entries_fst : (t : HufTree) → t.entries.map Prod.fst = t.symbols
  | leaf _ => rfl
  | node l r => (node l r).codes_fst []

/-- The codes of a tree of at most 256 leaves are neither empty nor longer than 255 bits (rule R9). -/
theorem entries_bounds {t : HufTree} (ht : t.symbols.length ≤ 256) {e : Byte × List Bool} (h : e ∈ t.entries) :
    e.2 ≠ [] ∧ e.2.length ≤ 255 := by
  cases t with
  | leaf v =>
    obtain rfl := List.mem_singleton.1 h
    simp
  | node l r =>
    constructor
    · rcases List.mem_append.1 h with h | h <;> exact List.ne_nil_of_length_pos (length_of_mem_codes h).1
    · have hlt := (length_of_mem_codes (t := node l r) h).2
      rw [List.length_nil] at hlt
      omega

end HufTree

/-- The slots hold the tree `t` at index `k` (rule R49). -/
def Represents (slot : Nat → Slot) : Nat → HufTree → Prop
  | k, .leaf v => ∃ f, slot k = .leaf v f
  | k, .node l r => ∃ f i j, slot k = .internal f i j ∧ Represents slot i.toNat l ∧ Represents slot j.toNat r

theorem Represents.ne_absent {slot : Nat → Slot} {k : Nat} {t : HufTree} (h : Represents slot k t) : slot k ≠ .absent := by
  cases t with
  | leaf v => obtain ⟨f, hk⟩ := h; simp [hk]
  | node l r => obtain ⟨f, i, j, hk, -⟩ := h; simp [hk]

/-- A tree stays where it is when absent slots alone are filled. -/
theorem Represents.mono {slot slot' : Nat → Slot} (hs : ∀ i, slot i ≠ .absent → slot' i = slot i) {k : Nat} {t : HufTree}
    (h : Represents slot k t) : Represents slot' k t := by
  have hk' := hs k h.ne_absent
  induction t generalizing k with
  | leaf v => obtain ⟨f, hk⟩ := h; exact ⟨f, hk'.trans hk⟩
  | node l r ihl ihr =>
    obtain ⟨f, i, j, hk, hl, hr⟩ := h
    exact ⟨f, i, j, hk'.trans hk, ihl hl (hs _ hl.ne_absent), ihr hr (hs _ hr.ne_absent)⟩

/-- The walk writes the paths of the tree, in the order of its leaves; fuel for one node per leaf suffices (rule R170). -/
theorem walk_eq_setCodes {node : Vector Slot 511} {t : HufTree} {fuel k : Nat} (path : List Bool)
    (book : Vector (List Bool) 256) (h : Represents (slotOf node) k t) (hf : t.symbols.length ≤ fuel) :
    walk node fuel k path book = setCodes (t.codes path) book := by
  induction t generalizing fuel k path book with
  | leaf v =>
    obtain ⟨f, hk⟩ := h
    obtain ⟨fuel, rfl⟩ := Nat.exists_eq_add_of_lt hf
    simp [walk, hk, Slot.isLeaf, Slot.sym, HufTree.codes, setCodes]
  | node l r ihl ihr =>
    obtain ⟨f, i, j, hk, hl, hr⟩ := h
    have hposl := l.symbols_length_pos
    have hposr := r.symbols_length_pos
    rw [HufTree.symbols, List.length_append] at hf
    obtain ⟨fuel, rfl⟩ : ∃ m, fuel = m + 1 := ⟨fuel - 1, by omega⟩
    simp only [walk, hk, Slot.isLeaf, Slot.left, Slot.right, HufTree.codes, setCodes_append]
    rw [if_neg (by simp), ihl _ _ hl (by omega), ihr _ _ hr (by omega)]

/-- The codebook of a tree, from its root in the last of its slots (rules R169, R171). -/
theorem codebook_eq_setCodes {node : Vector Slot 511} {n : Nat} {t : HufTree} (h : Represents (slotOf node) (n - 1) t)
    (hn : n + 1 = 2 * t.symbols.length) (hs : t.symbols.length ≤ 511) : codebook node n = setCodes t.entries emptyBook := by
  cases t with
  | leaf v =>
    obtain rfl : n = 1 := by simpa [HufTree.symbols] using hn
    obtain ⟨f, hk⟩ := h
    simp [codebook, HufTree.entries, setCodes, hk, Slot.sym]
  | node l r =>
    have hposl := l.symbols_length_pos
    have hposr := r.symbols_length_pos
    have hlen : (HufTree.node l r).symbols.length = l.symbols.length + r.symbols.length := List.length_append
    rw [codebook, if_neg (by omega), if_neg (by omega), walk_eq_setCodes [] _ h hs]
    rfl

/-! ### The leaves and the queue -/

/-- The leaves are those of the nonzero frequencies, in the order of the symbols (rule R163). -/
theorem leavesFrom_eq_filterMap (v : Nat) (fs : List Word) :
    leavesFrom v fs =
      (fs.zipIdx v).filterMap fun p => if p.1 = 0 then none else some (.leaf (BitVec.ofNat 8 p.2) (p.1.setWidth 40)) := by
  induction fs generalizing v with
  | nil => rfl
  | cons f fs ih =>
    rw [leavesFrom, List.zipIdx_cons, List.filterMap_cons, ih]
    by_cases hf : f = 0
    · simp only [if_pos hf]
    · simp only [if_neg hf]

/-- The symbols of the leaves of a frequency table. -/
def occurring (freq : Vector Word 256) : List Byte := (leavesFrom 0 freq.toList).map Slot.sym

theorem occurring_length_le (freq : Vector Word 256) : (occurring freq).length ≤ 256 := by
  rw [occurring, List.length_map, leavesFrom_eq_filterMap]
  exact (List.length_filterMap_le ..).trans (by simp)

theorem mem_occurring {freq : Vector Word 256} {v : Byte} : v ∈ occurring freq ↔ freq[v.toNat]'v.isLt ≠ 0 := by
  simp only [occurring, leavesFrom_eq_filterMap, List.mem_map, List.mem_filterMap, Prod.exists, List.mem_zipIdx_iff_getElem?]
  constructor
  · rintro ⟨n, ⟨f, i, hi, hn⟩, rfl⟩
    split at hn
    · cases hn
    · rename_i hf
      obtain rfl := Option.some.inj hn
      obtain ⟨hlt, hfi⟩ := List.getElem?_eq_some_iff.1 hi
      rw [Vector.length_toList] at hlt
      simp only [Slot.sym, BitVec.toNat_ofNat, Nat.mod_eq_of_lt hlt]
      rw [← hfi] at hf
      exact hf
  · intro hv
    exact ⟨_, ⟨freq[v.toNat]'v.isLt, v.toNat, by simp, if_neg hv⟩, by simp [Slot.sym]⟩

theorem leaf_of_mem_leavesFrom {v : Nat} {fs : List Word} {n : Slot} (h : n ∈ leavesFrom v fs) : ∃ f, n = .leaf n.sym f := by
  rw [leavesFrom_eq_filterMap] at h
  obtain ⟨p, -, hn⟩ := List.mem_filterMap.1 h
  split at hn
  · cases hn
  · obtain rfl := Option.some.inj hn
    exact ⟨_, rfl⟩

theorem enqueue_perm (a : QNode) (q : List QNode) : (enqueue a q).Perm (a :: q) := by
  induction q with
  | nil => exact .refl _
  | cons b q ih =>
    rw [enqueue]
    split
    · exact .refl _
    · exact (ih.cons b).trans (.swap a b q)

/-- The waiting node of a slot and its index. -/
def QNode.ofSlot (p : Slot × Nat) : QNode := { freq := p.1.freq.toNat, idx := p.2 }

/-- The queue holds each node of the arena once (rule R162). -/
theorem queueFrom_perm (k : Nat) (ns : List Slot) :
    (queueFrom k ns).Perm ((ns.zipIdx k).map QNode.ofSlot) := by
  induction ns generalizing k with
  | nil => exact .refl _
  | cons n ns ih => exact (enqueue_perm _ _).trans ((ih (k + 1)).cons _)

theorem queueFrom_length (k : Nat) (ns : List Slot) : (queueFrom k ns).length = ns.length := by
  simp [(queueFrom_perm k ns).length_eq]

/-! ### The merges -/

/-- The internal node that joins two nodes of the queue (rule R164). -/
def mergedSlot (a b : QNode) : Slot :=
  .internal (BitVec.ofNat 40 (a.freq + b.freq)) (BitVec.ofNat 9 a.idx) (BitVec.ofNat 9 b.idx)

/-- What every merge keeps holds of the last arena, where at most one node waits (rule R165). -/
theorem mergeAll_induction {P : List Slot → List QNode → Prop}
    (merge : ∀ arena a b q, P arena (a :: b :: q) →
      P (arena ++ [mergedSlot a b]) (enqueue { freq := a.freq + b.freq, idx := arena.length } q))
    {fuel : Nat} {arena : List Slot} {queue : List QNode} (h : P arena queue) (hf : queue.length ≤ fuel + 1) :
    ∃ last, last.length ≤ 1 ∧ P (mergeAll fuel arena queue) last := by
  induction fuel generalizing arena queue with
  | zero => exact ⟨queue, hf, by simpa [mergeAll] using h⟩
  | succ fuel ih =>
    match queue with
    | [] => exact ⟨[], by simp, h⟩
    | [a] => exact ⟨[a], by simp, h⟩
    | a :: b :: q =>
      refine ih (merge arena a b q h) ?_
      rw [(enqueue_perm _ _).length_eq]
      simpa using hf

/-- The slots of an arena; those beyond it are absent (rule R162). -/
def arenaSlot (arena : List Slot) (i : Nat) : Slot := arena.getD i .absent

theorem arenaSlot_append {arena : List Slot} {i : Nat} (h : arenaSlot arena i ≠ .absent) (more : List Slot) :
    i < arena.length ∧ arenaSlot (arena ++ more) i = arenaSlot arena i := by
  by_cases hi : i < arena.length
  · exact ⟨hi, List.getD_append _ _ _ _ hi⟩
  · exact absurd (by simp [arenaSlot, Nat.le_of_not_lt hi]) h

@[simp] theorem arenaSlot_append_length (arena : List Slot) (n : Slot) : arenaSlot (arena ++ [n]) arena.length = n := by
  simp [arenaSlot]

/-- The arena between two merges: the waiting nodes are the roots of trees whose leaves are the symbols `symbols`, each once; one
more leaf than merges; and the only node waiting is the newest (rules R164, R165). -/
structure MergeInv (symbols : List Byte) (arena : List Slot) (queue : List QNode) : Prop where
  trees : ∃ ts, List.Forall₂ (fun q t => Represents (arenaSlot arena) q.idx t) queue ts ∧
    (ts.flatMap HufTree.symbols).Perm symbols
  size : arena.length + queue.length = 2 * symbols.length
  root : ∀ q, queue = [q] → q.idx + 1 = arena.length

theorem MergeInv.merge {symbols : List Byte} (hs : symbols.length ≤ 256) {arena : List Slot} {a b : QNode} {q : List QNode}
    (h : MergeInv symbols arena (a :: b :: q)) :
    MergeInv symbols (arena ++ [mergedSlot a b]) (enqueue { freq := a.freq + b.freq, idx := arena.length } q) := by
  obtain ⟨⟨_, hts, hsym⟩, hsize, -⟩ := h
  have hkeep : ∀ {k t}, Represents (arenaSlot arena) k t → Represents (arenaSlot (arena ++ [mergedSlot a b])) k t :=
    fun hk => hk.mono fun _ hi => (arenaSlot_append hi _).2
  have hq := enqueue_perm { freq := a.freq + b.freq, idx := arena.length } q
  obtain ⟨ta, _, ha, hrest, rfl⟩ := List.forall₂_cons_left_iff.1 hts
  obtain ⟨tb, ts, hb, hq', rfl⟩ := List.forall₂_cons_left_iff.1 hrest
  have hia := (arenaSlot_append ha.ne_absent []).1
  have hib := (arenaSlot_append hb.ne_absent []).1
  simp only [List.length_cons] at hsize
  refine ⟨?_, ?_, ?_⟩
  · have hnew : Represents (arenaSlot (arena ++ [mergedSlot a b])) arena.length (.node ta tb) := by
      refine ⟨_, _, _, arenaSlot_append_length .., ?_, ?_⟩
      · rw [BitVec.toNat_ofNat, Nat.mod_eq_of_lt (by omega)]
        exact hkeep ha
      · rw [BitVec.toNat_ofNat, Nat.mod_eq_of_lt (by omega)]
        exact hkeep hb
    obtain ⟨ts', hts', hperm⟩ := List.perm_comp_forall₂ hq (.cons hnew (hq'.imp fun _ _ => hkeep))
    refine ⟨ts', hts', (hperm.flatMap_right _).trans ?_⟩
    simpa [HufTree.symbols] using hsym
  · rw [hq.length_eq, List.length_append, List.length_singleton, List.length_cons]
    omega
  · intro x hx
    rw [hx] at hq
    obtain ⟨rfl, -⟩ := List.cons.inj (List.singleton_perm.1 hq)
    simp

/-- The leaves of a frequency table and their queue, before the first merge. -/
theorem mergeInv_leaves (freq : Vector Word 256) :
    MergeInv (occurring freq) (leavesFrom 0 freq.toList) (queueFrom 0 (leavesFrom 0 freq.toList)) := by
  have hleaf : ∀ n ∈ leavesFrom 0 freq.toList, ∃ f, n = .leaf n.sym f := fun _ => leaf_of_mem_leavesFrom
  unfold occurring
  generalize leavesFrom 0 freq.toList = leaves at hleaf
  refine ⟨?_, by simp [queueFrom_length, two_mul], ?_⟩
  · have hts : List.Forall₂ (fun (q : QNode) t => Represents (arenaSlot leaves) q.idx t)
        ((leaves.zipIdx 0).map QNode.ofSlot) (leaves.map fun n => .leaf n.sym) := by
      refine List.forall₂_iff_get.2 ⟨by simp, fun i hi _ => ?_⟩
      have hi : i < leaves.length := by simpa using hi
      obtain ⟨f, hf⟩ := hleaf _ (List.getElem_mem hi)
      have hrep : Represents (arenaSlot leaves) i (.leaf leaves[i].sym) := ⟨f, (List.getD_eq_getElem _ _ hi).trans hf⟩
      simpa [QNode.ofSlot] using hrep
    obtain ⟨ts, hts, hperm⟩ := List.perm_comp_forall₂ (queueFrom_perm 0 leaves) hts
    refine ⟨ts, hts, (hperm.flatMap_right _).trans ?_⟩
    simp [List.flatMap_map, HufTree.symbols, ← List.map_eq_flatMap]
  · intro x hx
    have hlen : leaves.length = 1 := by rw [← queueFrom_length 0, hx]; rfl
    obtain ⟨n, rfl⟩ := List.length_eq_one_iff.1 hlen
    obtain ⟨rfl, -⟩ := List.cons.inj hx
    rfl

theorem mergeInv_buildArena (freq : Vector Word 256) :
    ∃ last, last.length ≤ 1 ∧ MergeInv (occurring freq) (buildArena freq) last :=
  mergeAll_induction (fun _ _ _ _ => MergeInv.merge (occurring_length_le freq)) (mergeInv_leaves freq)
    (by rw [queueFrom_length]; exact Nat.le_succ _)

/-- The arena of a frequency table in which some symbol occurs holds one tree, with its root in the last slot and the symbols that
occur for leaves (rules R163 to R165). -/
theorem buildArena_represents (freq : Vector Word 256) (h : occurring freq ≠ []) :
    ∃ t, Represents (arenaSlot (buildArena freq)) ((buildArena freq).length - 1) t ∧ t.symbols.Perm (occurring freq) ∧
      (buildArena freq).length + 1 = 2 * t.symbols.length := by
  obtain ⟨last, hlast, ⟨ts, hts, hsym⟩, hsize, hroot⟩ := mergeInv_buildArena freq
  cases hts with
  | nil => exact absurd (List.nil_perm.1 hsym) h
  | @cons q t q' ts hrep hts =>
    obtain rfl : q' = [] := by simpa using hlast
    cases hts
    have hsym : t.symbols.Perm (occurring freq) := by simpa using hsym
    refine ⟨t, ?_, hsym, by rw [hsym.length_eq]; exact hsize⟩
    rw [← hroot q rfl]
    exact hrep

/-- With no symbol the arena is empty (rule R163). -/
theorem buildArena_eq_nil {freq : Vector Word 256} (h : occurring freq = []) : buildArena freq = [] := by
  simp [buildArena, List.map_eq_nil_iff.1 h, mergeAll]

/-- The codebook of a frequency table is written entry by entry, one for each symbol that occurs, none of them empty and none
longer than 255 bits (rules R9, R163, R169). -/
theorem codebook_buildArena (freq : Vector Word 256) :
    ∃ es, codebook (nodeTable (buildArena freq)) (buildArena freq).length = setCodes es emptyBook ∧
      (es.map Prod.fst).Perm (occurring freq) ∧ ∀ e ∈ es, e.2 ≠ [] ∧ e.2.length ≤ 255 := by
  by_cases h : occurring freq = []
  · exact ⟨[], by simp [buildArena_eq_nil h, codebook, setCodes], by simp [h], by simp⟩
  · obtain ⟨t, hrep, hsym, hlen⟩ := buildArena_represents freq h
    have hle : t.symbols.length ≤ 256 := hsym.length_eq.trans_le (occurring_length_le freq)
    have hslots : slotOf (nodeTable (buildArena freq)) = arenaSlot (buildArena freq) :=
      funext (slotOf_nodeTable (by omega))
    exact ⟨t.entries, codebook_eq_setCodes (hslots ▸ hrep) hlen (by omega), t.entries_fst ▸ hsym,
      fun _ => HufTree.entries_bounds hle⟩

/-- Settles O26: each code is one of the entries written, whose symbols are those that occur, or is empty as before the walk. -/
theorem codesOfOccurringSymbols : Obligations.CodesOfOccurringSymbols := by
  rintro freq _ v rfl
  obtain ⟨es, hbook, hsym, hbounds⟩ := codebook_buildArena freq
  rw [← mem_occurring, ← hsym.mem_iff, hbook]
  rcases setCodes_getElem es emptyBook v with hmem | ⟨hnot, hempty⟩
  · obtain ⟨hne, hlen⟩ := hbounds _ hmem
    exact ⟨iff_of_true hne (List.mem_map_of_mem hmem), hlen⟩
  · rw [hempty, emptyBook_getElem]
    exact ⟨iff_of_false (by simp) hnot, by simp⟩

end Sys2Proof.Machine

/-! # What can stop a command

Every stop of a command is an error other than `none`, or the read of an unwritten cell among its operands (rules R59, R87, R221). -/

namespace Sys2Proof.Machine

/-- Every stop of an evaluation meets `P`. -/
def StopsIn {α : Type} (P : Stop → Prop) (x : Except Stop α) : Prop := ∀ e, x = .error e → P e

namespace StopsIn

variable {α β : Type} {P : Stop → Prop}

theorem ok (a : α) : StopsIn P (.ok a) := nofun

theorem error {e : Stop} (h : P e) : StopsIn P (.error e : Except Stop α) := fun _ he => by cases he; exact h

theorem bind {x : Except Stop α} {f : α → Except Stop β} (hx : StopsIn P x) (hf : ∀ a, x = .ok a → StopsIn P (f a)) :
    StopsIn P (x >>= f) :=
  fun e h => (bind_eq_error.1 h).elim (hx e) fun ⟨a, ha, he⟩ => hf a ha e he

theorem require {p : Prop} [Decidable p] {stop : Stop} (h : P stop) : StopsIn P (require p stop) :=
  fun _ he => (require_eq_error.1 he).2 ▸ h

end StopsIn

/-! ### Evaluations that read no cell -/

section Raises

variable {β : Type} {P : Stop → Prop} (hP : ∀ e info value, e ≠ ErrCode.none → P (.raise e info value))

include hP

theorem require_stops {p : Prop} [Decidable p] {e : ErrCode} {info value : Nat} (he : e ≠ .none := by decide) :
    StopsIn P (require p (.raise e info value)) := .require (hP _ _ _ he)

theorem lenOperand_stops {s : State} {n : BufId} {f : Nat → Except Stop β} (hf : StopsIn P (f (s.len n))) :
    StopsIn P (s.lenOperand n >>= f) := by
  refine .bind (.bind (require_stops hP) fun _ _ => .ok _) fun len hlen => ?_
  obtain ⟨-, rfl⟩ := lenOperand_eq_ok.1 hlen
  exact hf

theorem bitsOperand_stops {s : State} {n : BufId} {len : Nat} {f : Nat → Except Stop β}
    (hf : s.bits n ≤ 8 * len → StopsIn P (f (s.bits n))) : StopsIn P (s.bitsOperand n len >>= f) := by
  refine .bind (.bind (require_stops hP) fun _ _ => .ok _) fun nbits hbits => ?_
  obtain ⟨hle, rfl⟩ := bitsOperand_eq_ok.1 hbits
  exact hf hle

theorem codeCountOperand_stops {s : State} {f : Nat → Except Stop β} (hf : StopsIn P (f s.codeCount.toNat)) :
    StopsIn P (s.codeCountOperand >>= f) := by
  refine .bind (.bind (require_stops hP) fun _ _ => .ok _) fun count hcount => ?_
  obtain ⟨-, rfl⟩ := codeCountOperand_eq_ok.1 hcount
  exact hf

theorem maxDictOperand_stops {s : State} : StopsIn P s.maxDictOperand := .bind (require_stops hP) fun _ _ => .ok _

theorem widthOperand_stops {s : State} : StopsIn P s.widthOperand := .bind (require_stops hP) fun _ _ => .ok _

theorem lzwEntry_stops {m : Nat} {d : Dict} {prev : List Byte} {i c : Nat} : StopsIn P (lzwEntry m d prev i c) := by
  unfold lzwEntry
  split_ifs
  · exact .ok _
  · exact .ok _
  · exact .error (hP _ _ _ nofun)

theorem lzwDecodeFrom_stops {m cap : Nat} {d : Dict} {frozen : Bool} {prev : List Byte} {i len : Nat} {codes : List Nat} :
    StopsIn P (lzwDecodeFrom m cap d frozen prev i len codes) := by
  induction codes generalizing d frozen prev i len with
  | nil => exact .ok _
  | cons c cs ih =>
    refine .bind (lzwEntry_stops hP) fun entry _ => .bind (require_stops hP) fun _ _ => ?_
    extract_lets next
    split_ifs <;> exact .bind ih fun _ _ => .ok _

theorem lzwDecode_stops {m cap : Nat} {codes : List Nat} : StopsIn P (lzwDecode m cap codes) := by
  cases codes with
  | nil => exact .ok _
  | cons c cs =>
    exact .bind (require_stops hP) fun _ _ => .bind (lzwDecodeFrom_stops hP) fun _ _ => .ok _

theorem decodeOneLeaf_stops {sym : Byte} {cap k len : Nat} {bits : List Bool} :
    StopsIn P (decodeOneLeaf sym cap k len bits) := by
  induction bits generalizing k len with
  | nil => exact .ok _
  | cons b bs ih =>
    exact .bind (require_stops hP) fun _ _ => .bind (require_stops hP) fun _ _ =>
      .bind ih fun _ _ => .ok _

theorem decodeTree_stops {node : Vector Slot 511} {root cap cur depth k len : Nat} {bits : List Bool} :
    StopsIn P (decodeTree node root cap cur depth k len bits) := by
  induction bits generalizing cur depth k len with
  | nil => exact .bind (require_stops hP) fun _ _ => .ok _
  | cons b bs ih =>
    unfold decodeTree
    extract_lets next
    split_ifs
    · exact .bind (require_stops hP) fun _ _ => .bind ih fun _ _ => .ok _
    · exact ih

theorem hufDecode_stops {node : Vector Slot 511} {n cap : Nat} {stream : List Bool} :
    StopsIn P (hufDecode node n cap stream) := by
  unfold hufDecode
  split_ifs
  · cases stream with
    | nil => exact .ok _
    | cons b bs => exact .error (hP _ _ _ nofun)
  · exact decodeOneLeaf_stops hP
  · exact decodeTree_stops hP

end Raises

/-! ### Evaluations that read cells -/

section Reads

variable {P : Stop → Prop} {s : State}

theorem readByte_stops {n : BufId} {i : Nat}
    (hu : cellGet s.mem (bufBase n + i) = none → P (.unwritten (bufBase n + i))) : StopsIn P (s.readByte n i) := by
  intro e he
  obtain ⟨hn, rfl⟩ := readByte_eq_error.1 he
  exact hu hn

theorem bytesOperand_stops {n : BufId} {len : Nat}
    (hu : ∀ k, k < len → cellGet s.mem (bufBase n + k) = none → P (.unwritten (bufBase n + k))) :
    StopsIn P (s.bytesOperand n len) := by
  intro e he
  obtain ⟨j, hj, rfl, hn⟩ := readBytes_eq_error he
  rw [Nat.zero_add] at hn ⊢
  exact hu j hj hn

theorem streamBits_stops {n : BufId} {nbits len : Nat} (hlen : nbits ≤ 8 * len)
    (hu : ∀ k, k < len → cellGet s.mem (bufBase n + k) = none → P (.unwritten (bufBase n + k))) :
    StopsIn P (s.streamBits n nbits) := by
  intro e he
  obtain ⟨j, hj, rfl, hn⟩ := streamBits_eq_error he
  exact hu j (by unfold bytesFor at hj; omega) hn

variable (hP : ∀ e info value, e ≠ ErrCode.none → P (.raise e info value))

include hP

theorem codesOperand_stops {w i k : Nat}
    (hu : ∀ j, j < i + k → cellGet s.codes j = none → P (.unwritten (codesBase + 4 * j))) :
    StopsIn P (s.codesOperand w i k) := by
  induction k generalizing i with
  | zero => exact .ok _
  | succ k ih =>
    refine .bind (fun e he => ?_) fun c _ => .bind (require_stops hP) fun _ _ =>
      .bind (ih fun j hj => hu j (by omega)) fun _ _ => .ok _
    unfold State.readCode at he
    split at he
    · cases he
    · rename_i hn
      cases he
      exact hu i (by omega) hn

theorem encodeFrom_stops {src : BufId} {i len k : Nat}
    (hu : ∀ j, j < i + k → cellGet s.mem (bufBase src + j) = none → P (.unwritten (bufBase src + j))) :
    StopsIn P (s.encodeFrom src i len k) := by
  induction k generalizing i len with
  | zero => exact .ok _
  | succ k ih =>
    exact .bind (readByte_stops (hu i (by omega))) fun v _ => .bind (require_stops hP) fun _ _ =>
      .bind (require_stops hP) fun _ _ => .bind (ih fun j hj => hu j (by omega)) fun _ _ => .ok _

omit hP in
theorem cmpByte_stops {n : BufId} {len i : Nat}
    (hu : ∀ k, k < len → cellGet s.mem (bufBase n + k) = none → P (.unwritten (bufBase n + k))) :
    StopsIn P (s.cmpByte n len i) := by
  unfold State.cmpByte
  split_ifs with h
  · have hread := readByte_stops (hu i h)
    split
    · exact .ok _
    · rename_i e he
      exact .error (hread e he)
  · exact .ok _

theorem cmpFrom_stops {src dst : BufId} {lenS lenD i k : Nat}
    (hS : ∀ k, k < lenS → cellGet s.mem (bufBase src + k) = none → P (.unwritten (bufBase src + k)))
    (hD : ∀ k, k < lenD → cellGet s.mem (bufBase dst + k) = none → P (.unwritten (bufBase dst + k))) :
    StopsIn P (s.cmpFrom src dst lenS lenD i k) := by
  induction k generalizing i with
  | zero => exact .ok _
  | succ k ih =>
    exact .bind (cmpByte_stops hS) fun _ _ => .bind (cmpByte_stops hD) fun _ _ =>
      .bind (require_stops hP) fun _ _ => ih

end Reads

/-! ### Commands -/

/-- A stop that command `i` may have: an error that rule R221 names, or the read of an unwritten cell of its operands (rule R59). -/
def mayStop (s : State) (i : Instr) : Stop → Prop
  | .raise e _ _ => e ≠ .none
  | .unwritten a =>
    (∃ n ∈ readsBuffers i, ∃ k, k < s.len n ∧ a = bufBase n + k ∧ cellGet s.mem a = none) ∨
      ∃ dst k, i = .codePack dst ∧ k < s.codeCount.toNat ∧ a = codesBase + 4 * k ∧ cellGet s.codes k = none

theorem mayStop_raise (s : State) (i : Instr) (e : ErrCode) (info value : Nat) (h : e ≠ .none) :
    mayStop s i (.raise e info value) := h

theorem mayStop_unwritten {s : State} {i : Instr} {n : BufId} (hn : n ∈ readsBuffers i) (k : Nat) (hk : k < s.len n)
    (h : cellGet s.mem (bufBase n + k) = none) : mayStop s i (.unwritten (bufBase n + k)) :=
  .inl ⟨n, hn, k, hk, rfl, h⟩

/-- Whatever stops a command is a stop it may have. -/
theorem ruleOf_stops (i : Instr) (s : State) : StopsIn (mayStop s i) (ruleOf i s) := by
  have hP := mayStop_raise s i
  cases i with
  | nop => exact .ok _
  | lzwEnc src dst =>
    exact lenOperand_stops hP <| .bind (maxDictOperand_stops hP) fun _ _ =>
      .bind (bytesOperand_stops (mayStop_unwritten (List.mem_singleton_self src))) fun _ _ =>
      .bind (require_stops hP) fun _ _ => .ok _
  | lzwDec src dst =>
    exact lenOperand_stops hP <| bitsOperand_stops hP fun hbits => .bind (maxDictOperand_stops hP) fun _ _ =>
      .bind (widthOperand_stops hP) fun _ _ =>
      .bind (streamBits_stops ((Nat.div_mul_le_self _ _).trans hbits) (mayStop_unwritten (List.mem_singleton_self src)))
        fun _ _ => .bind (lzwDecode_stops hP) fun _ _ => .ok _
  | codePack dst =>
    refine .bind (widthOperand_stops hP) fun _ _ => codeCountOperand_stops hP <|
      .bind (codesOperand_stops hP fun j hj hnone => ?_) fun _ _ => .bind (require_stops hP) fun _ _ => .ok _
    exact .inr ⟨dst, j, rfl, by omega, rfl, hnone⟩
  | codeUnpack src =>
    exact lenOperand_stops hP <| bitsOperand_stops hP fun hbits => .bind (widthOperand_stops hP) fun _ _ =>
      .bind (streamBits_stops hbits (mayStop_unwritten (List.mem_singleton_self src))) fun _ _ => .ok _
  | hufFreq src =>
    exact lenOperand_stops hP <|
      .bind (bytesOperand_stops (mayStop_unwritten (List.mem_singleton_self src))) fun _ _ => .ok _
  | hufBuild => exact .ok _
  | hufBook => exact .bind (require_stops hP) fun _ _ => .ok _
  | hufEnc src dst =>
    refine lenOperand_stops hP <| .bind (require_stops hP) fun _ _ => .bind (encodeFrom_stops hP ?_) fun _ _ => .ok _
    rw [Nat.zero_add]
    exact mayStop_unwritten (List.mem_singleton_self src)
  | hufDec src dst =>
    exact lenOperand_stops hP <| bitsOperand_stops hP fun hbits => .bind (require_stops hP) fun _ _ =>
      .bind (streamBits_stops hbits (mayStop_unwritten (List.mem_singleton_self src))) fun _ _ =>
      .bind (hufDecode_stops hP) fun _ _ => .ok _
  | bufCmp src dst =>
    exact lenOperand_stops hP <| lenOperand_stops hP <|
      .bind (cmpFrom_stops hP (mayStop_unwritten (List.mem_cons_self ..))
        (mayStop_unwritten (List.mem_cons_of_mem _ (List.mem_singleton_self dst)))) fun _ _ => .ok _
  | reset => exact .ok _

/-- A command that raises an error raises one of rule R221's. -/
theorem ruleOf_raises {i : Instr} {s : State} {e : ErrCode} {info value : Nat}
    (h : ruleOf i s = .error (.raise e info value)) : e ≠ .none := ruleOf_stops i s _ h

/-- Settles O42: a command completes, unless its rule reads one of the cells that it may stop at. -/
theorem commandsFaultOnlyOnUnwritten : Obligations.CommandsFaultOnlyOnUnwritten := by
  intro s i
  rw [exec_eq_complete]
  rcases complete_cases s (ruleOf i s) with ⟨t, -, h⟩ | ⟨e, info, value, -, h⟩ | ⟨a, hr, h⟩
  · exact .inl ⟨_, h, rfl, rfl⟩
  · exact .inl ⟨_, h, rfl, rfl⟩
  · exact .inr ⟨a, h, ruleOf_stops i s _ hr⟩

end Sys2Proof.Machine

/-! # What a command commits

One inversion lemma for all commands: the writes of each, with the bounds on what it writes. The frames and the invariants below are
case splits over it. -/

namespace Sys2Proof.Machine

/-! ### Bounds on what the LZW and Huffman loops return -/

theorem nextCode_append (d : Dict) (entry : List Byte) : Dict.nextCode (d ++ [entry]) = d.nextCode + 1 := by
  simp [Dict.nextCode, Nat.add_assoc]

theorem lzwEncodeFrom_bounds {m : Nat} {d : Dict} {frozen : Bool} {cm data : List Byte} (h : d.nextCode ≤ m) :
    (lzwEncodeFrom m d frozen cm data).codes.length ≤ data.length + 1 ∧
      d.nextCode ≤ (lzwEncodeFrom m d frozen cm data).nextCode ∧ (lzwEncodeFrom m d frozen cm data).nextCode ≤ m := by
  induction data generalizing d frozen cm with
  | nil => exact ⟨Nat.le_refl _, Nat.le_refl _, h⟩
  | cons b bs ih =>
    simp only [lzwEncodeFrom]
    split
    · obtain ⟨hlen, hlo, hhi⟩ := ih (frozen := frozen) (cm := cm ++ [b]) h
      exact ⟨hlen.trans (Nat.le_succ _), hlo, hhi⟩
    · split_ifs with hm
      · obtain ⟨hlen, hlo, hhi⟩ := ih (frozen := frozen) (cm := [b]) ((nextCode_append ..).trans_le hm)
        rw [nextCode_append] at hlo
        exact ⟨Nat.succ_le_succ hlen, (Nat.le_succ _).trans hlo, hhi⟩
      · obtain ⟨hlen, hlo, hhi⟩ := ih (frozen := true) (cm := [b]) h
        exact ⟨Nat.succ_le_succ hlen, hlo, hhi⟩

/-- The encoder emits at most one code per byte, and its dictionary stays within `M` entries (rules R113, R116). -/
theorem lzwEncode_bounds {m : Nat} (data : List Byte) (hm : 256 ≤ m) :
    (lzwEncode data m).codes.length ≤ data.length ∧ 256 ≤ (lzwEncode data m).nextCode ∧
      (lzwEncode data m).nextCode ≤ m := by
  cases data with
  | nil => exact ⟨Nat.le_refl _, Nat.le_refl _, hm⟩
  | cons b bs => exact lzwEncodeFrom_bounds (d := []) hm

theorem lzwDecodeFrom_bounds {m cap : Nat} {d : Dict} {frozen : Bool} {prev : List Byte} {i len : Nat} {codes : List Nat}
    {r : Decoded} (hr : lzwDecodeFrom m cap d frozen prev i len codes = .ok r) (hd : d.nextCode ≤ m) (hlen : len ≤ cap) :
    len + r.out.length ≤ cap ∧ d.nextCode ≤ r.nextCode ∧ r.nextCode ≤ m := by
  induction codes generalizing d frozen prev i len r with
  | nil => cases hr; exact ⟨hlen, Nat.le_refl _, hd⟩
  | cons c cs ih =>
    simp only [lzwDecodeFrom, bind_eq_ok, require_eq_ok] at hr
    obtain ⟨entry, -, _, hcap, hr⟩ := hr
    split_ifs at hr with hm
    · obtain ⟨rest, hrest, he⟩ := bind_eq_ok.1 hr
      cases he
      obtain ⟨hout, hlo, hhi⟩ := ih hrest ((nextCode_append ..).trans_le hm) hcap
      rw [nextCode_append] at hlo
      rw [List.length_append]
      exact ⟨by omega, (Nat.le_succ _).trans hlo, hhi⟩
    · obtain ⟨rest, hrest, he⟩ := bind_eq_ok.1 hr
      cases he
      obtain ⟨hout, hlo, hhi⟩ := ih hrest hd hcap
      rw [List.length_append]
      exact ⟨by omega, hlo, hhi⟩

/-- The decoder's output stays within the capacity and its dictionary within `M` entries (rules R127, R129). -/
theorem lzwDecode_bounds {m cap : Nat} {codes : List Nat} {r : Decoded} (hr : lzwDecode m cap codes = .ok r) (hm : 256 ≤ m)
    (hcap : 1 ≤ cap) : r.out.length ≤ cap ∧ 256 ≤ r.nextCode ∧ r.nextCode ≤ m := by
  cases codes with
  | nil => cases hr; exact ⟨Nat.zero_le _, Nat.le_refl _, hm⟩
  | cons c cs =>
    simp only [lzwDecode, bind_eq_ok] at hr
    obtain ⟨_, -, rest, hrest, he⟩ := hr
    cases he
    obtain ⟨hout, hlo, hhi⟩ := lzwDecodeFrom_bounds (d := []) hrest hm hcap
    exact ⟨by rw [List.length_cons]; omega, hlo, hhi⟩

theorem decodeOneLeaf_bound {sym : Byte} {cap k len : Nat} {bits : List Bool} {out : List Byte}
    (h : decodeOneLeaf sym cap k len bits = .ok out) (hlen : len ≤ cap) : len + out.length ≤ cap := by
  induction bits generalizing k len out with
  | nil => cases h; exact hlen
  | cons b bs ih =>
    simp only [decodeOneLeaf, bind_eq_ok, require_eq_ok] at h
    obtain ⟨_, -, _, hcap, rest, hrest, he⟩ := h
    cases he
    have := ih hrest hcap
    rw [List.length_cons]; omega

theorem decodeTree_bound {node : Vector Slot 511} {root cap cur depth k len : Nat} {bits : List Bool} {out : List Byte}
    (h : decodeTree node root cap cur depth k len bits = .ok out) (hlen : len ≤ cap) : len + out.length ≤ cap := by
  induction bits generalizing cur depth k len out with
  | nil =>
    simp only [decodeTree, bind_eq_ok] at h
    obtain ⟨_, -, he⟩ := h
    cases he
    exact hlen
  | cons b bs ih =>
    unfold decodeTree at h
    extract_lets next at h
    split_ifs at h
    · simp only [bind_eq_ok, require_eq_ok] at h
      obtain ⟨_, hcap, rest, hrest, he⟩ := h
      cases he
      have := ih hrest hcap
      rw [List.length_cons]; omega
    · exact ih h hlen

/-- The Huffman decoder's output stays within the capacity (rule R183). -/
theorem hufDecode_bound {node : Vector Slot 511} {n cap : Nat} {stream : List Bool} {out : List Byte}
    (h : hufDecode node n cap stream = .ok out) : out.length ≤ cap := by
  unfold hufDecode at h
  split_ifs at h
  · cases stream with
    | nil => cases h; exact Nat.zero_le _
    | cons b bs => cases h
  · simpa using decodeOneLeaf_bound h (Nat.zero_le _)
  · simpa using decodeTree_bound h (Nat.zero_le _)

/-- A stream within a buffer has no more codes than the buffer has bytes: a code has eight bits or more (rule R140). -/
theorem unpackCodes_length_le {stream : List Bool} {w len : Nat} (hw : 8 ≤ w) (h : stream.length ≤ 8 * len) :
    (unpackCodes stream w).length ≤ len := by
  rw [unpackCodes, chunks_length]
  exact Nat.div_le_of_le_mul (h.trans (Nat.mul_le_mul_right len hw))

/-! ### The writes of each command -/

/-- The state after command `i` has committed its writes, before it completes. -/
inductive Commits (s : State) : Instr → State → Prop
  | nop : Commits s .nop s
  | lzwEnc (src dst : BufId) {codes : List Nat} {next w nbits : Nat} {bytes : List Byte} {empty frozen : Bool}
    (hcodes : codes.length ≤ s.params.codeCap) (hnext : 256 ≤ next ∧ next ≤ s.params.dictCap)
    (hbytes : bytes.length ≤ s.params.bufCap) :
    Commits s (.lzwEnc src dst)
      ((((((s.writeCodes codes).setNextCode next).setBitWidth w).writeOutput dst bytes nbits).setEmpty empty).setFrozen
        frozen)
  | lzwDec (src dst : BufId) {codes : List Nat} {next nbits : Nat} {bytes : List Byte} {empty frozen : Bool}
    (hcodes : codes.length ≤ s.params.codeCap) (hnext : 256 ≤ next ∧ next ≤ s.params.dictCap)
    (hbytes : bytes.length ≤ s.params.bufCap) :
    Commits s (.lzwDec src dst)
      (((((s.writeCodes codes).setNextCode next).writeOutput dst bytes nbits).setEmpty empty).setFrozen frozen)
  | codePack (dst : BufId) {nbits : Nat} {bytes : List Byte} {empty : Bool} (hbytes : bytes.length ≤ s.params.bufCap) :
    Commits s (.codePack dst) ((s.writeOutput dst bytes nbits).setEmpty empty)
  | codeUnpack (src : BufId) {codes : List Nat} {empty : Bool} (hcodes : codes.length ≤ s.params.codeCap) :
    Commits s (.codeUnpack src) ((s.writeCodes codes).setEmpty empty)
  | hufFreq (src : BufId) {counts : Vector Word 256} {empty : Bool} :
    Commits s (.hufFreq src) ((s.setFreq counts).setEmpty empty)
  | hufBuild {empty : Bool} :
    Commits s .hufBuild ((s.setTree (nodeTable (buildArena s.freq)) (buildArena s.freq).length).setEmpty empty)
  | hufBook (htree : s.status.treeValid = true) :
    Commits s .hufBook (s.setBook (codebook s.node s.nodeCount.toNat) (longestCode (codebook s.node s.nodeCount.toNat)))
  | hufEnc (src dst : BufId) {nbits : Nat} {bytes : List Byte} {empty : Bool} (hbytes : bytes.length ≤ s.params.bufCap) :
    Commits s (.hufEnc src dst) ((s.writeOutput dst bytes nbits).setEmpty empty)
  | hufDec (src dst : BufId) {nbits : Nat} {bytes : List Byte} {empty : Bool} (hbytes : bytes.length ≤ s.params.bufCap) :
    Commits s (.hufDec src dst) ((s.writeOutput dst bytes nbits).setEmpty empty)
  | bufCmp (src dst : BufId) : Commits s (.bufCmp src dst) s
  | reset : Commits s .reset s.softReset

/-- What a command's rule can return is what the command commits. -/
theorem ruleOf_eq_ok {i : Instr} {s u : State} (h : ruleOf i s = .ok u) : Commits s i u := by
  cases i with
  | nop => cases h; exact .nop
  | lzwEnc src dst =>
    obtain ⟨hlen, ⟨hlo, hhi⟩, data, ⟨hdata, -⟩, hcap, rfl⟩ := lzwEncRule_eq_ok.1 h
    obtain ⟨hcodes, hnext, hnext'⟩ := lzwEncode_bounds data hlo
    exact .lzwEnc src dst (hcodes.trans (hdata ▸ hlen)) ⟨hnext, hnext'.trans hhi⟩ (by simpa [packCodes] using hcap)
  | lzwDec src dst =>
    obtain ⟨hlen, hbits, ⟨hlo, hhi⟩, ⟨hw, -⟩, stream, d, hstream, -, hd, rfl⟩ := lzwDecRule_eq_ok.1 h
    obtain ⟨hout, hnext, hnext'⟩ := lzwDecode_bounds hd hlo (bufCap_bounds s.params).1
    have hle : stream.length ≤ 8 * s.len src := hstream.trans_le ((Nat.div_mul_le_self _ _).trans hbits)
    exact .lzwDec src dst ((unpackCodes_length_le hw hle).trans hlen) ⟨hnext, hnext'.trans hhi⟩ hout
  | codePack dst =>
    obtain ⟨-, -, codes, -, -, hcap, rfl⟩ := codePackRule_eq_ok.1 h
    exact .codePack dst (by simpa [packCodes] using hcap)
  | codeUnpack src =>
    obtain ⟨hlen, hbits, ⟨hw, -⟩, stream, ⟨hstream, -⟩, rfl⟩ := codeUnpackRule_eq_ok.1 h
    exact .codeUnpack src ((unpackCodes_length_le hw (hstream ▸ hbits)).trans hlen)
  | hufFreq src =>
    obtain ⟨-, data, -, rfl⟩ := hufFreqRule_eq_ok.1 h
    exact .hufFreq src
  | hufBuild => cases h; exact .hufBuild
  | hufBook =>
    obtain ⟨htree, rfl⟩ := hufBookRule_eq_ok.1 h
    exact .hufBook htree
  | hufEnc src dst =>
    obtain ⟨-, -, data, -, -, hcap, rfl⟩ := hufEncRule_eq_ok.1 h
    refine .hufEnc src dst ?_
    rw [packBits_length]
    unfold bytesFor
    omega
  | hufDec src dst =>
    obtain ⟨-, -, -, stream, out, -, hout, rfl⟩ := hufDecRule_eq_ok.1 h
    exact .hufDec src dst (hufDecode_bound hout)
  | bufCmp src dst =>
    simp only [ruleOf, bufCmpRule, bind_eq_ok] at h
    obtain ⟨_, -, _, -, _, -, he⟩ := h
    cases he
    exact .bufCmp src dst
  | reset => cases h; exact .reset

/-- What a command's next state can be: its writes and the completion, or the record of an error and the completion (rule R82). -/
theorem exec_cases {i : Instr} {s t : State} (h : exec i s = .next t) :
    (∃ u, Commits s i u ∧ t = u.finish) ∨
      ∃ e info value, e ≠ .none ∧ t = (s.recordError e info value).finish := by
  rcases exec_eq_next h with ⟨u, hu, rfl⟩ | ⟨e, info, value, hr, rfl⟩
  · exact .inl ⟨u, ruleOf_eq_ok hu, rfl⟩
  · exact .inr ⟨e, info, value, ruleOf_raises hr, rfl⟩

end Sys2Proof.Machine

/-! # Frames: what each command leaves unchanged -/

namespace Sys2Proof.Machine

theorem toNat_ofNat_of_lt {w n : Nat} (h : n < 2 ^ w) : (BitVec.ofNat w n).toNat = n := by
  rw [BitVec.toNat_ofNat, Nat.mod_eq_of_lt h]

theorem writeOutput_lengths_other {s : State} {m n : BufId} (h : n ≠ m) (bytes : List Byte) (nbits : Nat) :
    (s.writeOutput n bytes nbits).bufLen[m] = s.bufLen[m] ∧ (s.writeOutput n bytes nbits).bufBits[m] = s.bufBits[m] := by
  have hne : n.val ≠ m.val := fun he => h (Fin.ext he)
  exact ⟨Vector.getElem_set_ne n.isLt m.isLt hne, Vector.getElem_set_ne n.isLt m.isLt hne⟩

/-- A buffer whose length register was set to a length within `BUF_CAP` has that length. -/
theorem len_of_set {p : Params} {u : State} {lens : Vector Word 4} {n : BufId} {k : Nat} (hk : k ≤ p.bufCap)
    (hu : u.bufLen = lens.set n (BitVec.ofNat 32 k)) : u.len n = k := by
  have hcap := (bufCap_bounds p).2
  rw [State.len, hu, Fin.getElem_fin, Vector.getElem_set_self, toNat_ofNat_of_lt (by omega)]

theorem writeCodes_codeCount {s : State} {codes : List Nat} (h : codes.length ≤ s.params.codeCap) :
    (s.writeCodes codes).codeCount.toNat = codes.length := by
  have hcap := (bufCap_bounds s.params).2
  unfold Params.codeCap at h
  rw [State.writeCodes_codeCount, toNat_ofNat_of_lt (by omega)]

namespace Commits

variable {s u : State} {i : Instr}

theorem constants (h : Commits s i u) : u.params = s.params ∧ u.agent = s.agent ∧ u.cmd = s.cmd := by
  cases h <;> simp

theorem params (h : Commits s i u) : u.params = s.params := h.constants.1

theorem hostRegisters (h : Commits s i u) (hr : i ≠ .reset) :
    u.irqEn = s.irqEn ∧ u.maxDict = s.maxDict ∧ u.status.werr = s.status.werr := by
  cases h with
  | reset => exact absurd rfl hr
  | _ => simp

theorem errorRecord (h : Commits s i u) (hr : i ≠ .reset) :
    u.status.err = s.status.err ∧ u.errInfo = s.errInfo ∧ u.errValue = s.errValue := by
  cases h with
  | reset => exact absurd rfl hr
  | _ => simp

theorem bitWidth (h : Commits s i u) (hr : i ≠ .reset) (hi : ∀ a b, i ≠ .lzwEnc a b) : u.bitWidth = s.bitWidth := by
  cases h with
  | lzwEnc src dst => exact absurd rfl (hi src dst)
  | reset => exact absurd rfl hr
  | _ => simp

theorem dictionary (h : Commits s i u) (hr : i ≠ .reset) (hi : ∀ a b, i ≠ .lzwEnc a b ∧ i ≠ .lzwDec a b) :
    u.nextCode = s.nextCode ∧ u.status.frozen = s.status.frozen := by
  cases h with
  | lzwEnc src dst => exact absurd rfl (hi src dst).1
  | lzwDec src dst => exact absurd rfl (hi src dst).2
  | reset => exact absurd rfl hr
  | _ => simp

theorem codes (h : Commits s i u) (hi : writesCodes i = false) : u.codes = s.codes := by
  cases h with
  | lzwEnc | lzwDec | codeUnpack => cases hi
  | _ => simp

theorem codeCount (h : Commits s i u) (hr : i ≠ .reset) (hi : writesCodes i = false) : u.codeCount = s.codeCount := by
  cases h with
  | lzwEnc | lzwDec | codeUnpack => cases hi
  | reset => exact absurd rfl hr
  | _ => simp

theorem freq (h : Commits s i u) (hr : i ≠ .reset) (hi : ∀ a, i ≠ .hufFreq a) : u.freq = s.freq := by
  cases h with
  | hufFreq src => exact absurd rfl (hi src)
  | reset => exact absurd rfl hr
  | _ => simp

theorem tree (h : Commits s i u) (hr : i ≠ .reset) (hi : i ≠ .hufBuild) :
    u.node = s.node ∧ u.nodeCount = s.nodeCount ∧ u.status.treeValid = s.status.treeValid := by
  cases h with
  | hufBuild => exact absurd rfl hi
  | reset => exact absurd rfl hr
  | _ => simp

theorem book (h : Commits s i u) (hr : i ≠ .reset) (hi : i ≠ .hufBook) :
    u.book = s.book ∧ u.maxCodeLen = s.maxCodeLen := by
  cases h with
  | hufBook => exact absurd rfl hi
  | reset => exact absurd rfl hr
  | _ => simp

theorem bookValid (h : Commits s i u) (hr : i ≠ .reset) (hb : i ≠ .hufBuild) (hk : i ≠ .hufBook) :
    u.status.bookValid = s.status.bookValid := by
  cases h with
  | hufBuild => exact absurd rfl hb
  | hufBook => exact absurd rfl hk
  | reset => exact absurd rfl hr
  | _ => simp

theorem empty (h : Commits s i u) (hi : i = .nop ∨ i = .hufBook ∨ ∃ a b, i = .bufCmp a b) :
    u.status.empty = s.status.empty := by
  cases h with
  | nop | hufBook | bufCmp => rfl
  | _ => simp at hi

theorem lengths (h : Commits s i u) (hr : i ≠ .reset) {n : BufId} (hn : writesBuffer i ≠ some n) :
    u.bufLen[n] = s.bufLen[n] ∧ u.bufBits[n] = s.bufBits[n] := by
  cases h with
  | lzwEnc src dst | lzwDec src dst | codePack dst | hufEnc src dst | hufDec src dst =>
    exact writeOutput_lengths_other (fun he => hn (congrArg some he)) _ _
  | reset => exact absurd rfl hr
  | _ => simp

/-- The buffers' memory is written in the destination alone, up to its new length (rules R54, R271). -/
theorem mem (h : Commits s i u) :
    u.mem = s.mem ∨ ∃ dst bytes, writesBuffer i = some dst ∧ bytes.length ≤ s.params.bufCap ∧
      u.len dst = bytes.length ∧ u.mem = cellPutRun s.mem (bufBase dst) bytes := by
  cases h with
  | @lzwEnc src dst _ _ _ _ bytes _ _ _ _ hbytes | @lzwDec src dst _ _ _ bytes _ _ _ _ hbytes
  | @codePack dst _ bytes _ hbytes | @hufEnc src dst _ bytes _ hbytes | @hufDec src dst _ bytes _ hbytes =>
    exact .inr ⟨dst, bytes, rfl, hbytes, len_of_set hbytes rfl, rfl⟩
  | _ => exact .inl rfl

/-- The code memory is written from its start, up to the new `CODE_COUNT` (rule R53). -/
theorem codesRun (h : Commits s i u) (hi : writesCodes i = true) :
    ∃ codes : List Nat, codes.length ≤ s.params.codeCap ∧ u.codeCount.toNat = codes.length ∧
      u.codes = cellPutRun s.codes 0 (codes.map (BitVec.ofNat 32)) := by
  cases h with
  | @lzwEnc _ _ codes _ _ _ _ _ _ hcodes | @lzwDec _ _ codes _ _ _ _ _ hcodes | @codeUnpack _ codes _ hcodes =>
    exact ⟨codes, hcodes, writeCodes_codeCount hcodes, rfl⟩
  | _ => cases hi

end Commits

/-- Settles O43: a command that commits leaves what `Commits` does not write; one that fails changes its record alone. -/
theorem registerAndTableFrame : Obligations.RegisterAndTableFrame := by
  intro s t i h
  rcases exec_cases h with ⟨u, hu, rfl⟩ | ⟨e, info, value, he, rfl⟩
  · obtain ⟨hparams, hagent, hcmd⟩ := hu.constants
    refine ⟨hparams, hagent, hcmd, fun hr => ?_⟩
    obtain ⟨hirq, hmax, hwerr⟩ := hu.hostRegisters hr
    obtain ⟨herr, hinfo⟩ := hu.errorRecord hr
    exact ⟨hirq, hmax, hwerr, hu.bitWidth hr, hu.dictionary hr, fun hi => ⟨hu.codeCount hr hi, hu.codes hi⟩, hu.freq hr,
      hu.tree hr, hu.book hr, hu.bookValid hr, hu.empty, fun n => hu.lengths hr, .inl herr, fun _ => hinfo⟩
  · simp [he]

/-- Settles O44: the memories are written in one run each, and a cell outside of a run is as before. -/
theorem memoryFrame : Obligations.MemoryFrame := by
  intro s t i h
  rcases exec_cases h with ⟨u, hu, rfl⟩ | ⟨e, info, value, -, rfl⟩
  · refine ⟨fun a ha => ?_, fun k hk => ?_⟩
    · rcases hu.mem with hmem | ⟨dst, bytes, hdst, -, hlen, hmem⟩
      · rw [State.finish_mem, hmem]
      · rw [State.finish_mem, hmem]
        exact cellGet_cellPutRun_outside (hlen ▸ ha dst hdst)
    · cases hi : writesCodes i with
      | false => rw [State.finish_codes, hu.codes hi]
      | true =>
        obtain ⟨codes, -, hcount, hcodes⟩ := hu.codesRun hi
        have hk : u.codeCount.toNat ≤ k := hk hi
        rw [State.finish_codes, hcodes]
        exact cellGet_cellPutRun_outside (.inr (by rw [List.length_map]; omega))
  · exact ⟨fun _ _ => rfl, fun _ _ => rfl⟩

end Sys2Proof.Machine

/-! # The address map -/

namespace Sys2Proof.Machine

theorem wordOnly_eq_some {size : Size} {l l' : Location} : wordOnly size l = some l' ↔ size = .s32 ∧ l = l' := by
  unfold wordOnly
  split_ifs with h <;> simp [h]

/-- What an access at address `a` can reach: one location in each mapped region (rule R66). -/
inductive Located (p : Params) (size : Size) (a : Nat) : Location → Prop
  | register (hs : size = .s32) (hhi : a < 0x100) : Located p size a (.register (Reg.at a))
  | freq (hs : size = .s32) (hlo : 0x400 ≤ a) (hhi : a < 0x800) :
    Located p size a (.freq (BitVec.ofNat 8 ((a - 0x400) / 4)))
  | node (hs : size = .s32) (hlo : 0x2000 ≤ a) (hhi : a < 0x4000) :
    Located p size a (.node ((a - 0x2000) / 16) ((a - 0x2000) % 16 / 4))
  | book (hs : size = .s32) (hlo : 0x4000 ≤ a) (hhi : a < 0x8000) :
    Located p size a (.book (BitVec.ofNat 8 ((a - 0x4000) / 64)) ((a - 0x4000) % 64 / 4))
  | code (hs : size = .s32) (hlo : codesBase ≤ a) (hhi : a < 0x08000000) (hcap : (a - codesBase) / 4 < p.codeCap) :
    Located p size a (.code ((a - codesBase) / 4))
  | buffer (hlo : 0x10000000 ≤ a) (hhi : a < 0x50000000) (hcap : a % 0x10000000 + size.bytes ≤ p.bufCap) :
    Located p size a (.buffer a)

/-- The address map: an aligned access reaches the location of its region (rules R63, R64, R66, R67). -/
theorem locate_eq_some {p : Params} {size : Size} {addr : Word} {l : Location} :
    locate p size addr = some l ↔ addr.toNat % size.bytes = 0 ∧ Located p size addr.toNat l := by
  have hbase : codesBase = 0x04000000 := rfl
  simp only [locate, ite_eq_iff, wordOnly_eq_some, reduceCtorEq, and_false, false_or, or_false, not_lt, not_not, ne_eq]
  generalize addr.toNat = a
  refine and_congr_right fun _ => ⟨?_, fun h => ?_⟩
  · rintro (⟨h1, hs, rfl⟩ | ⟨h1, h2, ⟨h3, hs, rfl⟩ | ⟨h3, h4, ⟨h5, hs, rfl⟩ | ⟨h5, ⟨h6, hs, rfl⟩ |
      ⟨h6, h7, ⟨h8, hcap, hs, rfl⟩ | ⟨h8, h9, h10, hcap, h⟩⟩⟩⟩⟩)
    · exact .register hs h1
    · exact .freq hs h2 h3
    · exact .node hs h4 h5
    · exact .book hs h5 h6
    · exact .code hs h7 h8 hcap
    · cases h
      exact .buffer h9 h10 hcap
  · cases h with
    | register hs hhi => exact .inl ⟨hhi, hs, rfl⟩
    | freq hs hlo hhi => exact .inr ⟨by omega, hlo, .inl ⟨hhi, hs, rfl⟩⟩
    | node hs hlo hhi => exact .inr ⟨by omega, by omega, .inr ⟨by omega, hlo, .inl ⟨hhi, hs, rfl⟩⟩⟩
    | book hs hlo hhi =>
      exact .inr ⟨by omega, by omega, .inr ⟨by omega, by omega, .inr ⟨hlo, .inl ⟨hhi, hs, rfl⟩⟩⟩⟩
    | code hs hlo hhi hcap =>
      exact .inr ⟨by omega, by omega, .inr ⟨by omega, by omega, .inr ⟨by omega, .inr ⟨by omega, hlo,
        .inl ⟨hhi, hcap, hs, rfl⟩⟩⟩⟩⟩
    | buffer hlo hhi hcap =>
      exact .inr ⟨by omega, by omega, .inr ⟨by omega, by omega, .inr ⟨by omega, .inr ⟨by omega, by omega,
        .inr ⟨by omega, hlo, hhi, hcap, rfl⟩⟩⟩⟩⟩

end Sys2Proof.Machine

/-! # What one step can do, and what every step keeps -/

namespace Sys2Proof.Machine

/-! ### Steps -/

/-- The core with another host beside it (rule R70). -/
def State.withAgent (s : State) (a : HostAgent) : State := { s with agent := a }

/-- Where a step of the machine can lead: the commit or the failure of a command, a host operation that touches the host alone, a
host write to a mapped location, or a hardware reset (rules R70, R74, R82, R260). -/
inductive StepTo (s : State) : State → Prop
  | commit {i : Instr} {u : State} (hb : s.status.busy = true) (hu : Commits s i u) : StepTo s u.finish
  | fail {e : ErrCode} (info value : Nat) (hb : s.status.busy = true) (he : e ≠ .none) :
    StepTo s (s.recordError e info value).finish
  | host (a : HostAgent) : StepTo s (s.withAgent a)
  | writeIdle (a : HostAgent) {size : Size} {addr : Word} {l : Location} (v : Word) (hb : s.status.busy = false)
    (hl : locate s.params size addr = some l) : StepTo s ((s.withAgent a).writeIdle size v l)
  | writeBusy (a : HostAgent) (v : Word) (l : Location) (hb : s.status.busy = true) :
    StepTo s ((s.withAgent a).writeBusy v l)
  | hardReset (a : HostAgent) : StepTo s ((State.resetOf s.params).withAgent a)

theorem hostRead_agent {s t : State} {size : Size} {addr v : Word} (h : hostRead s size addr = .ok (v, t)) :
    t = s.withAgent t.agent := by
  obtain ⟨l, -, ⟨-, -, rfl⟩ | ⟨-, rfl⟩⟩ := hostRead_eq_ok h <;> rfl

theorem hostOp_stepTo {s t : State} {op : HostOp} {rest : List HostOp} (h : hostOp (s.popHost rest) op = .ok t) :
    StepTo s t := by
  cases op with
  | read size addr =>
    simp only [hostOp] at h
    split at h
    · rename_i v u hu
      cases h
      rw [hostRead_agent hu]
      exact .host _
    · cases h
  | write size addr v =>
    obtain ⟨l, hl, rfl⟩ := hostWrite_eq_ok h
    split_ifs with hb
    · exact .writeBusy _ v l hb
    · exact .writeIdle _ v (Bool.eq_false_iff.2 hb) hl
  | wait =>
    cases h
    split_ifs <;> exact .host _
  | check e =>
    simp only [hostOp] at h
    split_ifs at h
    cases h
    exact .host _
  | expect addr v =>
    simp only [hostOp] at h
    split at h
    · rename_i got u hu
      split_ifs at h
      cases h
      rw [hostRead_agent hu]
      exact .host _
    · cases h
  | hardReset =>
    cases h
    exact .hardReset _

theorem step_eq_next {s t : State} (h : step s = .next t) : StepTo s t := by
  cases ht : s.engineTurn with
  | true =>
    have hb : s.status.busy = true := (Bool.and_eq_true _ _ ▸ ht).1
    rw [step_of_engineTurn ht] at h
    rcases engineStep_eq_next h with ⟨i, -, hi⟩ | ⟨-, rfl⟩
    · rcases exec_cases hi with ⟨u, hu, rfl⟩ | ⟨e, info, value, he, rfl⟩
      · exact .commit hb hu
      · exact .fail info value hb he
    · exact .fail _ _ hb nofun
  | false =>
    rw [step_of_hostTurn ht] at h
    rcases hostStep_eq_next h with ⟨-, rfl⟩ | ⟨op, rest, -, hop⟩
    · exact .host t.agent
    · exact hostOp_stepTo hop

/-! ### Both memories -/

/-- The location of a `CODES` access is below `CODE_CAP` (rule R67). -/
theorem locate_code {p : Params} {size : Size} {addr : Word} {i : Nat} (h : locate p size addr = some (.code i)) :
    i < p.codeCap := by
  cases (locate_eq_some.1 h).2 with
  | code _ _ _ hcap => exact hcap

/-- The bytes of a buffer access lie in one buffer, below `BUF_CAP` (rule R67). -/
theorem locate_inBuffer {p : Params} {size : Size} {addr : Word} {a : Nat} (h : locate p size addr = some (.buffer a)) :
    ∃ n : BufId, ∃ i, i + size.bytes ≤ p.bufCap ∧ a = bufBase n + i := by
  cases (locate_eq_some.1 h).2 with
  | buffer hlo hhi hcap =>
    refine ⟨⟨addr.toNat / 0x10000000 - 1, by omega⟩, addr.toNat % 0x10000000, hcap, ?_⟩
    simp only [bufBase]
    omega

/-- Runs of writes inside the mapped cells keep the memories' form (rules R53, R54, R67). -/
theorem State.MemoryInv.of_runs {s t : State} (h : s.MemoryInv) (hp : t.params = s.params)
    (hm : t.mem = s.mem ∨ ∃ n : BufId, ∃ (i : Nat) (bytes : List Byte), i + bytes.length ≤ s.params.bufCap ∧
      t.mem = cellPutRun s.mem (bufBase n + i) bytes)
    (hc : t.codes = s.codes ∨ ∃ (i : Nat) (codes : List Word), i + codes.length ≤ s.params.codeCap ∧
      t.codes = cellPutRun s.codes i codes) : t.MemoryInv := by
  obtain ⟨hmemWf, hmem, hcodesWf, hcodes⟩ := h
  rw [← hp] at hmem hcodes hm hc
  constructor
  case memWf =>
    rcases hm with hm | ⟨n, i, bytes, -, hm⟩ <;> rw [hm]
    · exact hmemWf
    · exact cellPutRun_wf _ _ hmemWf
  case memMapped =>
    rcases hm with hm | ⟨n, i, bytes, hi, hm⟩ <;> rw [hm]
    · exact hmem
    · intro c hmem'
      rcases mem_cellPutRun hmem' with ⟨hlo, hhi⟩ | hold
      · exact ⟨n, c.1 - bufBase n, by omega, by omega⟩
      · exact hmem c hold
  case codesWf =>
    rcases hc with hc | ⟨i, codes, -, hc⟩ <;> rw [hc]
    · exact hcodesWf
    · exact cellPutRun_wf _ _ hcodesWf
  case codesMapped =>
    rcases hc with hc | ⟨i, codes, hi, hc⟩ <;> rw [hc]
    · exact hcodes
    · intro c hmem'
      rcases mem_cellPutRun hmem' with ⟨hlo, hhi⟩ | hold
      · omega
      · exact hcodes c hold

theorem Commits.keepsMemory {s u : State} {i : Instr} (hu : Commits s i u) (h : s.MemoryInv) : u.MemoryInv := by
  refine h.of_runs hu.params ?_ ?_
  · rcases hu.mem with hm | ⟨dst, bytes, -, hcap, -, hm⟩
    · exact .inl hm
    · exact .inr ⟨dst, 0, bytes, by omega, hm⟩
  · cases hi : writesCodes i with
    | false => exact .inl (hu.codes hi)
    | true =>
      obtain ⟨codes, hcap, -, hc⟩ := hu.codesRun hi
      exact .inr ⟨0, _, by rw [List.length_map]; omega, hc⟩

theorem writeIdle_keepsMemory {s : State} {size : Size} {addr v : Word} {l : Location} (h : s.MemoryInv)
    (hl : locate s.params size addr = some l) : (s.writeIdle size v l).MemoryInv := by
  cases l with
  | code i => exact h.of_runs rfl (.inl rfl) (.inr ⟨i, [v], locate_code hl, rfl⟩)
  | buffer a =>
    obtain ⟨n, i, hi, rfl⟩ := locate_inBuffer hl
    exact h.of_runs rfl (.inr ⟨n, i, _, (length_leBytes ..).symm ▸ hi, rfl⟩) (.inl rfl)
  | register r => cases r <;> exact h.of_runs rfl (.inl rfl) (.inl rfl)
  | _ => exact h.of_runs rfl (.inl rfl) (.inl rfl)

theorem writeBusy_params (s : State) (v : Word) (l : Location) : (s.writeBusy v l).params = s.params := by
  unfold State.writeBusy
  split <;> rfl

/-- Settles O45: the writes of a command and of the host are runs inside the mapped cells; a reset empties both memories. -/
theorem stepKeepsMemory : Obligations.StepKeepsMemory := by
  intro s t hs h
  cases step_eq_next h with
  | commit _ hu => exact (hu.keepsMemory hs).of_runs rfl (.inl rfl) (.inl rfl)
  | fail => exact hs.of_runs rfl (.inl rfl) (.inl rfl)
  | host a => exact hs.of_runs rfl (.inl rfl) (.inl rfl)
  | writeIdle a v _ hl => exact writeIdle_keepsMemory (s := s.withAgent a) (hs.of_runs rfl (.inl rfl) (.inl rfl)) hl
  | writeBusy a v l =>
    obtain ⟨hm, hc⟩ := writeBusy_memories (s.withAgent a) v l
    exact hs.of_runs (writeBusy_params ..) (.inl hm) (.inl hc)
  | hardReset a => exact ⟨.nil, nofun, .nil, nofun⟩

end Sys2Proof.Machine

/-! # `STATUS`, `NEXT_CODE` and the codebook -/

namespace Sys2Proof.Machine

/-! ### `STATUS` and the error record -/

theorem State.StatusInv.of_eq {s t : State} (h : s.StatusInv) (hst : t.status = s.status) (hi : t.errInfo = s.errInfo)
    (hv : t.errValue = s.errValue) : t.StatusInv := by
  obtain ⟨hbusy, hsuccess, hfailure, hbook⟩ := h
  rw [← hst] at hbusy hsuccess hfailure hbook
  rw [← hi, ← hv] at hsuccess
  exact ⟨hbusy, hsuccess, hfailure, hbook⟩

/-- `BOOK_VALID` is set by `HUF_BOOK` alone, which needs a tree (rule R169). -/
theorem Commits.keepsBookNeedsTree {s u : State} {i : Instr} (hu : Commits s i u)
    (h : s.status.bookValid = true → s.status.treeValid = true) :
    u.status.bookValid = true → u.status.treeValid = true := by
  cases hu with
  | hufBuild => exact fun _ => rfl
  | hufBook htree => exact fun _ => htree
  | reset => exact nofun
  | _ => simpa using h

theorem Commits.keepsStatus {s u : State} {i : Instr} (hu : Commits s i u) (hb : s.status.busy = true)
    (h : s.StatusInv) : u.finish.StatusInv := by
  obtain ⟨-, herr, -, -⟩ := h.busy hb
  have hrecord : u.status.err = .none ∧ u.errInfo = 0 ∧ u.errValue = 0 := by
    by_cases hr : i = .reset
    · subst hr
      cases hu
      exact ⟨rfl, rfl, rfl⟩
    · obtain ⟨hsame, hinfo, hvalue⟩ := hu.errorRecord hr
      obtain ⟨hinfo', hvalue'⟩ := h.success herr
      exact ⟨hsame.trans herr, hinfo.trans hinfo', hvalue.trans hvalue'⟩
  exact ⟨nofun, fun _ => hrecord.2, fun hne => absurd hrecord.1 hne, hu.keepsBookNeedsTree h.book⟩

theorem recordError_keepsStatus {s : State} {e : ErrCode} (info value : Nat) (hb : s.status.busy = true)
    (he : e ≠ .none) (h : s.StatusInv) : (s.recordError e info value).finish.StatusInv := by
  obtain ⟨-, -, hempty, hfrozen⟩ := h.busy hb
  exact ⟨nofun, fun hne => absurd hne he, fun _ => ⟨hempty, hfrozen⟩, h.book⟩

/-- A write of `STATUS` clears `DONE` and `WERR` at most (rule R25). -/
theorem writeOneToClear_keepsStatus {s : State} (v : Word) (h : s.StatusInv) : (s.writeReg v .status).StatusInv := by
  refine ⟨fun hb => ?_, h.success, h.failure, h.book⟩
  obtain ⟨hdone, hrest⟩ := h.busy hb
  refine ⟨?_, hrest⟩
  change (s.status.done && !v.getLsbD 1) = false
  rw [hdone, Bool.false_and]

theorem issue_keepsStatus {s : State} (c : Word) (h : s.StatusInv) : (s.issue c).StatusInv :=
  ⟨fun _ => ⟨rfl, rfl, rfl, rfl⟩, fun _ => ⟨rfl, rfl⟩, fun _ => ⟨rfl, rfl⟩, h.book⟩

theorem writeIdle_keepsStatus {s : State} (size : Size) (v : Word) (l : Location) (h : s.StatusInv) :
    (s.writeIdle size v l).StatusInv := by
  cases l with
  | register r =>
    cases r with
    | status => exact writeOneToClear_keepsStatus v h
    | cmd => exact issue_keepsStatus v h
    | _ => exact h.of_eq rfl rfl rfl
  | _ => exact h.of_eq rfl rfl rfl

theorem writeBusy_keepsStatus {s : State} (v : Word) (l : Location) (h : s.StatusInv) : (s.writeBusy v l).StatusInv := by
  by_cases hctrl : l = .register .ctrl
  · exact hctrl ▸ h.of_eq rfl rfl rfl
  by_cases hstatus : l = .register .status
  · exact hstatus ▸ writeOneToClear_keepsStatus v h
  rw [writeBusy_eq_setWerr hctrl hstatus]
  exact ⟨h.busy, h.success, h.failure, h.book⟩

/-- Settles O46: a command runs with the record that its issue cleared, so it commits without an error or records one. -/
theorem stepKeepsStatus : Obligations.StepKeepsStatus := by
  intro s t hs h
  have hagent : ∀ a, (s.withAgent a).StatusInv := fun _ => hs.of_eq rfl rfl rfl
  cases step_eq_next h with
  | commit hb hu => exact hu.keepsStatus hb hs
  | fail info value hb he => exact recordError_keepsStatus info value hb he hs
  | host a => exact hagent a
  | writeIdle a v => exact writeIdle_keepsStatus _ v _ (hagent a)
  | writeBusy a v l => exact writeBusy_keepsStatus v l (hagent a)
  | hardReset a => exact ⟨nofun, fun _ => ⟨rfl, rfl⟩, fun hne => absurd rfl hne, nofun⟩

/-! ### What neither the host nor a failing command writes -/

/-- `t` has the parameters, `NEXT_CODE`, the tree and the codebook of `s`. -/
structure SameTables (s t : State) : Prop where
  params : t.params = s.params
  nextCode : t.nextCode = s.nextCode
  node : t.node = s.node
  nodeCount : t.nodeCount = s.nodeCount
  treeValid : t.status.treeValid = s.status.treeValid
  book : t.book = s.book
  maxCodeLen : t.maxCodeLen = s.maxCodeLen
  bookValid : t.status.bookValid = s.status.bookValid

theorem SameTables.trans {s t u : State} (h : SameTables s t) (h' : SameTables t u) : SameTables s u :=
  ⟨h'.params.trans h.params, h'.nextCode.trans h.nextCode, h'.node.trans h.node, h'.nodeCount.trans h.nodeCount,
    h'.treeValid.trans h.treeValid, h'.book.trans h.book, h'.maxCodeLen.trans h.maxCodeLen,
    h'.bookValid.trans h.bookValid⟩

theorem withAgent_sameTables (s : State) (a : HostAgent) : SameTables s (s.withAgent a) :=
  ⟨rfl, rfl, rfl, rfl, rfl, rfl, rfl, rfl⟩

theorem writeReg_sameTables (s : State) (v : Word) (r : Reg) : SameTables s (s.writeReg v r) := by
  cases r <;> exact ⟨rfl, rfl, rfl, rfl, rfl, rfl, rfl, rfl⟩

theorem writeIdle_sameTables (s : State) (size : Size) (v : Word) (l : Location) : SameTables s (s.writeIdle size v l) := by
  cases l with
  | register r => exact writeReg_sameTables s v r
  | _ => exact ⟨rfl, rfl, rfl, rfl, rfl, rfl, rfl, rfl⟩

theorem writeBusy_sameTables (s : State) (v : Word) (l : Location) : SameTables s (s.writeBusy v l) := by
  unfold State.writeBusy
  split <;> exact ⟨rfl, rfl, rfl, rfl, rfl, rfl, rfl, rfl⟩

/-- A step keeps these tables, unless it is the commit of a command or a hardware reset. -/
theorem StepTo.tables_cases {s t : State} (h : StepTo s t) :
    SameTables s t ∨ (∃ i u, Commits s i u ∧ t = u.finish) ∨ ∃ a, t = (State.resetOf s.params).withAgent a := by
  cases h with
  | commit _ hu => exact .inr (.inl ⟨_, _, hu, rfl⟩)
  | fail => exact .inl ⟨rfl, rfl, rfl, rfl, rfl, rfl, rfl, rfl⟩
  | host a => exact .inl (withAgent_sameTables s a)
  | writeIdle a v => exact .inl ((withAgent_sameTables s a).trans (writeIdle_sameTables ..))
  | writeBusy a v l => exact .inl ((withAgent_sameTables s a).trans (writeBusy_sameTables ..))
  | hardReset a => exact .inr (.inr ⟨a, rfl⟩)

/-! ### `NEXT_CODE` -/

theorem nextCodeInv_of_set {s : State} {n : Nat} (hs : s.nextCode = BitVec.ofNat 32 n) (hlo : 256 ≤ n)
    (hhi : n ≤ s.params.dictCap) : s.NextCodeInv := by
  have hcap := (dictCap_bounds s.params).2
  rw [State.NextCodeInv, hs, toNat_ofNat_of_lt (by omega)]
  exact ⟨hlo, hhi⟩

/-- After a reset `NEXT_CODE` is 256, the least capacity of a dictionary (rules R8, R261). -/
theorem nextCodeInv_of_reset {s : State} (h : s.nextCode = 256) : s.NextCodeInv :=
  nextCodeInv_of_set h (Nat.le_refl _) (dictCap_bounds s.params).1

theorem Commits.keepsNextCode {s u : State} {i : Instr} (hu : Commits s i u) (h : s.NextCodeInv) : u.NextCodeInv := by
  cases hu with
  | lzwEnc src dst _ hnext | lzwDec src dst _ hnext =>
    exact nextCodeInv_of_set (by simp) hnext.1 (by simpa using hnext.2)
  | reset => exact nextCodeInv_of_reset rfl
  | _ => simpa [State.NextCodeInv] using h

/-- Settles O47: an LZW command's dictionary has at least the 256 single bytes and at most `MAX_DICT` entries. -/
theorem stepKeepsNextCode : Obligations.StepKeepsNextCode := by
  intro s t hs h
  rcases (step_eq_next h).tables_cases with hsame | ⟨i, u, hu, rfl⟩ | ⟨a, rfl⟩
  · unfold State.NextCodeInv
    rw [hsame.nextCode, hsame.params]
    exact hs
  · exact hu.keepsNextCode hs
  · exact nextCodeInv_of_reset rfl

/-! ### The codebook -/

/-- A walk with fuel for `fuel` more nodes writes codes of at most that many bits more than the path that leads to it. -/
theorem length_walk_le {node : Vector Slot 511} {fuel k bound : Nat} {path : List Bool} {book : Vector (List Bool) 256}
    (hf : path.length + fuel ≤ bound) (hbook : ∀ code ∈ book, code.length ≤ bound) :
    ∀ code ∈ walk node fuel k path book, code.length ≤ bound := by
  induction fuel generalizing k path book with
  | zero => exact hbook
  | succ fuel ih =>
    rw [walk]
    split_ifs
    · intro code hcode
      rcases Vector.mem_or_eq_of_mem_set hcode with hold | rfl
      · exact hbook code hold
      · omega
    · exact ih (by simp; omega) (ih (by simp; omega) hbook)

theorem length_le_of_mem_emptyBook {code : List Bool} (h : code ∈ emptyBook) : code.length ≤ 511 := by
  obtain rfl := Vector.eq_of_mem_replicate h
  exact Nat.zero_le _

/-- No code of a codebook, of whatever arena, has more than 511 bits. -/
theorem length_codebook_le (node : Vector Slot 511) (n : Nat) : ∀ code ∈ codebook node n, code.length ≤ 511 := by
  unfold codebook
  split_ifs
  · exact fun _ => length_le_of_mem_emptyBook
  · intro code hcode
    rcases Vector.mem_or_eq_of_mem_set hcode with hold | rfl
    · exact length_le_of_mem_emptyBook hold
    · decide
  · exact length_walk_le (Nat.le_refl _) fun _ => length_le_of_mem_emptyBook

theorem longestCode_le {book : Vector (List Bool) 256} {bound : Nat} (h : ∀ code ∈ book, code.length ≤ bound) :
    longestCode book ≤ bound :=
  List.foldlRecOn (motive := (· ≤ bound)) book.toList _ (Nat.zero_le _) fun _ hm code hcode =>
    max_le hm (h code (Vector.mem_toList_iff.1 hcode))

theorem setBook_inv (s : State) : (s.setBook (codebook s.node s.nodeCount.toNat)
    (longestCode (codebook s.node s.nodeCount.toNat))).BookInv where
  book _ := rfl
  longest _ := by
    have hle := longestCode_le (length_codebook_le s.node s.nodeCount.toNat)
    rw [State.setBook_maxCodeLen, State.setBook_book, toNat_ofNat_of_lt (by omega)]

theorem State.BookInv.of_invalid {s : State} (h : s.status.bookValid = false) : s.BookInv := by
  constructor <;> simp [h]

theorem State.BookInv.of_eq {s t : State} (h : s.BookInv) (hvalid : t.status.bookValid = s.status.bookValid)
    (hnode : t.node = s.node) (hcount : t.nodeCount = s.nodeCount) (hbook : t.book = s.book)
    (hlen : t.maxCodeLen = s.maxCodeLen) : t.BookInv := by
  constructor
  · rw [hvalid, hbook, hnode, hcount]
    exact h.book
  · rw [hvalid, hbook, hlen]
    exact h.longest

theorem Commits.keepsBook {s u : State} {i : Instr} (hu : Commits s i u) (h : s.BookInv) : u.BookInv := by
  cases hu with
  | hufBuild => exact .of_invalid rfl
  | hufBook => exact setBook_inv s
  | reset => exact .of_invalid rfl
  | _ => refine h.of_eq ?_ ?_ ?_ ?_ ?_ <;> simp

/-- Settles O49: `HUF_BUILD` and a reset make the codebook stale, and `HUF_BOOK` makes it anew from the tree. -/
theorem stepKeepsBook : Obligations.StepKeepsBook := by
  intro s t hs h
  rcases (step_eq_next h).tables_cases with hsame | ⟨i, u, hu, rfl⟩ | ⟨a, rfl⟩
  · exact hs.of_eq hsame.bookValid hsame.node hsame.nodeCount hsame.book hsame.maxCodeLen
  · exact (hu.keepsBook hs).of_eq rfl rfl rfl rfl rfl
  · exact .of_invalid rfl

end Sys2Proof.Machine

/-! # The arena is a tree

Between two merges the arena's children and the waiting nodes together are the indices of the arena, each once: so every node is a
child of one node or waits, and at the end all but the newest have their one parent (rules R164, R165). -/

namespace Sys2Proof.Machine

/-! ### Children -/

/-- The indices of a slot's children, left first (rule R49). -/
def Slot.children : Slot → List Nat
  | .internal _ l r => [l.toNat, r.toNat]
  | .leaf _ _ => []
  | .absent => []

theorem Slot.mem_children {n : Slot} {k : Nat} (h : k ∈ n.children) :
    n.present = true ∧ n.isLeaf = false ∧ (n.left.toNat = k ∨ n.right.toNat = k) := by
  cases n with
  | internal f l r => simpa [Slot.children, Slot.present, Slot.isLeaf, Slot.left, Slot.right, eq_comm] using h
  | leaf | absent => cases h

theorem Slot.eq_internal {n : Slot} (hp : n.present = true) (hl : n.isLeaf = false) :
    n = .internal n.freq n.left n.right := by
  cases n with
  | internal => rfl
  | leaf => cases hl
  | absent => cases hp

theorem arenaSlot_eq_getElem {arena : List Slot} {i : Nat} (h : i < arena.length) : arenaSlot arena i = arena[i] :=
  List.getD_eq_getElem _ _ h

theorem arenaSlot_append_left {arena : List Slot} {i : Nat} (h : i < arena.length) (more : List Slot) :
    arenaSlot (arena ++ more) i = arenaSlot arena i := List.getD_append _ _ _ _ h

theorem lt_of_arenaSlot_ne {arena : List Slot} {i : Nat} (h : arenaSlot arena i ≠ .absent) : i < arena.length :=
  (arenaSlot_append h []).1

/-! ### The leaves -/

/-- The leaves' symbols rise from `v` on (rule R163). -/
theorem leavesFrom_sorted {v : Nat} {fs : List Word} (h : v + fs.length ≤ 256) :
    (∀ n ∈ leavesFrom v fs, v ≤ n.sym.toNat) ∧
      (leavesFrom v fs).Pairwise (fun a b => a.sym.toNat < b.sym.toNat) := by
  induction fs generalizing v with
  | nil => exact ⟨nofun, .nil⟩
  | cons f fs ih =>
    rw [List.length_cons] at h
    obtain ⟨hge, hsorted⟩ := ih (v := v + 1) (by omega)
    rw [leavesFrom]
    split_ifs
    · exact ⟨fun n hn => (Nat.le_succ v).trans (hge n hn), hsorted⟩
    · have hv : (Slot.leaf (BitVec.ofNat 8 v) (f.setWidth 40)).sym.toNat = v := by
        rw [Slot.sym, toNat_ofNat_of_lt (by omega)]
      refine ⟨fun n hn => ?_, List.pairwise_cons.2 ⟨fun n hn => hv.trans_lt (hge n hn), hsorted⟩⟩
      rcases List.mem_cons.1 hn with rfl | hn
      · exact hv.ge
      · exact (Nat.le_succ v).trans (hge n hn)

/-- Leaves of one symbol are one leaf (rule R163). -/
theorem leavesFrom_sym_inj {freq : Vector Word 256} {i j : Nat} (hi : i < (leavesFrom 0 freq.toList).length)
    (hj : j < (leavesFrom 0 freq.toList).length)
    (h : (leavesFrom 0 freq.toList)[i].sym = (leavesFrom 0 freq.toList)[j].sym) : i = j := by
  have hsorted := List.pairwise_iff_getElem.1 (leavesFrom_sorted (v := 0) (fs := freq.toList) (by simp)).2
  rcases Nat.lt_trichotomy i j with hlt | rfl | hlt
  · have := hsorted i j hi hj hlt
    rw [h] at this; omega
  · rfl
  · have := hsorted j i hj hi hlt
    rw [h] at this; omega

/-- The frequencies of the leaves add up to those of the table. -/
theorem sum_leavesFrom (v : Nat) (fs : List Word) :
    ((leavesFrom v fs).map fun n => n.freq.toNat).sum = (fs.map BitVec.toNat).sum := by
  induction fs generalizing v with
  | nil => rfl
  | cons f fs ih =>
    rw [leavesFrom]
    split_ifs with hf
    · simp [ih, hf]
    · have hlt := f.isLt
      have hw : (f.setWidth 40).toNat = f.toNat := by simp; omega
      rw [List.map_cons, List.map_cons, List.sum_cons, List.sum_cons, ih]
      simp only [Slot.freq, hw]

/-- The sum of a frequency table fits the 40 bits of a node's frequency (rule R168). -/
theorem sum_freq_lt (freq : Vector Word 256) : (freq.toList.map BitVec.toNat).sum < 2 ^ 40 := by
  have hle : (freq.toList.map BitVec.toNat).sum ≤ (freq.toList.map BitVec.toNat).length • (2 ^ 32 - 1) := by
    refine List.sum_le_card_nsmul _ _ fun x hx => ?_
    obtain ⟨w, -, rfl⟩ := List.mem_map.1 hx
    have := w.isLt
    omega
  rw [List.length_map, Vector.length_toList, smul_eq_mul] at hle
  omega

/-! ### The merges -/

/-- A merge makes children of the two nodes `a` and `b`, and its new node `n` waits. -/
theorem perm_range_succ_of_merge {children waiting : List Nat} {a b n : Nat}
    (h : (children ++ a :: b :: waiting).Perm (List.range n)) :
    (children ++ [a, b] ++ n :: waiting).Perm (List.range (n + 1)) := by
  rw [List.range_succ]
  calc (children ++ [a, b] ++ n :: waiting).Perm (n :: (children ++ [a, b] ++ waiting)) := List.perm_middle
    _ = n :: (children ++ a :: b :: waiting) := by simp
    List.Perm _ (n :: List.range n) := h.cons n
    List.Perm _ (List.range n ++ [n]) := (List.perm_append_singleton n _).symm

/-- What every merge keeps: the children and the waiting nodes are all indices, each once; a waiting node has its slot's frequency;
the waiting nodes' frequencies add up to `total`; an internal node's children are older and its frequency is their sum; leaves have
distinct symbols; no slot is absent (rules R162 to R168). -/
structure ArenaInv (total : Nat) (arena : List Slot) (queue : List QNode) : Prop where
  links : (arena.flatMap Slot.children ++ queue.map QNode.idx).Perm (List.range arena.length)
  freqs : ∀ q ∈ queue, q.freq = (arenaSlot arena q.idx).freq.toNat
  sum : (queue.map QNode.freq).sum = total
  internal : ∀ i f l r, arenaSlot arena i = .internal f l r → l.toNat < i ∧ r.toNat < i ∧
    f.toNat = (arenaSlot arena l.toNat).freq.toNat + (arenaSlot arena r.toNat).freq.toNat
  symbols : ∀ i j, (arenaSlot arena i).isLeaf = true → (arenaSlot arena j).isLeaf = true →
    (arenaSlot arena i).sym = (arenaSlot arena j).sym → i = j
  present : ∀ n ∈ arena, n.present = true

theorem ArenaInv.idx_lt {total : Nat} {arena : List Slot} {queue : List QNode} (h : ArenaInv total arena queue) {q : QNode}
    (hq : q ∈ queue) : q.idx < arena.length :=
  List.mem_range.1 (h.links.subset (List.mem_append_right _ (List.mem_map_of_mem hq)))

theorem ArenaInv.merge {total : Nat} (ht : total < 2 ^ 40) {arena : List Slot} {a b : QNode} {q : List QNode}
    (hlen : arena.length < 512) (h : ArenaInv total arena (a :: b :: q)) :
    ArenaInv total (arena ++ [mergedSlot a b]) (enqueue { freq := a.freq + b.freq, idx := arena.length } q) := by
  have ha := h.idx_lt (List.mem_cons_self ..)
  have hb := h.idx_lt (List.mem_cons_of_mem _ (List.mem_cons_self ..))
  have hq := enqueue_perm { freq := a.freq + b.freq, idx := arena.length } q
  have hsum : a.freq + b.freq + (q.map QNode.freq).sum = total := by simpa [Nat.add_assoc] using h.sum
  have hfreq : (mergedSlot a b).freq.toNat = a.freq + b.freq := by simp [mergedSlot, Slot.freq]; omega
  have hleft : (BitVec.ofNat 9 a.idx).toNat = a.idx := toNat_ofNat_of_lt (by omega)
  have hright : (BitVec.ofNat 9 b.idx).toNat = b.idx := toNat_ofNat_of_lt (by omega)
  have hold : ∀ i, i < arena.length → arenaSlot (arena ++ [mergedSlot a b]) i = arenaSlot arena i :=
    fun i hi => arenaSlot_append_left hi _
  have hnew : ∀ i, arenaSlot (arena ++ [mergedSlot a b]) i ≠ .absent → i < arena.length ∨ i = arena.length := by
    intro i hi
    have := lt_of_arenaSlot_ne hi
    rw [List.length_append, List.length_singleton] at this
    omega
  constructor
  case links =>
    have hchildren : (mergedSlot a b).children = [a.idx, b.idx] := by simp only [mergedSlot, Slot.children, hleft, hright]
    rw [List.flatMap_append, List.flatMap_singleton, hchildren, List.length_append, List.length_singleton]
    exact ((hq.map QNode.idx).append_left _).trans (perm_range_succ_of_merge h.links)
  case freqs =>
    intro x hx
    rcases List.mem_cons.1 (hq.subset hx) with rfl | hx
    · rw [arenaSlot_append_length, hfreq]
    · have hx' := List.mem_cons_of_mem a (List.mem_cons_of_mem b hx)
      rw [hold _ (h.idx_lt hx'), h.freqs x hx']
  case sum =>
    rw [((hq.map _).sum_eq), List.map_cons, List.sum_cons]
    exact hsum
  case internal =>
    intro i f l r hi
    rcases hnew i (by simp [hi]) with hlt | rfl
    · rw [hold i hlt] at hi
      obtain ⟨hl, hr, hf⟩ := h.internal i f l r hi
      rw [hold _ (hl.trans hlt), hold _ (hr.trans hlt)]
      exact ⟨hl, hr, hf⟩
    · rw [arenaSlot_append_length] at hi
      cases hi
      rw [hleft, hright, hold _ ha, hold _ hb, ← h.freqs a (by simp), ← h.freqs b (by simp)]
      exact ⟨ha, hb, hfreq⟩
  case symbols =>
    have hleaf : ∀ i, (arenaSlot (arena ++ [mergedSlot a b]) i).isLeaf = true →
        arenaSlot (arena ++ [mergedSlot a b]) i = arenaSlot arena i := by
      intro i hi
      rcases hnew i (fun h0 => by rw [h0] at hi; cases hi) with hlt | rfl
      · exact hold i hlt
      · rw [arenaSlot_append_length] at hi
        cases hi
    intro i j hi hj hs
    have hi' := hleaf i hi
    have hj' := hleaf j hj
    rw [hi'] at hi hs
    rw [hj'] at hj hs
    exact h.symbols i j hi hj hs
  case present =>
    intro n hn
    rcases List.mem_append.1 hn with hn | hn
    · exact h.present n hn
    · obtain rfl := List.mem_singleton.1 hn
      rfl

/-- The leaves of a frequency table and their queue, before the first merge. -/
theorem arenaInv_leaves (freq : Vector Word 256) :
    ArenaInv (freq.toList.map BitVec.toNat).sum (leavesFrom 0 freq.toList) (queueFrom 0 (leavesFrom 0 freq.toList)) := by
  have hleaf : ∀ n ∈ leavesFrom 0 freq.toList, ∃ f, n = .leaf n.sym f := fun _ => leaf_of_mem_leavesFrom
  have hinj : ∀ i j (hi : i < (leavesFrom 0 freq.toList).length) (hj : j < (leavesFrom 0 freq.toList).length),
      (leavesFrom 0 freq.toList)[i].sym = (leavesFrom 0 freq.toList)[j].sym → i = j := fun _ _ => leavesFrom_sym_inj
  rw [← sum_leavesFrom 0]
  generalize leavesFrom 0 freq.toList = leaves at hleaf hinj
  have hq := queueFrom_perm 0 leaves
  constructor
  case links =>
    have hnone : leaves.flatMap Slot.children = [] := by
      refine List.flatMap_eq_nil_iff.2 fun n hn => ?_
      obtain ⟨f, hf⟩ := hleaf n hn
      rw [hf]
      rfl
    have hidx : ((leaves.zipIdx 0).map QNode.ofSlot).map QNode.idx = List.range leaves.length := by
      rw [List.map_map, List.range_eq_range', ← List.zipIdx_map_snd 0 leaves]
      rfl
    rw [hnone, List.nil_append, ← hidx]
    exact hq.map _
  case freqs =>
    intro x hx
    obtain ⟨⟨n, i⟩, hn, rfl⟩ := List.mem_map.1 (hq.subset hx)
    have hget : leaves[i]? = some n := List.mem_zipIdx_iff_getElem?.1 hn
    obtain ⟨hi, rfl⟩ := List.getElem?_eq_some_iff.1 hget
    rw [QNode.ofSlot, arenaSlot_eq_getElem hi]
  case sum =>
    have hfreq : QNode.freq ∘ QNode.ofSlot = (fun n => n.freq.toNat) ∘ Prod.fst := rfl
    rw [(hq.map _).sum_eq, List.map_map, hfreq, ← List.map_map, List.zipIdx_map_fst]
  case internal =>
    intro i f l r hi
    have hlt := lt_of_arenaSlot_ne (arena := leaves) (i := i) (by simp [hi])
    rw [arenaSlot_eq_getElem hlt] at hi
    obtain ⟨f', hf⟩ := hleaf _ (List.getElem_mem hlt)
    rw [hi] at hf
    cases hf
  case symbols =>
    intro i j hi hj hs
    have hi' := lt_of_arenaSlot_ne (arena := leaves) (i := i) (fun h0 => by rw [h0] at hi; cases hi)
    have hj' := lt_of_arenaSlot_ne (arena := leaves) (i := j) (fun h0 => by rw [h0] at hj; cases hj)
    rw [arenaSlot_eq_getElem hi', arenaSlot_eq_getElem hj'] at hs
    exact hinj i j hi' hj' hs
  case present =>
    intro n hn
    obtain ⟨f, hf⟩ := hleaf n hn
    rw [hf]
    rfl

theorem arenaInv_buildArena (freq : Vector Word 256) :
    ∃ last, last.length ≤ 1 ∧ MergeInv (occurring freq) (buildArena freq) last ∧
      ArenaInv (freq.toList.map BitVec.toNat).sum (buildArena freq) last := by
  have hocc := occurring_length_le freq
  refine mergeAll_induction
    (P := fun arena queue => MergeInv (occurring freq) arena queue ∧
      ArenaInv (freq.toList.map BitVec.toNat).sum arena queue)
    (fun arena a b q ⟨hm, ha⟩ => ⟨hm.merge hocc, ha.merge (sum_freq_lt freq) ?_⟩)
    ⟨mergeInv_leaves freq, arenaInv_leaves freq⟩ (by rw [queueFrom_length]; exact Nat.le_succ _)
  have hsize := hm.size
  simp only [List.length_cons] at hsize
  omega

/-! ### The tree -/

theorem buildArena_length_le (freq : Vector Word 256) : (buildArena freq).length ≤ 511 := by
  by_cases h : occurring freq = []
  · simp [buildArena_eq_nil h]
  · obtain ⟨t, -, hsym, hlen⟩ := buildArena_represents freq h
    have := hsym.length_eq.trans_le (occurring_length_le freq)
    omega

/-- Different slots of an arena have different children (rule R165). -/
theorem index_eq_of_shared_child {arena : List Slot} (h : (arena.flatMap Slot.children).Nodup) {i j k : Nat}
    (hi : i < arena.length) (hj : j < arena.length) (hki : k ∈ arena[i].children) (hkj : k ∈ arena[j].children) : i = j := by
  have hdisj := List.pairwise_iff_getElem.1 (List.nodup_flatMap.1 h).2
  rcases Nat.lt_trichotomy i j with hlt | rfl | hlt
  · exact absurd hkj (hdisj i j hi hj hlt hki)
  · rfl
  · exact absurd hki (hdisj j i hj hi hlt hkj)

namespace ArenaInv

variable {total : Nat} {arena : List Slot} {queue : List QNode} (h : ArenaInv total arena queue)

include h

theorem nodup_children : (arena.flatMap Slot.children).Nodup :=
  (h.links.nodup_iff.2 List.nodup_range).of_append_left

theorem slot_present {i : Nat} (hi : i < arena.length) : (arenaSlot arena i).present = true := by
  rw [arenaSlot_eq_getElem hi]
  exact h.present _ (List.getElem_mem hi)

theorem slot_internal {i : Nat} (hi : i < arena.length) (hl : (arenaSlot arena i).isLeaf = false) :
    arenaSlot arena i = .internal (arenaSlot arena i).freq (arenaSlot arena i).left (arenaSlot arena i).right :=
  Slot.eq_internal (h.slot_present hi) hl

theorem children_eq {i : Nat} (hi : i < arena.length) (hl : (arenaSlot arena i).isLeaf = false) :
    arena[i].children = [(arenaSlot arena i).left.toNat, (arenaSlot arena i).right.toNat] := by
  rw [← arenaSlot_eq_getElem hi, h.slot_internal hi hl]
  rfl

/-- A node that does not wait is a child (rule R165). -/
theorem child_of_not_waiting {k : Nat} (hk : k < arena.length) (hw : ∀ q ∈ queue, q.idx ≠ k) :
    ∃ i, ∃ hi : i < arena.length, k ∈ arena[i].children := by
  rcases List.mem_append.1 (h.links.symm.subset (List.mem_range.2 hk)) with hchild | hwait
  · obtain ⟨n, hn, hkn⟩ := List.mem_flatMap.1 hchild
    obtain ⟨i, hi, rfl⟩ := List.getElem_of_mem hn
    exact ⟨i, hi, hkn⟩
  · obtain ⟨q, hq, he⟩ := List.mem_map.1 hwait
    exact absurd he (hw q hq)

/-- An arena in which no node but the newest waits is a tree. -/
theorem tree (hcount : arena.length ≤ 511) (hroot : ∀ q ∈ queue, q.idx + 1 = arena.length) :
    ArenaTree (nodeTable arena) arena.length := by
  have hslot : slotOf (nodeTable arena) = arenaSlot arena := funext (slotOf_nodeTable hcount)
  have hnodup := h.nodup_children
  constructor
  case count =>
    exact hcount
  case present =>
    intro i
    rw [hslot]
    refine ⟨fun hi => lt_of_arenaSlot_ne fun h0 => ?_, h.slot_present⟩
    rw [h0] at hi
    cases hi
  case children =>
    intro i hi hl
    rw [hslot] at hl ⊢
    obtain ⟨hlt, hrt, hf⟩ := h.internal i _ _ _ (h.slot_internal hi hl)
    refine ⟨hlt, hrt, fun he => ?_, hf⟩
    have hpair := (List.nodup_flatMap.1 hnodup).1 _ (List.getElem_mem hi)
    rw [h.children_eq hi hl, he] at hpair
    simp at hpair
  case symbols =>
    rw [hslot]
    exact h.symbols
  case parents =>
    intro k hk
    obtain ⟨i, hi, hchild⟩ := h.child_of_not_waiting (Nat.lt_of_succ_lt hk) fun q hq he => by
      have := hroot q hq
      omega
    refine ⟨i, hi, ?_⟩
    rw [hslot, arenaSlot_eq_getElem hi]
    exact Slot.mem_children hchild
  case oneParent =>
    intro i j hi hj hl hl' hshared
    rw [hslot] at hl hl' hshared
    have hci := h.children_eq hi hl
    have hcj := h.children_eq hj hl'
    rcases hshared with he | he | he
    · exact index_eq_of_shared_child hnodup hi hj (k := (arenaSlot arena i).left.toNat) (by simp [hci]) (by simp [hcj, he])
    · exact index_eq_of_shared_child hnodup hi hj (k := (arenaSlot arena i).left.toNat) (by simp [hci]) (by simp [hcj, he])
    · exact index_eq_of_shared_child hnodup hi hj (k := (arenaSlot arena i).right.toNat) (by simp [hci]) (by simp [hcj, he])

end ArenaInv

/-- The arena that `HUF_BUILD` makes of any frequency table is a tree (rules R163 to R165, R168). -/
theorem arenaTree_buildArena (freq : Vector Word 256) :
    ArenaTree (nodeTable (buildArena freq)) (buildArena freq).length := by
  obtain ⟨last, hlast, hm, ha⟩ := arenaInv_buildArena freq
  refine ha.tree (buildArena_length_le freq) fun q hq => hm.root q ?_
  obtain ⟨x, rfl⟩ := List.length_eq_one_iff.1 (le_antisymm hlast (List.length_pos_of_mem hq))
  rw [List.mem_singleton.1 hq]

/-! ### Every step keeps the tree -/

theorem State.TreeInv.of_eq {s t : State} (h : s.TreeInv) (hnode : t.node = s.node) (hcount : t.nodeCount = s.nodeCount)
    (hvalid : t.status.treeValid = s.status.treeValid) : t.TreeInv := by
  constructor
  · rw [hnode, hcount]
    exact h.tree
  · rw [hvalid, hcount]
    exact h.none

/-- The arena of no nodes (rule R261). -/
theorem treeInv_of_reset {s : State} (hnode : s.node = Vector.replicate 511 .absent) (hcount : s.nodeCount = 0) :
    s.TreeInv := by
  have hempty : s.node = nodeTable [] := by
    rw [hnode]
    ext i hi
    simp [nodeTable]
  refine ⟨?_, fun _ => hcount⟩
  rw [hempty, hcount]
  exact ArenaTree_of_check (arena := []) rfl

theorem setTree_inv (s : State) (freq : Vector Word 256) :
    (s.setTree (nodeTable (buildArena freq)) (buildArena freq).length).TreeInv := by
  refine ⟨?_, nofun⟩
  have hcount := buildArena_length_le freq
  have hn : (BitVec.ofNat 32 (buildArena freq).length).toNat = (buildArena freq).length := by
    exact toNat_ofNat_of_lt (by omega)
  rw [State.setTree_node, State.setTree_nodeCount, hn]
  exact arenaTree_buildArena freq

theorem Commits.keepsTree {s u : State} {i : Instr} (hu : Commits s i u) (h : s.TreeInv) : u.TreeInv := by
  cases hu with
  | hufBuild => exact (setTree_inv s s.freq).of_eq rfl rfl rfl
  | reset => exact treeInv_of_reset rfl rfl
  | _ => refine h.of_eq ?_ ?_ ?_ <;> simp

/-- Settles O48: `HUF_BUILD` alone makes a new arena, which is a tree, and a reset empties it. -/
theorem stepKeepsTree : Obligations.StepKeepsTree := by
  intro s t hs h
  rcases (step_eq_next h).tables_cases with hsame | ⟨i, u, hu, rfl⟩ | ⟨a, rfl⟩
  · exact hs.of_eq hsame.node hsame.nodeCount hsame.treeValid
  · exact (hu.keepsTree hs).of_eq rfl rfl rfl
  · exact treeInv_of_reset rfl rfl

end Sys2Proof.Machine

/-! # Operand errors

Each rule checks its operands in the order of rule R222, so the first check that fails decides the error. -/

namespace Sys2Proof.Machine

theorem bind_of_ok {ε α β : Type} {x : Except ε α} {f : α → Except ε β} {a : α} (h : x = .ok a) : (x >>= f) = f a := by
  rw [h]; rfl

theorem bind_of_error {ε α β : Type} {x : Except ε α} {f : α → Except ε β} {e : ε} (h : x = .error e) :
    (x >>= f) = .error e := bind_eq_error.2 (.inl h)

theorem exec_fails {i : Instr} {s : State} {e : ErrCode} {info value : Nat}
    (h : ruleOf i s = .error (.raise e info value)) : ∃ t, exec i s = .next t ∧ s.failedAs t e info value :=
  ⟨_, exec_of_raise h, failedAs_iff.2 rfl⟩

theorem lenOperand_ok {s : State} {n : BufId} (h : s.len n ≤ s.params.bufCap) : s.lenOperand n = .ok (s.len n) :=
  lenOperand_eq_ok.2 ⟨h, rfl⟩

theorem bitsOperand_ok {s : State} {n : BufId} {len : Nat} (h : s.bits n ≤ 8 * len) :
    s.bitsOperand n len = .ok (s.bits n) := bitsOperand_eq_ok.2 ⟨h, rfl⟩

/-- Settles O33: the check of the source's length is the first of each of these commands. -/
theorem lengthAboveCapacityFails : Obligations.LengthAboveCapacityFails := by
  intro s src dst i h hi
  have hfirst : ∃ f : Nat → Except Stop State, ruleOf i s = s.lenOperand src >>= f := by
    rcases hi with rfl | rfl | rfl | rfl | rfl | rfl | rfl <;> exact ⟨_, rfl⟩
  obtain ⟨f, hf⟩ := hfirst
  exact exec_fails (hf.trans (bind_of_error (lenOperand_error h)))

/-- Settles O34: after the source's length come the bits of a stream, and in `BUF_CMP` the second length. -/
theorem bitsAboveLengthFails : Obligations.BitsAboveLengthFails := by
  intro s src dst i hlen
  refine ⟨fun hbits hi => ?_, fun hdst => ?_⟩
  · have hsecond : ∃ f : Nat → Nat → Except Stop State,
        ruleOf i s = s.lenOperand src >>= fun len => s.bitsOperand src len >>= f len := by
      rcases hi with rfl | rfl | rfl <;> exact ⟨_, rfl⟩
    obtain ⟨f, hf⟩ := hsecond
    exact exec_fails (hf.trans ((bind_of_ok (lenOperand_ok hlen)).trans (bind_of_error (bitsOperand_error hbits))))
  · exact exec_fails (i := .bufCmp src dst)
      ((bind_of_ok (lenOperand_ok hlen)).trans (bind_of_error (lenOperand_error hdst)))

/-- Settles O35: `MAX_DICT` is checked after the lengths. -/
theorem maxDictOutOfRangeFails : Obligations.MaxDictOutOfRangeFails := by
  intro s src dst hlen hmax
  refine ⟨?_, fun hbits => ?_⟩
  · exact exec_fails (i := .lzwEnc src dst)
      ((bind_of_ok (lenOperand_ok hlen)).trans (bind_of_error (maxDictOperand_error hmax)))
  · exact exec_fails (i := .lzwDec src dst)
      ((bind_of_ok (lenOperand_ok hlen)).trans ((bind_of_ok (bitsOperand_ok hbits)).trans
        (bind_of_error (maxDictOperand_error hmax))))

/-- The first code that does not fit the width, after the codes `fit` that do, is the error (rule R144). -/
theorem codesOperand_error {s : State} {w i k : Nat} {fit : List Word} {c : Word} (hk : fit.length < k)
    (hfit : ∀ j (h : j < fit.length), cellGet s.codes (i + j) = some fit[j] ∧ fit[j].toNat < 2 ^ w)
    (hc : cellGet s.codes (i + fit.length) = some c) (hw : 2 ^ w ≤ c.toNat) :
    s.codesOperand w i k = .error (.raise .configError (codesBase + 4 * (i + fit.length)) c.toNat) := by
  induction fit generalizing i k with
  | nil =>
    obtain ⟨k, rfl⟩ : ∃ m, k = m + 1 := Nat.exists_eq_add_one.2 hk
    exact (bind_of_ok (readCode_eq_ok.2 hc)).trans (bind_of_error (require_eq_error.2 ⟨not_lt.2 hw, rfl⟩))
  | cons d fit ih =>
    rw [List.length_cons] at hk hc ⊢
    obtain ⟨k, rfl⟩ : ∃ m, k = m + 1 := Nat.exists_eq_add_one.2 (by omega)
    obtain ⟨hd, hdw⟩ := hfit 0 (by simp)
    have hshift : ∀ j, i + 1 + j = i + (j + 1) := fun j => by omega
    have hrest := ih (i := i + 1) (k := k) (by omega)
      (fun j hj => (hshift j).symm ▸ hfit (j + 1) (Nat.succ_lt_succ hj)) (by rwa [hshift])
    rw [hshift] at hrest
    exact (bind_of_ok (readCode_eq_ok.2 hd)).trans
      ((bind_of_ok (require_eq_ok (u := ()).2 hdw)).trans (bind_of_error hrest))

/-- Settles O37: `CODE_PACK` checks its width, then its count, then each code in index order. -/
theorem codePackOperandErrors : Obligations.CodePackOperandErrors := by
  intro s dst hlo hhi
  have hwidth : s.widthOperand = .ok s.bitWidth.toNat := widthOperand_eq_ok.2 ⟨⟨hlo, hhi⟩, rfl⟩
  refine ⟨fun hcount => ?_, fun hcount fit c hk hfit hc hw => ?_⟩
  · exact exec_fails (i := .codePack dst)
      ((bind_of_ok hwidth).trans (bind_of_error (codeCountOperand_error hcount)))
  · have herror := codesOperand_error (i := 0) hk (by simpa using hfit) (by simpa using hc) hw
    rw [Nat.zero_add] at herror
    exact exec_fails (i := .codePack dst)
      ((bind_of_ok hwidth).trans ((bind_of_ok (codeCountOperand_eq_ok.2 ⟨hcount, rfl⟩)).trans (bind_of_error herror)))

end Sys2Proof.Machine

/-! # The host's side of the core -/

namespace Sys2Proof.Machine

/-! ### Accesses while idle -/

theorem locate_ofNat {p : Params} {size : Size} {a : Nat} {l : Location} (ha : a < 0x100000000) (h0 : a % size.bytes = 0)
    (hl : Located p size a l) : locate p size (BitVec.ofNat 32 a) = some l := by
  rw [locate_eq_some, toNat_ofNat_of_lt ha]
  exact ⟨h0, hl⟩

theorem hostRead_idle {s : State} {size : Size} {addr : Word} {l : Location} (hb : s.status.busy = false)
    (hl : locate s.params size addr = some l) {v : Word} (hv : s.readIdle size l = .ok v) :
    hostRead s size addr = .ok (v, s) := by
  simp [hostRead, hl, hb, hv]

theorem hostRead_idle_error {s : State} {size : Size} {addr : Word} {l : Location} (hb : s.status.busy = false)
    (hl : locate s.params size addr = some l) {e : Fault} (he : s.readIdle size l = .error e) :
    hostRead s size addr = .error e := by
  simp [hostRead, hl, hb, he]

theorem hostWrite_idle {s : State} {size : Size} {addr : Word} {l : Location} (hb : s.status.busy = false)
    (hl : locate s.params size addr = some l) (v : Word) : hostWrite s size addr v = .ok (s.writeIdle size v l) := by
  simp [hostWrite, hl, hb]

/-! ### Writes while busy -/

/-- Settles O52: a busy write is that of `CTRL`, that of `STATUS`, or sets `WERR`. -/
theorem busyWritesAreIgnored : Obligations.BusyWritesAreIgnored := by
  intro s t size addr v l hb hl h
  obtain ⟨l', hl', rfl⟩ := hostWrite_eq_ok h
  obtain rfl := Option.some.inj (hl.symm.trans hl')
  rw [if_pos hb]
  refine ⟨?_, ?_, writeBusy_eq_setWerr⟩
  · rintro rfl; rfl
  · rintro rfl; rfl

/-! ### Fields of a word -/

theorem getLsbD_eq_of_div {w i : Nat} {x : BitVec w} {b : Bool} (h : x.toNat / 2 ^ i % 2 = b.toNat) : x.getLsbD i = b := by
  rw [BitVec.getLsbD, Nat.testBit_eq_decide_div_mod_eq, h]
  cases b <;> rfl

theorem extractLsb'_eq_of_div {w i k : Nat} {x : BitVec w} {y : BitVec k} (h : x.toNat / 2 ^ i % 2 ^ k = y.toNat) :
    x.extractLsb' i k = y := by
  apply BitVec.eq_of_toNat_eq
  rw [BitVec.extractLsb'_toNat, Nat.shiftRight_eq_div_pow, h]

theorem extractLsb'_eq_zero {w i k : Nat} {x : BitVec w} (h : x.toNat / 2 ^ i % 2 ^ k = 0) : x.extractLsb' i k = 0 :=
  extractLsb'_eq_of_div (h.trans BitVec.toNat_zero.symm)

/-! ### `STATUS` -/

theorem Status.fields_le (st : Status) :
    st.busy.toNat ≤ 1 ∧ st.done.toNat ≤ 1 ∧ st.err.code ≤ 7 ∧ st.empty.toNat ≤ 1 ∧ st.frozen.toNat ≤ 1 ∧
      st.treeValid.toNat ≤ 1 ∧ st.bookValid.toNat ≤ 1 ∧ st.werr.toNat ≤ 1 :=
  have herr : st.err.code ≤ 7 := by cases st.err <;> decide
  ⟨Bool.toNat_le _, Bool.toNat_le _, herr, Bool.toNat_le _, Bool.toNat_le _, Bool.toNat_le _, Bool.toNat_le _,
    Bool.toNat_le _⟩

theorem Status.toNat_toWord (st : Status) :
    st.toWord.toNat = st.busy.toNat + 2 * st.done.toNat + 16 * st.err.code + 256 * st.empty.toNat + 512 * st.frozen.toNat
      + 4096 * st.treeValid.toNat + 8192 * st.bookValid.toNat + 65536 * st.werr.toNat := by
  have := st.fields_le
  rw [Status.toWord, toNat_ofNat_of_lt (by omega)]
  omega

/-- A write to `STATUS` takes effect in every state (rule R25). -/
theorem hostWrite_status (s : State) (v : Word) :
    hostWrite s .s32 0x08 v = .ok { s with status := s.status.writeOneToClear v } := by
  have hl : locate s.params .s32 0x08 = some (.register .status) := locate_register s.params rfl (by decide)
  rw [hostWrite, hl]
  dsimp only
  split_ifs <;> rfl

/-- Settles O55: the fields lie in different bits below bit 17, and a write clears `DONE` and `WERR` as its bits 1 and 16 say. -/
theorem statusWordLayout : Obligations.StatusWordLayout := by
  refine ⟨fun st => ?_, rfl, fun s v => ?_⟩
  · have hw := st.toNat_toWord
    have := st.fields_le
    refine ⟨getLsbD_eq_of_div ?_, getLsbD_eq_of_div ?_, ?_, getLsbD_eq_of_div ?_, getLsbD_eq_of_div ?_,
      getLsbD_eq_of_div ?_, getLsbD_eq_of_div ?_, getLsbD_eq_of_div ?_, ?_⟩
    case refine_3 =>
      rw [BitVec.extractLsb'_toNat, Nat.shiftRight_eq_div_pow]
      omega
    case refine_9 =>
      rintro b (rfl | rfl | rfl | rfl | rfl | rfl | hb)
      iterate 6 exact getLsbD_eq_of_div (by rw [Bool.toNat_false]; omega)
      have hlt : st.toWord.toNat < 2 ^ 17 := by omega
      exact Nat.testBit_lt_two_pow (hlt.trans_le (Nat.pow_le_pow_right (by decide) hb))
    all_goals omega
  · have hclear : ∀ a b : Bool, (a && !b) = if b then false else a := by decide
    rw [hostWrite_status, Status.writeOneToClear, hclear, hclear]

/-! ### Bus errors and unwritten cells -/

theorem Size.bytes_cases (size : Size) :
    (size = .s32 ∧ size.bytes = 4) ∨ (size ≠ .s32 ∧ 1 ≤ size.bytes ∧ size.bytes ≤ 2) := by
  cases size <;> decide

/-- The bytes of a legal access are all mapped (rule R67). -/
theorem Located.mapped {p : Params} {size : Size} {a k : Nat} {l : Location} (h : Located p size a l)
    (h0 : a % size.bytes = 0) (hk : k < size.bytes) : mappedByte p (a + k) := by
  have hcap := (bufCap_bounds p).2
  have hbase : codesBase = 0x04000000 := rfl
  unfold mappedByte
  cases h with
  | register hs | freq hs | node hs | book hs =>
    subst hs
    change a % 4 = 0 at h0
    change k < 4 at hk
    omega
  | code hs hlo hhi hcode =>
    subst hs
    change a % 4 = 0 at h0
    change k < 4 at hk
    exact .inr (.inr (.inr (.inl ⟨by omega, by omega, by omega⟩)))
  | buffer => exact .inr (.inr (.inr (.inr (by omega))))

/-- An access whose bytes are mapped, of 32 bits outside of the buffers, has a location (rules R64, R66, R67). -/
theorem Located.exists_of_mapped {p : Params} {size : Size} {a : Nat} (hs : size = .s32 ∨ 0x10000000 ≤ a)
    (hm : ∀ k, k < size.bytes → mappedByte p (a + k)) : ∃ l, Located p size a l := by
  have hcap := (bufCap_bounds p).2
  have hbase : codesBase = 0x04000000 := rfl
  have hbytes := size.bytes_cases
  have hfirst := hm 0 (by omega)
  have hlast := hm (size.bytes - 1) (by omega)
  unfold mappedByte at hfirst hlast
  rw [Nat.add_zero] at hfirst
  rcases hfirst with h | ⟨hlo, hhi⟩ | ⟨hlo, hhi⟩ | ⟨hlo, hhi, hcode⟩ | ⟨hlo, hhi, hbuf⟩
  · exact ⟨_, .register (hs.resolve_right (by omega)) h⟩
  · exact ⟨_, .freq (hs.resolve_right (by omega)) hlo hhi⟩
  · rcases lt_or_ge a 0x4000 with h | h
    · exact ⟨_, .node (hs.resolve_right (by omega)) hlo h⟩
    · exact ⟨_, .book (hs.resolve_right (by omega)) h hhi⟩
  · exact ⟨_, .code (hs.resolve_right (by omega)) hlo hhi hcode⟩
  · exact ⟨_, .buffer hlo hhi (by omega)⟩

theorem Located.wide_or_buffer {p : Params} {size : Size} {a : Nat} {l : Location} (h : Located p size a l) :
    size = .s32 ∨ 0x10000000 ≤ a := by
  cases h with
  | buffer hlo => exact .inr hlo
  | register hs | freq hs | node hs | book hs | code hs => exact .inl hs

theorem locate_eq_none {p : Params} {size : Size} {addr : Word} :
    locate p size addr = none ↔
      addr.toNat % size.bytes ≠ 0 ∨ (size ≠ .s32 ∧ addr.toNat < 0x10000000) ∨
        ∃ k, k < size.bytes ∧ ¬mappedByte p (addr.toNat + k) := by
  rw [← not_iff_not, ← ne_eq, Option.ne_none_iff_exists']
  simp only [locate_eq_some, exists_and_left, not_or, not_and_or, not_exists, not_not, ne_eq, not_lt]
  refine and_congr_right fun h0 => ⟨fun ⟨l, hl⟩ => ⟨hl.wide_or_buffer, fun k => ?_⟩, fun ⟨hs, hm⟩ => ?_⟩
  · exact or_iff_not_imp_left.2 fun hk => hl.mapped h0 (not_le.1 hk)
  · exact Located.exists_of_mapped hs fun k hk => (hm k).resolve_left (not_le.2 hk)

theorem memRead_error {m : List Host.Cell} {a n : Nat} {e : Fault} (h : memRead m a n = .error e) :
    ∃ b, e = .unwrittenRead b := by
  induction n generalizing a with
  | zero => cases h
  | succ n ih =>
    simp only [memRead] at h
    split at h
    · cases h; exact ⟨_, rfl⟩
    · split at h
      · cases h
      · rename_i he
        cases h
        exact ih he

/-- A read of a mapped location faults at an unwritten cell only (rule R59). -/
theorem readIdle_error {s : State} {size : Size} {l : Location} {e : Fault} (h : s.readIdle size l = .error e) :
    ∃ b, e = .unwrittenRead b := by
  cases l with
  | code i =>
    simp only [State.readIdle] at h
    split at h
    · cases h
    · cases h; exact ⟨_, rfl⟩
  | buffer a =>
    simp only [State.readIdle] at h
    split at h
    · cases h
    · rename_i he
      cases h
      exact memRead_error he
  | _ => cases h

theorem hostRead_busError_iff {s : State} {size : Size} {addr : Word} :
    locate s.params size addr = none ↔ hostRead s size addr = .error (.busError addr size) := by
  refine ⟨fun h => by simp [hostRead, h], fun h => ?_⟩
  unfold hostRead at h
  split at h
  · assumption
  · split_ifs at h
    split at h
    · cases h
    · rename_i he
      cases h
      obtain ⟨b, hb⟩ := readIdle_error he
      cases hb

theorem hostWrite_busError_iff {s : State} {size : Size} {addr v : Word} :
    locate s.params size addr = none ↔ hostWrite s size addr v = .error (.busError addr size) := by
  refine ⟨fun h => by simp [hostWrite, h], fun h => ?_⟩
  unfold hostWrite at h
  split at h
  · assumption
  · cases h

/-- Settles O56: a location exists exactly for the aligned accesses to mapped bytes, and without one each access is a bus error. -/
theorem hostAccessFaults : Obligations.HostAccessFaults := by
  refine ⟨fun s size addr v => ⟨locate_eq_none, hostRead_busError_iff, hostWrite_busError_iff⟩, fun s addr hb => ⟨?_, ?_⟩⟩
  · intro ha size hl k hk hwritten hnone
    refine hostRead_idle_error hb (locate_buffer ha hl) ?_
    rw [State.readIdle, memRead_unwritten hk hwritten hnone]
  · intro i hi ha hnone
    have hcap := (bufCap_bounds s.params).2
    unfold Params.codeCap at hi
    have hbase : codesBase = 0x04000000 := rfl
    have hidx : (addr.toNat - codesBase) / 4 = i := by omega
    have hl : locate s.params .s32 addr = some (.code i) := by
      rw [locate_eq_some, ← hidx]
      exact ⟨by simp only [Size.bytes]; omega, .code rfl (by omega) (by omega) (by rw [hidx]; exact hi)⟩
    refine hostRead_idle_error hb hl ?_
    rw [State.readIdle, hnone, ha, hbase]

/-! ### Registers while idle -/

@[simp] theorem Reg.at_addr (r : Reg) : Reg.at r.addr = r := by
  cases r with
  | bufLen n | bufBits n => revert n; decide
  | _ => rfl

theorem Reg.addr_bounds (r : Reg) : r.addr % 4 = 0 ∧ r.addr < 0x100 := by
  cases r with
  | bufLen n | bufBits n => revert n; decide
  | _ => decide

theorem hostRead_reg {s : State} (hb : s.status.busy = false) (r : Reg) :
    hostRead s .s32 (BitVec.ofNat 32 r.addr) = .ok (s.readReg r, s) := by
  rw [hostRead_register hb r.addr_bounds.1 r.addr_bounds.2, Reg.at_addr]

theorem hostWrite_reg {s : State} (hb : s.status.busy = false) (v : Word) (r : Reg) :
    hostWrite s .s32 (BitVec.ofNat 32 r.addr) v = .ok (s.writeReg v r) := by
  rw [hostWrite_register hb r.addr_bounds.1 r.addr_bounds.2, Reg.at_addr]

/-- The registers that hold a parameter of a command: the host writes them, and any 32-bit value (rules R35 to R37, R43, R44). -/
def Reg.isParameter : Reg → Bool
  | .maxDict | .bitWidth | .codeCount | .bufLen _ | .bufBits _ => true
  | .id | .ctrl | .status | .cmd | .nextCode | .errInfo | .errValue | .nodeCount | .maxCodeLen | .bufCapR | .dictCapR
  | .reserved => false

theorem writeReg_status {r : Reg} (hr : r.isParameter = true) (s : State) (v : Word) :
    (s.writeReg v r).status = s.status := by
  cases r with
  | maxDict | bitWidth | codeCount | bufLen | bufBits => rfl
  | _ => cases hr

theorem readReg_writeReg_same {r : Reg} (hr : r.isParameter = true) (s : State) (v : Word) :
    (s.writeReg v r).readReg r = v := by
  cases r with
  | maxDict | bitWidth | codeCount => rfl
  | bufLen | bufBits => exact Vector.getElem_set_self _
  | _ => cases hr

theorem readReg_writeReg_other {r q : Reg} (hr : r.isParameter = true) (hq : q ≠ r) (s : State) (v : Word) :
    (s.writeReg v r).readReg q = s.readReg q := by
  cases r with
  | maxDict =>
    cases q with
    | maxDict => exact absurd rfl hq
    | _ => rfl
  | bitWidth =>
    cases q with
    | bitWidth => exact absurd rfl hq
    | _ => rfl
  | codeCount =>
    cases q with
    | codeCount => exact absurd rfl hq
    | _ => rfl
  | bufLen n =>
    cases q with
    | bufLen m => exact Vector.getElem_set_ne n.isLt m.isLt fun he => hq (congrArg Reg.bufLen (Fin.ext he.symm))
    | _ => rfl
  | bufBits n =>
    cases q with
    | bufBits m => exact Vector.getElem_set_ne n.isLt m.isLt fun he => hq (congrArg Reg.bufBits (Fin.ext he.symm))
    | _ => rfl
  | _ => cases hr

/-- The words that the register summary leaves out are reserved (rule R46). -/
theorem Reg.at_reserved {a : Nat} (h4 : a % 4 = 0) (h : (0x30 ≤ a ∧ a < 0x40) ∨ (0x68 ≤ a ∧ a < 0x100)) :
    Reg.at a = .reserved := by
  have hwords : ∀ k < 0x40, (0xC ≤ k ∧ k < 0x10) ∨ 0x1A ≤ k → Reg.at (4 * k) = .reserved := by decide
  obtain ⟨k, rfl⟩ := Nat.dvd_of_mod_eq_zero h4
  exact hwords k (by omega) (by omega)

/-! ### Tables while idle -/

/-- A write to a view is ignored (rules R50, R52). -/
theorem hostWrite_view {s : State} {a : Nat} (hb : s.status.busy = false) (hlo : 0x2000 ≤ a) (hhi : a < 0x8000)
    (h4 : a % 4 = 0) (v : Word) : hostWrite s .s32 (BitVec.ofNat 32 a) v = .ok s := by
  rcases lt_or_ge a 0x4000 with h | h
  · exact hostWrite_idle hb (locate_ofNat (by omega) h4 (.node rfl hlo h)) v
  · exact hostWrite_idle hb (locate_ofNat (by omega) h4 (.book rfl h hhi)) v

theorem locate_freq (p : Params) (u : Byte) :
    locate p .s32 (BitVec.ofNat 32 (0x400 + 4 * u.toNat)) = some (.freq u) := by
  have hu := u.isLt
  have hl := Located.freq (p := p) (size := .s32) (a := 0x400 + 4 * u.toNat) rfl (by omega) (by omega)
  rw [show (0x400 + 4 * u.toNat - 0x400) / 4 = u.toNat by omega, BitVec.ofNat_toNat, BitVec.setWidth_eq] at hl
  exact locate_ofNat (by omega) (by simp only [Size.bytes]; omega) hl

theorem locate_codes {p : Params} {i : Nat} (hi : i < p.codeCap) :
    locate p .s32 (BitVec.ofNat 32 (codesBase + 4 * i)) = some (.code i) := by
  have hcap := (bufCap_bounds p).2
  have hbase : codesBase = 0x04000000 := rfl
  have hidx : (codesBase + 4 * i - codesBase) / 4 = i := by omega
  unfold Params.codeCap at hi
  have hl := Located.code (p := p) (size := .s32) (a := codesBase + 4 * i) rfl (by omega) (by omega)
    (by rw [hidx]; exact hi)
  rw [hidx] at hl
  exact locate_ofNat (by omega) (by simp only [Size.bytes]; omega) hl

/-- The registers of the summary, in the order of their addresses. -/
def Reg.summary : List Reg :=
  [.id, .ctrl, .status, .cmd, .maxDict, .bitWidth, .codeCount, .nextCode, .errInfo, .errValue, .nodeCount, .maxCodeLen,
    .bufLen 0, .bufBits 0, .bufLen 1, .bufBits 1, .bufLen 2, .bufBits 2, .bufLen 3, .bufBits 3, .bufCapR, .dictCapR]

/-- Settles O54: every address is that of a register or of a table's entry, and each has its read and its write. -/
theorem idleHostWrites : Obligations.IdleHostWrites := by
  intro s v hb
  refine ⟨fun a x hmem => ?_, fun a t hmem => ?_, fun a hmem => ?_, fun a h4 ha => ?_, fun r hmem => ?_,
    fun a hlo hhi h4 => hostWrite_view hb hlo hhi h4 v, fun u => ?_, fun i hi => ?_⟩
  · obtain ⟨r, -, he⟩ := List.mem_map.1 (show (a, x) ∈ Reg.summary.map fun r => (r.addr, s.readReg r) from hmem)
    cases he
    exact hostRead_reg hb r
  · obtain ⟨r, -, he⟩ := List.mem_map.1 (show (a, t) ∈ [Reg.ctrl, .maxDict, .bitWidth, .codeCount, .bufLen 0, .bufBits 0,
      .bufLen 1, .bufBits 1, .bufLen 2, .bufBits 2, .bufLen 3, .bufBits 3].map fun r => (r.addr, s.writeReg v r) from hmem)
    cases he
    exact hostWrite_reg hb v r
  · obtain ⟨r, hr, rfl⟩ := List.mem_map.1 (show a ∈ [Reg.id, .nextCode, .errInfo, .errValue, .nodeCount, .maxCodeLen,
      .bufCapR, .dictCapR].map Reg.addr from hmem)
    have hsame : ∀ r ∈ [Reg.id, .nextCode, .errInfo, .errValue, .nodeCount, .maxCodeLen, .bufCapR, .dictCapR],
        s.writeReg v r = s := by simp [State.writeReg]
    rw [hostWrite_reg hb, hsame r hr]
  · rw [hostRead_register hb h4 (by omega), hostWrite_register hb h4 (by omega), Reg.at_reserved h4 ha]
    exact ⟨rfl, rfl⟩
  · have hr : r.isParameter = true := by
      revert r
      decide
    refine ⟨_, hostWrite_reg hb v r, ?_, fun q hq => readReg_writeReg_other hr hq s v⟩
    rw [hostRead_reg (by rw [writeReg_status hr, hb]), readReg_writeReg_same hr]
  · have hsame : (s.writeIdle .s32 v (.freq u)).freqOf u = v := Vector.getElem_set_self _
    refine ⟨_, hostWrite_idle hb (locate_freq _ u) v, rfl,
      hostRead_idle (s := s.writeIdle .s32 v (.freq u)) hb (locate_freq _ u) ?_, hsame, fun w hw => ?_⟩
    · rw [State.readIdle, hsame]
    · exact Vector.getElem_set_ne u.isLt w.isLt fun he => hw (BitVec.eq_of_toNat_eq he.symm)
  · have hsame : cellGet (s.writeIdle .s32 v (.code i)).codes i = some v := cellGet_cellPut_same ..
    refine ⟨_, hostWrite_idle hb (locate_codes hi) v, rfl,
      hostRead_idle (s := s.writeIdle .s32 v (.code i)) hb (locate_codes hi) ?_, hsame, fun j hj => cellGet_cellPut_other hj⟩
    rw [State.readIdle, hsame]

/-! ### The views -/

/-- A read of word `w` of the view of `NODE[i]` (rule R50). -/
theorem hostRead_node {s : State} (hb : s.status.busy = false) {i w : Nat} (hi : i < 512) (hw : w < 4) :
    hostRead s .s32 (BitVec.ofNat 32 (0x2000 + 16 * i + 4 * w)) = .ok ((slotOf s.node i).word w, s) := by
  have hl := Located.node (p := s.params) (size := .s32) (a := 0x2000 + 16 * i + 4 * w) rfl (by omega) (by omega)
  rw [show (0x2000 + 16 * i + 4 * w - 0x2000) / 16 = i by omega,
    show (0x2000 + 16 * i + 4 * w - 0x2000) % 16 / 4 = w by omega] at hl
  exact hostRead_idle hb (locate_ofNat (by omega) (by simp only [Size.bytes]; omega) hl) rfl

/-- A read of word `w` of the view of `BOOK[v]` (rule R52). -/
theorem hostRead_book {s : State} (hb : s.status.busy = false) (v : Byte) {w : Nat} (hw : w < 16) :
    hostRead s .s32 (BitVec.ofNat 32 (0x4000 + 64 * v.toNat + 4 * w)) = .ok (bookWord (s.bookCode v) w, s) := by
  have hv := v.isLt
  have hl := Located.book (p := s.params) (size := .s32) (a := 0x4000 + 64 * v.toNat + 4 * w) rfl (by omega) (by omega)
  rw [show (0x4000 + 64 * v.toNat + 4 * w - 0x4000) / 64 = v.toNat by omega,
    show (0x4000 + 64 * v.toNat + 4 * w - 0x4000) % 64 / 4 = w by omega, BitVec.ofNat_toNat, BitVec.setWidth_eq] at hl
  exact hostRead_idle hb (locate_ofNat (by omega) (by simp only [Size.bytes]; omega) hl) rfl

theorem Slot.toNat_word_zero (n : Slot) :
    (n.word 0).toNat = 2 ^ 31 * n.present.toNat + 2 ^ 30 * n.isLeaf.toNat + n.sym.toNat := by
  have := Bool.toNat_le n.present
  have := Bool.toNat_le n.isLeaf
  have := n.sym.isLt
  rw [Slot.word, toNat_ofNat_of_lt (by omega)]

theorem Slot.toNat_word_one (n : Slot) : (n.word 1).toNat = n.left.toNat + 2 ^ 16 * n.right.toNat := by
  have := n.left.isLt
  have := n.right.isLt
  rw [Slot.word, toNat_ofNat_of_lt (by omega)]

/-- Bit `31 - b` of a number read from 32 bits is bit `b` of the list (rule R13). -/
theorem testBit_num {bits : List Bool} {b : Nat} (h : b < bits.length) :
    (num bits).testBit (bits.length - 1 - b) = bits[b] := by
  have hb : b < (bin bits.length (num bits)).length := by rwa [length_bin]
  rw [← getElem_bin hb]
  simp only [bin_num]

/-- Word `w` of a codebook entry has bits `32 (w - 1)` to `32 w - 1` of the code, most significant first (rule R52). -/
theorem getLsbD_bookWord {code : List Bool} {w b : Nat} (h1 : 1 ≤ w) (h8 : w ≤ 8) (hb : b < 32) :
    (bookWord code w).getLsbD (31 - b) = code.getD (32 * (w - 1) + b) false := by
  have htest := testBit_num (bits := (List.range 32).map fun j => code.getD (32 * (w - 1) + j) false) (b := b)
    (by simpa using hb)
  rw [bookWord, if_neg (by omega), if_pos h8, BitVec.getLsbD_ofNat, decide_eq_true (by omega), Bool.true_and]
  simpa using htest

/-- Settles O58: the words of a view are numbers whose fields lie in different bits. -/
theorem tableViews : Obligations.TableViews := by
  refine ⟨?_, fun s v w hb hw hlen => ⟨_, hostRead_book hb v hw, ?_, fun h1 h8 b => getLsbD_bookWord h1 h8, fun h9 => ?_⟩⟩
  · rintro s i n hb hi rfl
    refine ⟨_, _, _, _, hostRead_node hb hi (w := 0) (by decide), hostRead_node hb hi (w := 1) (by decide),
      hostRead_node hb hi (w := 2) (by decide), hostRead_node hb hi (w := 3) (by decide), ?_⟩
    generalize slotOf s.node i = n
    have h0 := n.toNat_word_zero
    have h1 := n.toNat_word_one
    have := Bool.toNat_le n.present
    have := Bool.toNat_le n.isLeaf
    have := n.sym.isLt
    have := n.left.isLt
    have := n.right.isLt
    refine ⟨getLsbD_eq_of_div ?_, getLsbD_eq_of_div ?_, extractLsb'_eq_of_div ?_, extractLsb'_eq_zero ?_,
      extractLsb'_eq_of_div ?_, extractLsb'_eq_of_div ?_, extractLsb'_eq_zero ?_, extractLsb'_eq_zero ?_, rfl, ?_⟩
    case refine_9 => exact BitVec.toNat_setWidth_of_le (by decide)
    all_goals omega
  · rintro rfl
    rw [bookWord, if_pos rfl, toNat_ofNat_of_lt (by omega), Nat.mod_eq_of_lt (by omega)]
  · rw [bookWord, if_neg (by omega), if_neg (by omega)]

end Sys2Proof.Machine

/-! # The order of steps, and host accesses to the core

A step is the engine's or the host's next operation (rules R70, R80), and a host that waits comes back to the state it was in, one
step nearer to the engine's. The bytes of a buffer access are the digits of its value to the base 256, least significant first
(rules R61, R79). -/

namespace Sys2Proof.Machine

/-! ### The engine's turn and the host's -/

theorem engineStep_of_decode {s : State} {i : Instr} (h : decode s.cmd = .ok i) : engineStep s = exec i s := by
  rw [engineStep, decode?_eq_some.2 h]

theorem hostStep_of_ended {s : State} (h : s.agent.host = []) : hostStep s = .next s := by
  rw [hostStep, h]

/-- Settles O3: the engine's turn runs the decoded command, the host's turn the host's next operation, which ends as it does. -/
theorem stepRunsDecoded : Obligations.StepRunsDecoded := by
  refine ⟨fun s i ht hd => ?_, fun s ht hh => ?_, ?_⟩
  · rw [step_of_engineTurn ht, engineStep_of_decode hd]
  · rw [step_of_hostTurn ht, hostStep_of_ended hh]
  · intro s u op rest ht hh hu
    obtain rfl : u = s.popHost rest := hu
    obtain ⟨hok, herr⟩ := step_of_hostOp ht hh
    refine ⟨?read, ?write, ?wait, ?check, ?expect⟩
    case read =>
      rintro size addr rfl
      exact ⟨fun v t h => hok _ (by rw [hostOp, h]; rfl), fun e h => herr e (by rw [hostOp, h])⟩
    case write =>
      rintro size addr v rfl
      exact ⟨hok, herr⟩
    case wait =>
      rintro rfl
      exact hok _ rfl
    case check =>
      rintro e rfl
      split_ifs with he
      · exact hok _ (if_pos he)
      · exact herr _ (if_neg he)
    case expect =>
      rintro addr v rfl
      refine ⟨fun got t h => ?_, fun e h => herr e (by rw [hostOp, h])⟩
      split_ifs with hv
      · exact hok t (by rw [hostOp, h]; exact if_pos hv)
      · exact herr _ (by rw [hostOp, h]; exact if_neg hv)

theorem engineTurn_of_busy {s : State} (hb : s.status.busy = true) (h : s.agent.host = [] ∨ s.agent.delay = 0) :
    s.engineTurn = true := by
  rcases h with h | h <;> simp [State.engineTurn, hb, h]

/-- A `WAIT` while busy leaves all but the number of host steps before the engine's, which it makes one less (rule R105). -/
theorem step_wait {s : State} {d : Nat} {rest : List HostOp} (hb : s.status.busy = true)
    (hh : s.agent.host = .wait :: rest) (hd : s.agent.delay = d + 1) :
    step s = .next (s.withAgent { s.agent with delay := d }) := by
  have ht : s.engineTurn = false := by simp [State.engineTurn, hh, hd]
  have hagain : (s.popHost rest).again .wait = s.withAgent { s.agent with delay := d } := by
    simp [State.again, State.popHost, State.withAgent, hh, hd]
  refine (step_of_hostOp ht hh).1 _ ?_
  rw [← hagain]
  exact congrArg Except.ok (if_pos hb)

/-- While the host waits, the engine moves after the pending host steps (rule R86). -/
theorem run_wait {d : Nat} {s : State} {rest : List HostOp} (hb : s.status.busy = true) (hh : s.agent.host = .wait :: rest)
    (hd : s.agent.delay = d) : core.run (d + 1) s = engineStep (s.withAgent { s.agent with delay := 0 }) := by
  induction d generalizing s with
  | zero =>
    have hs : s.withAgent { s.agent with delay := 0 } = s := by rw [← hd]; rfl
    rw [core_run_one, step_of_engineTurn (engineTurn_of_busy hb (.inr hd)), hs]
  | succ d ih =>
    rw [core_run_next (step_wait hb hh hd), ih (s := s.withAgent { s.agent with delay := d }) hb hh rfl]
    rfl

/-- Settles O59, by induction on the pending host steps of a host that waits. -/
theorem waitReachesCompletion : Obligations.WaitReachesCompletion :=
  ⟨fun _ _ hb hh => run_wait hb hh rfl, fun _ hb h => step_of_engineTurn (engineTurn_of_busy hb h)⟩

/-! ### Issue -/

theorem HostAgent.startDelay_host (h : HostAgent) : h.startDelay.host = h.host := by
  unfold HostAgent.startDelay
  split <;> rfl

/-- Settles O51: the write is an issue, and the host program goes on as before. -/
theorem issueLatchesCommand : Obligations.IssueLatchesCommand := fun s c hb =>
  ⟨s.issue c, hostWrite_reg hb c .cmd, s.agent.startDelay_host, rfl⟩

/-! ### Reads while busy -/

theorem Size.low_lt (size : Size) (v : Word) : (size.low v).toNat < 2 ^ (8 * size.bytes) := by
  rw [Size.low, BitVec.toNat_ofNat]
  exact (Nat.mod_le ..).trans_lt (Nat.mod_lt _ (by positivity))

/-- What a busy core does not let the host see reads as an unspecified value (rule R84). -/
theorem hostRead_unspecified {s : State} {size : Size} {addr : Word} {l : Location} (hb : s.status.busy = true)
    (hl : locate s.params size addr = some l) (hr : l.readableBusy = false) :
    hostRead s size addr = .ok (size.low (Config.busyRead s.agent.draws), s.drawn) := by
  simp [hostRead, hl, hb, hr]

/-- What stays readable while busy reads as while idle (rule R84). -/
theorem hostRead_readableBusy {s : State} {size : Size} {addr : Word} {r : Reg}
    (hl : locate s.params size addr = some (.register r)) (hr : (Location.register r).readableBusy = true) :
    hostRead s size addr = .ok (s.readReg r, s) := by
  simp [hostRead, hl, hr, State.readIdle]

theorem Location.eq_register_of_readableBusy {l : Location} (h : l.readableBusy = true) : ∃ r, l = .register r := by
  cases l with
  | register r => exact ⟨r, rfl⟩
  | _ => cases h

/-- A register accepts 32-bit accesses only (rule R64). -/
theorem size_of_locate_register {p : Params} {size : Size} {addr : Word} {r : Reg}
    (h : locate p size addr = some (.register r)) : size = .s32 := by
  generalize hl : Location.register r = l at h
  cases (locate_eq_some.1 h).2 with
  | register hs => exact hs
  | _ => cases hl

/-- Settles O53: a busy read is that of one of the four readable registers, or draws an unspecified value. -/
theorem busyReads : Obligations.BusyReads := by
  intro s size addr l hb hl
  cases hr : l.readableBusy with
  | false =>
    refine ⟨_, _, hostRead_unspecified hb hl hr, rfl, rfl, size.low_lt _, ?_, ?_, ?_, ?_⟩ <;>
      (rintro rfl; cases hr)
  | true =>
    obtain ⟨r, rfl⟩ := Location.eq_register_of_readableBusy hr
    obtain rfl := size_of_locate_register hl
    refine ⟨_, _, hostRead_readableBusy hl hr, rfl, rfl, (s.readReg r).isLt, ?_, ?_, ?_, ?_⟩ <;> rintro ⟨⟩
    case refine_2 => exact toNat_ofNat_of_lt (s.irqEn.toNat_le.trans_lt (by decide))
    all_goals rfl

/-! ### Little-endian buffers -/

/-- The `n` cells from `a` on hold the low `n` bytes of `x`, least significant first (rule R61). -/
def StoresValue (m : List Host.Cell) (a n x : Nat) : Prop :=
  ∀ k, k < n → cellGet m (a + k) = some (BitVec.ofNat 8 (x / 256 ^ k))

/-- A value's low byte is in the first cell, the rest of it in the cells after. -/
theorem storesValue_succ {m : List Host.Cell} {a n x : Nat} :
    StoresValue m a (n + 1) x ↔ cellGet m a = some (BitVec.ofNat 8 x) ∧ StoresValue m (a + 1) n (x / 256) := by
  have hrest : ∀ k, x / 256 ^ (k + 1) = x / 256 / 256 ^ k := fun k => by
    rw [Nat.div_div_eq_div_mul, Nat.pow_succ, Nat.mul_comm]
  simp only [StoresValue, Nat.forall_lt_succ_left, hrest, Nat.pow_zero, Nat.div_one, Nat.add_zero, Nat.add_assoc,
    Nat.add_comm 1]

theorem memRead_of_storesValue {m : List Host.Cell} {a n x : Nat} (h : StoresValue m a n x) :
    memRead m a n = .ok (x % 256 ^ n) := by
  induction n generalizing a x with
  | zero => rw [memRead, Nat.pow_zero, Nat.mod_one]
  | succ n ih =>
    obtain ⟨hfirst, hrest⟩ := storesValue_succ.1 h
    simp only [memRead, hfirst, ih hrest]
    have hdigits : x % 256 ^ (n + 1) = x % 256 + 256 * (x / 256 % 256 ^ n) := by rw [Nat.pow_succ', Nat.mod_mul]
    rw [hdigits, BitVec.toNat_ofNat]

/-- Written cells hold the value whose digits they are. -/
theorem exists_storesValue {m : List Host.Cell} {a n : Nat} (h : ∀ k, k < n → cellGet m (a + k) ≠ none) :
    ∃ x < 256 ^ n, StoresValue m a n x := by
  induction n generalizing a with
  | zero => exact ⟨0, Nat.one_pos, nofun⟩
  | succ n ih =>
    obtain ⟨b, hb⟩ := Option.ne_none_iff_exists'.1 (h 0 n.succ_pos)
    obtain ⟨x, hx, hstores⟩ := ih (a := a + 1) fun k hk => by
      rw [Nat.add_assoc, Nat.add_comm 1]
      exact h (k + 1) (Nat.succ_lt_succ hk)
    have hlt := b.isLt
    refine ⟨b.toNat + 256 * x, by rw [Nat.pow_succ]; omega, storesValue_succ.2 ⟨?_, ?_⟩⟩
    · rw [← Nat.add_zero a, hb]
      exact congrArg some (BitVec.eq_of_toNat_eq (by rw [BitVec.toNat_ofNat]; omega))
    · rwa [show (b.toNat + 256 * x) / 256 = x by omega]

/-- Byte `k` of a word is its digit `k` to the base 256. -/
theorem extractLsb'_byte (x : Word) (k : Nat) : x.extractLsb' (8 * k) 8 = BitVec.ofNat 8 (x.toNat / 256 ^ k) := by
  rw [BitVec.extractLsb', Nat.shiftRight_eq_div_pow, Nat.pow_mul]

/-- While idle a buffer access reads the value that its cells hold (rules R61, R79). -/
theorem hostRead_buffer {s : State} {size : Size} {addr : Word} {x : Nat} (hb : s.status.busy = false)
    (hl : locate s.params size addr = some (.buffer addr.toNat)) (h : StoresValue s.mem addr.toNat size.bytes x) :
    hostRead s size addr = .ok (BitVec.ofNat 32 (x % 2 ^ (8 * size.bytes)), s) := by
  refine hostRead_idle hb hl ?_
  rw [State.readIdle, memRead_of_storesValue h, Nat.pow_mul]

theorem storesValue_writeIdle (s : State) (size : Size) (v : Word) (a : Nat) :
    StoresValue (s.writeIdle size v (.buffer a)).mem a size.bytes v.toNat := fun k hk => by
  have hk' : k < (leBytes size.bytes v.toNat).length := by rwa [length_leBytes]
  exact (cellGet_cellPutRun_inside hk').trans (congrArg some (getElem_leBytes hk'))

/-- Settles O57: a buffer access reads and writes the digits of its value to the base 256. -/
theorem bufferAccessIsLittleEndian : Obligations.BufferAccessIsLittleEndian := by
  refine ⟨fun s size addr hb ha hl hwritten => ?_, fun s size addr v hb ha hl => ?_⟩
  · obtain ⟨x, hx, hstores⟩ := exists_storesValue hwritten
    have hread := hostRead_buffer hb (locate_buffer ha hl) hstores
    rw [show 256 = 2 ^ 8 from rfl, ← Nat.pow_mul] at hx
    rw [Nat.mod_eq_of_lt hx] at hread
    have hword : (BitVec.ofNat 32 x).toNat = x :=
      toNat_ofNat_of_lt (hx.trans_le (Nat.pow_le_pow_right (by decide) (by cases size <;> decide)))
    refine ⟨_, hread, by rwa [hword], fun k hk => ?_⟩
    rw [extractLsb'_byte, hword, hstores k hk]
  · have hstores := storesValue_writeIdle s size v addr.toNat
    refine ⟨_, hostWrite_idle hb (locate_buffer ha hl) v, rfl, fun k hk => ?_, fun a hout => ?_, ?_⟩
    · rw [extractLsb'_byte, hstores k hk]
    · exact cellGet_cellPutRun_outside (by rwa [length_leBytes])
    · exact hostRead_buffer (s := s.writeIdle size v (.buffer addr.toNat)) hb (locate_buffer ha hl) hstores

end Sys2Proof.Machine

/-! # Command words

A legal word is the encoding of one opcode and two operands that rule R93 allows: its fields are the opcode and the operands
(rule R91), and the commands are what the opcodes make of their operands (rule R95). -/

namespace Sys2Proof

open Machine

/-! ### Opcodes and the commands they make -/

theorem Opcode.code_lt (op : Opcode) : op.code < 16 := by
  cases op <;> decide

theorem Opcode.ofCode_eq_some {n : Nat} {op : Opcode} : Opcode.ofCode n = some op ↔ op.code = n := by
  constructor
  · intro h
    unfold Opcode.ofCode at h
    split at h <;> cases h <;> rfl
  · rintro rfl
    cases op <;> rfl

/-- The operands that an opcode does not use are 0 (rule R93). -/
def Opcode.ZeroUnused (op : Opcode) (src dst : BufId) : Prop :=
  (op.usesSrc = false → src = 0) ∧ (op.usesDst = false → dst = 0)

theorem Opcode.exists_instr_eq (i : Instr) :
    ∃ (op : Opcode) (src dst : BufId), op.ZeroUnused src dst ∧ op.instr src dst = i := by
  cases i with
  | nop => exact ⟨.nop, 0, 0, ⟨fun _ => rfl, fun _ => rfl⟩, rfl⟩
  | lzwEnc src dst => exact ⟨.lzwEnc, src, dst, ⟨nofun, nofun⟩, rfl⟩
  | lzwDec src dst => exact ⟨.lzwDec, src, dst, ⟨nofun, nofun⟩, rfl⟩
  | codePack dst => exact ⟨.codePack, 0, dst, ⟨fun _ => rfl, nofun⟩, rfl⟩
  | codeUnpack src => exact ⟨.codeUnpack, src, 0, ⟨nofun, fun _ => rfl⟩, rfl⟩
  | hufFreq src => exact ⟨.hufFreq, src, 0, ⟨nofun, fun _ => rfl⟩, rfl⟩
  | hufBuild => exact ⟨.hufBuild, 0, 0, ⟨fun _ => rfl, fun _ => rfl⟩, rfl⟩
  | hufBook => exact ⟨.hufBook, 0, 0, ⟨fun _ => rfl, fun _ => rfl⟩, rfl⟩
  | hufEnc src dst => exact ⟨.hufEnc, src, dst, ⟨nofun, nofun⟩, rfl⟩
  | hufDec src dst => exact ⟨.hufDec, src, dst, ⟨nofun, nofun⟩, rfl⟩
  | bufCmp src dst => exact ⟨.bufCmp, src, dst, ⟨nofun, nofun⟩, rfl⟩
  | reset => exact ⟨.reset, 0, 0, ⟨fun _ => rfl, fun _ => rfl⟩, rfl⟩

theorem Opcode.encode_instr {op : Opcode} {src dst : BufId} (h : op.ZeroUnused src dst) :
    encode (op.instr src dst) = enc op src dst := by
  obtain ⟨hsrc, hdst⟩ := h
  cases op <;> simp_all [Opcode.usesSrc, Opcode.usesDst, Opcode.instr, encode]

theorem Opcode.wellFormed_instr {op : Opcode} {src dst : BufId} :
    (op.instr src dst).wellFormed = true ↔ ¬(op.usesSrc = true ∧ op.usesDst = true ∧ src = dst) := by
  cases op <;> simp [Opcode.usesSrc, Opcode.usesDst, Opcode.instr, Instr.wellFormed]

/-! ### Fields of a word -/

theorem field_eq (c : Word) (lo w : Nat) : field c lo w = c.toNat / 2 ^ lo % 2 ^ w := by
  rw [field, BitVec.extractLsb'_toNat, Nat.shiftRight_eq_div_pow]

/-- Rule R99's sum as it stands: it has no carry out of the word. -/
theorem toNat_enc (op : Opcode) (src dst : BufId) : (enc op src dst).toNat = op.code + 16 * src.val + 64 * dst.val := by
  have := op.code_lt
  exact toNat_ofNat_of_lt (by omega)

/-- A word is the sum of rule R99 exactly when its fields are the opcode and the operands (rule R91). -/
theorem enc_eq_iff {op : Opcode} {src dst : BufId} {c : Word} :
    enc op src dst = c ↔ resField c = 0 ∧ op.code = opField c ∧ src = srcField c ∧ dst = dstField c := by
  have hop := op.code_lt
  rw [← BitVec.toNat_inj, toNat_enc, resField, opField, Fin.ext_iff, Fin.ext_iff, srcField, dstField]
  simp only [field_eq]
  omega

/-! ### Decoding -/

/-- A word decodes to what its opcode makes of its operands, if it passes the checks of rule R94. -/
theorem decode_eq_ok {c : Word} {i : Instr} :
    decode c = .ok i ↔ ∃ (op : Opcode) (src dst : BufId),
      enc op src dst = c ∧ op.ZeroUnused src dst ∧ (op.instr src dst).wellFormed = true ∧ op.instr src dst = i := by
  simp only [enc_eq_iff, Opcode.wellFormed_instr, ← Opcode.ofCode_eq_some, Opcode.ZeroUnused]
  constructor
  · intro h
    unfold decode at h
    split at h
    · cases h
    · next hres =>
      split at h
      · cases h
      · next op hop =>
        split_ifs at h with hsrc hdst hsame
        exact ⟨op, _, _, ⟨not_not.1 hres, hop, rfl, rfl⟩, ⟨not_and_not_right.1 hsrc, not_and_not_right.1 hdst⟩, hsame,
          Except.ok.inj h⟩
  · rintro ⟨op, src, dst, ⟨hres, hop, rfl, rfl⟩, ⟨hsrc, hdst⟩, hdiffer, rfl⟩
    simp only [decode, hop]
    rw [if_neg (not_not.2 hres), if_neg (not_and_not_right.2 hsrc), if_neg (not_and_not_right.2 hdst), if_neg hdiffer]

/-- Settles O2: a word's fields determine the opcode and the operands, and the encoding of a command is the sum that has them. -/
theorem decodeIffEncode : Obligations.DecodeIffEncode := by
  intro c i
  rw [decode_eq_ok]
  constructor
  · rintro ⟨op, src, dst, rfl, hzero, hwf, rfl⟩
    exact ⟨hwf, Opcode.encode_instr hzero⟩
  · rintro ⟨hwf, rfl⟩
    obtain ⟨op, src, dst, hzero, rfl⟩ := Opcode.exists_instr_eq i
    exact ⟨op, src, dst, (Opcode.encode_instr hzero).symm, hzero, hwf, rfl⟩

/-- Settles O1: the words are evaluated, and an encoding's number is the sum of rule R99. -/
theorem encodingFormulaAndWorkedWords : Obligations.EncodingFormulaAndWorkedWords := by
  refine ⟨rfl, rfl, rfl, rfl, rfl, rfl, fun src dst => ?_, by decide⟩
  exact ⟨toNat_enc .nop 0 0, toNat_enc .lzwEnc src dst, toNat_enc .lzwDec src dst, toNat_enc .codePack 0 dst,
    toNat_enc .codeUnpack src 0, toNat_enc .hufFreq src 0, toNat_enc .hufBuild 0 0, toNat_enc .hufBook 0 0,
    toNat_enc .hufEnc src dst, toNat_enc .hufDec src dst, toNat_enc .bufCmp src dst, toNat_enc .reset 0 0⟩

/-! ### Illegal words -/

theorem engineStep_of_illegal {s : State} (h : ∀ i, decode s.cmd ≠ .ok i) : engineStep s = illegalCommand s := by
  have hnone : decode? s.cmd = none := Option.eq_none_iff_forall_ne_some.2 fun i hi => h i (decode?_eq_some.1 hi)
  rw [engineStep, hnone]

/-- Settles O4: the engine's step on a word that no command decodes from records the error and nothing else. -/
theorem illegalWordFails : Obligations.IllegalWordFails := by
  intro s hturn hillegal
  refine ⟨(s.recordError .illegalCommand 0 s.cmd.toNat).finish, ?_, failedAs_iff.2 rfl⟩
  rw [step_of_engineTurn hturn, engineStep_of_illegal hillegal]
  rfl

end Sys2Proof

/-! # The parse of LZW codes

When an LZW command has read the segments `segs` and is at the segment `cur`, its dictionary holds one entry for each segment in
`segs`, as far as `M` allows: the segment and the first byte of the next (rules R116, R127). Encoder and decoder go through the
same dictionaries, so each loop is an induction over its input, with a parse of what it has read as the invariant. -/

namespace Sys2Proof.Machine

variable {data : List Byte} {m c : Nat} {codes : List Nat} {segs : List (List Byte)} {seg : List Byte}

/-! ### Dictionaries along a parse -/

/-- The entries made when the segments `segs` are complete and `cur` is the current one (rules R116, R127). -/
def dictAt (m : Nat) (segs : List (List Byte)) (cur : List Byte) : Dict :=
  (List.range (min segs.length (m - 256))).map (segEntry (segs ++ [cur]))

/-- `next_code` after `n` codes (rules R116, R127). -/
def nextCodeAfter (m n : Nat) : Nat := 256 + min (n - 1) (m - 256)

/-- Whether an insertion was skipped within `n` codes (rules R116, R127, R132). -/
def frozenAfter (m n : Nat) : Bool := decide (m - 256 < n - 1)

/-- Code `c` exists in the dictionary and its sequence is `seg` (rules R111, R125). -/
def Dict.Names (d : Dict) (c : Nat) (seg : List Byte) : Prop := c < d.nextCode ∧ d.entry c = seg

@[simp] theorem dictAt_length (m : Nat) (segs : List (List Byte)) (cur : List Byte) :
    (dictAt m segs cur).length = min segs.length (m - 256) := by simp [dictAt]

theorem dictAt_nextCode (m : Nat) (segs : List (List Byte)) (cur : List Byte) :
    (dictAt m segs cur).nextCode = nextCodeAfter m (segs.length + 1) := by
  simp [Dict.nextCode, nextCodeAfter]

theorem dictAt_getD {j : Nat} {cur : List Byte} (h : j < min segs.length (m - 256)) :
    (dictAt m segs cur).getD j [] = segEntry (segs ++ [cur]) j := by
  simp [dictAt, h]

theorem dictAt_nil (m : Nat) (cur : List Byte) : dictAt m [] cur = [] := by simp [dictAt]

theorem segEntry_append {j : Nat} (h : j + 1 < segs.length) (more : List (List Byte)) :
    segEntry (segs ++ more) j = segEntry segs j := by
  simp [segEntry, List.getElem?_append_left, h, Nat.lt_of_succ_lt h]

theorem segEntry_last (segs : List (List Byte)) (cur next : List Byte) :
    segEntry (segs ++ [cur] ++ [next]) segs.length = cur ++ next.take 1 := by
  simp [segEntry]

/-- Of the current segment only the first byte is in an entry. -/
theorem segEntry_congr {cur cur' : List Byte} (hcur : cur.take 1 = cur'.take 1) {j : Nat}
    (h : j < segs.length) : segEntry (segs ++ [cur]) j = segEntry (segs ++ [cur']) j := by
  rcases Nat.lt_or_eq_of_le (Nat.succ_le_of_lt h) with h | h
  · rw [segEntry_append h, segEntry_append h]
  · simp [segEntry, ← h, hcur]

/-- What follows a match does not change its first byte. -/
theorem take_one_append {cm : List Byte} (h : cm ≠ []) (more : List Byte) : (cm ++ more).take 1 = cm.take 1 :=
  List.take_append_of_le_length (List.length_pos_of_ne_nil h)

theorem dictAt_congr (m : Nat) (segs : List (List Byte)) {cur cur' : List Byte} (hcur : cur.take 1 = cur'.take 1) :
    dictAt m segs cur = dictAt m segs cur' := by
  refine List.map_congr_left fun j hj => segEntry_congr hcur ?_
  rw [List.mem_range] at hj
  omega

/-- The first byte of the next segment makes an entry unless there are `M` (rules R116, R127). -/
theorem dictAt_snoc (m : Nat) (segs : List (List Byte)) (cur next : List Byte) :
    dictAt m (segs ++ [cur]) next =
      if (dictAt m segs cur).nextCode < m then dictAt m segs cur ++ [cur ++ next.take 1] else dictAt m segs cur := by
  have hkeep : ∀ k, k ≤ segs.length →
      (List.range k).map (segEntry (segs ++ [cur] ++ [next])) = (List.range k).map (segEntry (segs ++ [cur])) := by
    refine fun k hk => List.map_congr_left fun j hj => segEntry_append ?_ _
    rw [List.mem_range] at hj
    rw [List.length_append, List.length_singleton]
    omega
  rw [dictAt_nextCode, nextCodeAfter]
  split_ifs with h
  · have hall : min segs.length (m - 256) = segs.length := by omega
    have hmore : min (segs ++ [cur]).length (m - 256) = segs.length + 1 := by simp; omega
    rw [dictAt, dictAt, hall, hmore, List.range_succ, List.map_append, hkeep _ le_rfl, List.map_singleton, segEntry_last]
  · have hsame : min (segs ++ [cur]).length (m - 256) = min segs.length (m - 256) := by simp; omega
    rw [dictAt, dictAt, hsame, hkeep _ (by omega)]

theorem frozenAfter_one (m : Nat) : frozenAfter m 1 = false := by simp [frozenAfter]

/-- A code for which there is no room freezes the dictionary (rules R116, R127). -/
theorem frozenAfter_snoc (m : Nat) (segs : List (List Byte)) (cur : List Byte) :
    frozenAfter m (segs.length + 2) =
      if (dictAt m segs cur).nextCode < m then frozenAfter m (segs.length + 1) else true := by
  rw [dictAt_nextCode, nextCodeAfter]
  split_ifs with h <;> simp [frozenAfter] <;> omega

/-! ### What a code stands for -/

theorem Dict.names_iff {d : Dict} :
    d.Names c seg ↔ (∃ b : Byte, seg = [b] ∧ c = b.toNat) ∨ ∃ j, j < d.length ∧ seg = d.getD j [] ∧ c = 256 + j := by
  unfold Dict.Names Dict.entry Dict.nextCode
  constructor
  · rintro ⟨hc, rfl⟩
    split_ifs with h
    · exact .inl ⟨_, rfl, by simp; omega⟩
    · exact .inr ⟨c - 256, by omega, rfl, by omega⟩
  · rintro (⟨b, rfl, rfl⟩ | ⟨j, hj, rfl, rfl⟩)
    · have := b.isLt
      simp; omega
    · simp; omega

theorem Dict.names_of_code? {d : Dict} {seq : List Byte} (h : d.code? seq = some c) : d.Names c seq := by
  rw [Dict.names_iff]
  unfold Dict.code? at h
  split at h
  · next b => cases h; exact .inl ⟨b, rfl, rfl⟩
  · obtain ⟨j, hj, rfl⟩ := Option.map_eq_some_iff.1 h
    obtain ⟨hlt, rfl, -⟩ := List.idxOf?_eq_some_iff.1 hj
    exact .inr ⟨j, hlt, by simp [hlt], rfl⟩

/-- Code `c` may be the one of segment `i` in a parse with the segments `segs` (rules R113, R125, R126). -/
def CodeAt (m : Nat) (segs : List (List Byte)) (i c : Nat) : Prop :=
  (∃ b : Byte, segs.getD i [] = [b] ∧ c = b.toNat) ∨
    ∃ j, j < min i (m - 256) ∧ segs.getD i [] = segEntry segs j ∧ c = 256 + j

theorem lzwParse_iff :
    LzwParse data m codes segs ↔
      segs.flatten = data ∧ segs.length = codes.length ∧ ∀ i (h : i < codes.length), CodeAt m segs i codes[i] :=
  ⟨fun h => ⟨h.bytes, h.count, h.code⟩, fun ⟨hbytes, hcount, hcode⟩ => ⟨hbytes, hcount, hcode⟩⟩

theorem codeAt_append {i : Nat} (h : i < segs.length) (more : List (List Byte)) :
    CodeAt m (segs ++ more) i c ↔ CodeAt m segs i c := by
  have hseg : (segs ++ more).getD i [] = segs.getD i [] := List.getD_append _ _ _ _ h
  have hentry : ∀ j, j < min i (m - 256) → segEntry (segs ++ more) j = segEntry segs j :=
    fun j hj => segEntry_append (by omega) more
  unfold CodeAt
  rw [hseg]
  exact or_congr_right (exists_congr fun j => and_congr_right fun hj => by rw [hentry j hj])

/-- The current segment's code is one of the dictionary's. -/
theorem codeAt_last : CodeAt m (segs ++ [seg]) segs.length c ↔ (dictAt m segs seg).Names c seg := by
  have hseg : (segs ++ [seg]).getD segs.length [] = seg := by simp
  rw [Dict.names_iff, CodeAt, hseg, dictAt_length]
  exact or_congr_right (exists_congr fun j => and_congr_right fun hj => by rw [dictAt_getD hj])

/-- A parse is a parse of all but the last code, and the last code stands for the last segment. -/
theorem lzwParse_snoc :
    LzwParse data m (codes ++ [c]) (segs ++ [seg]) ↔
      segs.flatten ++ seg = data ∧ LzwParse segs.flatten m codes segs ∧ (dictAt m segs seg).Names c seg := by
  simp only [lzwParse_iff, ← codeAt_last, List.flatten_append, List.flatten_singleton, List.length_append,
    List.length_singleton, Nat.add_right_cancel_iff, true_and]
  refine and_congr_right fun _ => ⟨?_, ?_⟩
  · rintro ⟨hcount, hcode⟩
    refine ⟨⟨hcount, fun i hi => (codeAt_append (by omega) [seg]).1 ?_⟩, ?_⟩
    · simpa [hi] using hcode i (by omega)
    · simpa [hcount] using hcode codes.length (by omega)
  · rintro ⟨⟨hcount, hcode⟩, hlast⟩
    refine ⟨hcount, fun i hi => ?_⟩
    rcases Nat.lt_or_eq_of_le (Nat.le_of_lt_succ hi) with hi | rfl
    · rw [List.getElem_append_left hi]
      exact (codeAt_append (by omega) [seg]).2 (hcode i hi)
    · simpa [hcount] using hlast

theorem lzwParse_nil (m : Nat) : LzwParse [] m [] [] := ⟨rfl, rfl, nofun⟩

/-- A first code stands for a single byte: the dictionary has no entry yet (rule R124). -/
theorem lzwParse_singleton : LzwParse data m [c] [seg] ↔ seg = data ∧ ∃ b : Byte, seg = [b] ∧ c = b.toNat := by
  have h := lzwParse_snoc (data := data) (m := m) (c := c) (codes := []) (segs := []) (seg := seg)
  rw [dictAt_nil, Dict.names_iff] at h
  simpa [lzwParse_nil] using h

theorem lzwParse_byte (m : Nat) (b : Byte) : LzwParse [b] m [b.toNat] [[b]] := lzwParse_singleton.2 ⟨rfl, b, rfl, rfl⟩

theorem LzwParse.exists_last (h : LzwParse data m codes (segs ++ [seg])) : ∃ codes' c, codes = codes' ++ [c] := by
  rcases List.eq_nil_or_concat' codes with rfl | ⟨codes', c, rfl⟩
  · simpa using h.count
  · exact ⟨codes', c, rfl⟩

/-- Every segment has a byte: an entry begins with an earlier segment. -/
theorem LzwParse.seg_ne_nil (h : LzwParse data m codes segs) {i : Nat} (hi : i < codes.length) : segs.getD i [] ≠ [] := by
  induction i using Nat.strong_induction_on with
  | _ i ih =>
    rcases h.code i hi with ⟨b, hb, -⟩ | ⟨j, hj, hentry, -⟩
    · rw [hb]; nofun
    · rw [hentry, segEntry]
      exact List.append_ne_nil_of_left_ne_nil (ih j (by omega) (by omega)) _

theorem LzwParse.last_ne_nil (h : LzwParse data m codes (segs ++ [seg])) : seg ≠ [] := by
  have hcount := h.count
  simpa using h.seg_ne_nil (i := segs.length) (by simp at hcount; omega)

/-- Every code of a parse exists when the parse ends. -/
theorem LzwParse.code_lt (h : LzwParse data m codes segs) (hc : c ∈ codes) : c < nextCodeAfter m codes.length := by
  obtain ⟨i, hi, rfl⟩ := List.getElem_of_mem hc
  unfold nextCodeAfter
  rcases h.code i hi with ⟨b, -, hb⟩ | ⟨j, hj, -, hb⟩
  · have := b.isLt
    omega
  · omega

/-! ### The decoder follows a parse -/

theorem Dict.names_append_of_lt {d : Dict} {entry : List Byte} (h : c < d.nextCode) :
    Dict.Names (d ++ [entry]) c seg ↔ d.Names c seg := by
  have hentry : Dict.entry (d ++ [entry]) c = d.entry c := by
    unfold Dict.entry
    split_ifs
    · rfl
    · exact List.getD_append _ _ _ _ (by unfold Dict.nextCode at h; omega)
  rw [Dict.Names, Dict.Names, nextCode_append, hentry]
  simp [h, Nat.lt_succ_of_lt h]

theorem Dict.names_append_nextCode {d : Dict} {entry : List Byte} : Dict.Names (d ++ [entry]) d.nextCode seg ↔ entry = seg := by
  rw [Dict.Names, nextCode_append]
  simp [Dict.entry, Dict.nextCode]

theorem Dict.not_names {d : Dict} (h : d.nextCode ≤ c) (seg : List Byte) : ¬d.Names c seg := fun hn =>
  absurd hn.1 (not_lt.2 h)

/-- The pending entry begins with the previous segment, so its own first byte is that segment's (rule R126). -/
theorem pending_entry_iff {prev entry : List Byte} (h : prev ≠ []) :
    prev ++ prev.take 1 = entry ↔ prev ++ entry.take 1 = entry := by
  obtain ⟨b, bs, rfl⟩ := List.exists_cons_of_ne_nil h
  constructor
  · rintro rfl; rfl
  · intro he
    have hfirst : entry.take 1 = (b :: bs).take 1 := by rw [← he]; rfl
    rwa [hfirst] at he

/-- The code that `lzwEntry` accepts names its entry in the dictionary that the entry's first byte completes: the pending case is
that of the entry being made (rules R125, R126). -/
theorem lzwEntry_eq_ok {i : Nat} {prev entry : List Byte} (hprev : prev ≠ []) :
    lzwEntry m (dictAt m segs prev) prev i c = .ok entry ↔ (dictAt m (segs ++ [prev]) entry).Names c entry := by
  rw [dictAt_snoc]
  generalize dictAt m segs prev = d
  rcases lt_trichotomy c d.nextCode with hc | rfl | hc
  · have hnames : Dict.Names (if d.nextCode < m then d ++ [prev ++ entry.take 1] else d) c entry ↔ d.Names c entry := by
      split_ifs
      · exact Dict.names_append_of_lt hc
      · exact Iff.rfl
    rw [hnames, lzwEntry, if_pos hc]
    simp [Dict.Names, hc]
  · by_cases hm : d.nextCode < m
    · rw [if_pos hm, lzwEntry, if_neg (lt_irrefl _), if_pos ⟨rfl, hm⟩, Dict.names_append_nextCode,
        ← pending_entry_iff hprev]
      exact ⟨fun h => Except.ok.inj h, fun h => congrArg _ h⟩
    · rw [if_neg hm, lzwEntry, if_neg (lt_irrefl _), if_neg fun h => hm h.2]
      simpa using Dict.not_names (le_refl d.nextCode) entry
  · rw [lzwEntry, if_neg (by omega), if_neg (by omega)]
    refine iff_of_false nofun (Dict.not_names ?_ entry)
    split_ifs
    · rw [nextCode_append]; omega
    · omega

/-- The loop of `LzwDecode` after the segments `segs` and `prev` (rules R125 to R130). -/
def decodeAfter (m cap : Nat) (segs : List (List Byte)) (prev : List Byte) (codes : List Nat) : Except Stop Decoded :=
  lzwDecodeFrom m cap (dictAt m segs prev) (frozenAfter m (segs.length + 1)) prev (segs.length + 1)
    (segs ++ [prev]).flatten.length codes

/-- A result with bytes put out before it. -/
def Decoded.prepend (bytes : List Byte) (r : Decoded) : Decoded := { r with out := bytes ++ r.out }

theorem decodeAfter_cons (m cap : Nat) (segs : List (List Byte)) (prev : List Byte) (c : Nat) (cs : List Nat) :
    decodeAfter m cap segs prev (c :: cs) = (do
      let entry ← lzwEntry m (dictAt m segs prev) prev (segs.length + 1) c
      require ((segs ++ [prev] ++ [entry]).flatten.length ≤ cap)
        (.raise .capacityError (segs.length + 1) (segs ++ [prev] ++ [entry]).flatten.length)
      let rest ← decodeAfter m cap (segs ++ [prev]) entry cs
      .ok (rest.prepend entry)) := by
  simp only [decodeAfter, lzwDecodeFrom, dictAt_snoc, List.length_append, List.length_singleton,
    frozenAfter_snoc m segs prev]
  split_ifs <;> simp [Nat.add_assoc, Decoded.prepend]

/-- What decoding `codes` returns: the bytes of a parse, within the capacity but for the first code, which is not checked against
it (rules R124, R129), and the counts of entries (rule R132). -/
structure Decodes (m cap : Nat) (codes : List Nat) (d : Decoded) : Prop where
  parse : ∃ segs, LzwParse d.out m codes segs
  fits : d.out.length ≤ max 1 cap
  nextCode : d.nextCode = nextCodeAfter m codes.length
  frozen : d.frozen = frozenAfter m codes.length

theorem decodes_nil (m cap : Nat) : Decodes m cap [] { out := [], nextCode := 256, frozen := false } :=
  ⟨⟨[], lzwParse_nil m⟩, Nat.zero_le _, by simp [nextCodeAfter], by simp [frozenAfter]⟩

theorem decodeAfter_nil (m cap : Nat) (segs : List (List Byte)) (prev : List Byte) : decodeAfter m cap segs prev [] =
    .ok { out := [], nextCode := nextCodeAfter m (segs.length + 1), frozen := frozenAfter m (segs.length + 1) } := by
  rw [decodeAfter, lzwDecodeFrom, dictAt_nextCode]

/-- Whatever the loop returns, the codes so far and those it reads are a parse. -/
theorem decodeAfter_sound {cap : Nat} {done : List Nat} {prev : List Byte} {r : Decoded}
    (hparse : LzwParse (segs ++ [prev]).flatten m done (segs ++ [prev]))
    (hfits : (segs ++ [prev]).flatten.length ≤ max 1 cap) (h : decodeAfter m cap segs prev codes = .ok r) :
    Decodes m cap (done ++ codes) (r.prepend (segs ++ [prev]).flatten) := by
  induction codes generalizing done segs prev r with
  | nil =>
    rw [decodeAfter_nil] at h
    cases h
    have hcount : segs.length + 1 = done.length := by simpa using hparse.count
    refine ⟨⟨segs ++ [prev], ?_⟩, ?_, ?_, ?_⟩ <;> simp only [Decoded.prepend, List.append_nil, hcount]
    · exact hparse
    · exact hfits
  | cons c cs ih =>
    simp only [decodeAfter_cons, bind_eq_ok, require_eq_ok, lzwEntry_eq_ok hparse.last_ne_nil] at h
    obtain ⟨entry, hnames, _, hcap, rest, hrest, he⟩ := h
    cases he
    have hnext := ih (lzwParse_snoc.2 ⟨by simp, hparse, hnames⟩) (hcap.trans (le_max_right _ _)) hrest
    simpa [Decoded.prepend] using hnext

/-- A first code that is a single byte (rule R124). -/
theorem lzwDecode_cons (m cap : Nat) (b : Byte) (codes : List Nat) : lzwDecode m cap (b.toNat :: codes) =
    decodeAfter m cap [] [b] codes >>= fun r => .ok (r.prepend [b]) := by
  have hfirst : require (b.toNat < 256) (.raise .malformedCode 0 b.toNat) = .ok () := require_eq_ok.2 b.isLt
  rw [lzwDecode, bind_of_ok hfirst, BitVec.ofNat_toNat, BitVec.setWidth_eq, decodeAfter, dictAt_nil, List.length_nil,
    frozenAfter_one]
  rfl

/-- A first code that is no single byte is malformed (rule R124). -/
theorem lzwDecode_first_malformed (h : 256 ≤ c) (m cap : Nat) (codes : List Nat) :
    lzwDecode m cap (c :: codes) = .error (.raise .malformedCode 0 c) :=
  bind_of_error (require_eq_error.2 ⟨not_lt.2 h, rfl⟩)

/-- The codes of a parse are read to its end. -/
theorem lzwDecode_append {cap : Nat} {done : List Nat} {prev : List Byte}
    (hparse : LzwParse (segs ++ [prev]).flatten m done (segs ++ [prev]))
    (hfits : (segs ++ [prev]).flatten.length ≤ max 1 cap) (codes : List Nat) :
    lzwDecode m cap (done ++ codes) =
      decodeAfter m cap segs prev codes >>= fun r => .ok (r.prepend (segs ++ [prev]).flatten) := by
  induction segs using List.reverseRecOn generalizing prev done codes with
  | nil =>
    obtain ⟨done, c, rfl⟩ := hparse.exists_last
    obtain rfl : done = [] := by simpa using hparse.count
    obtain ⟨-, b, rfl, rfl⟩ := lzwParse_singleton.1 hparse
    exact lzwDecode_cons m cap b codes
  | append_singleton segs p ih =>
    obtain ⟨done, c, rfl⟩ := hparse.exists_last
    obtain ⟨-, hbefore, hnames⟩ := lzwParse_snoc.1 hparse
    have hp := List.length_pos_of_ne_nil hbefore.last_ne_nil
    have hprev := List.length_pos_of_ne_nil hparse.last_ne_nil
    have hlen : (segs ++ [p] ++ [prev]).flatten.length = (segs ++ [p]).flatten.length + prev.length := by
      simp [Nat.add_assoc]
    have hpos : p.length ≤ (segs ++ [p]).flatten.length := by simp
    have hentry := (lzwEntry_eq_ok (i := segs.length + 1) hbefore.last_ne_nil).2 hnames
    have hcap : (segs ++ [p] ++ [prev]).flatten.length ≤ cap := by omega
    rw [List.append_assoc, ih hbefore (by omega), List.singleton_append, decodeAfter_cons, bind_of_ok hentry,
      bind_of_ok (require_eq_ok (u := ()).2 hcap), bind_assoc]
    refine bind_congr fun rest => (bind_of_ok rfl).trans ?_
    simp [Decoded.prepend]

theorem decodes_of_lzwDecode {cap : Nat} {d : Decoded} (h : lzwDecode m cap codes = .ok d) : Decodes m cap codes d := by
  cases codes with
  | nil => cases h; exact decodes_nil m cap
  | cons c cs =>
    rcases Nat.lt_or_ge c 256 with hc | hc
    · obtain ⟨b, rfl⟩ : ∃ b : Byte, c = b.toNat := ⟨BitVec.ofNat 8 c, (toNat_ofNat_of_lt hc).symm⟩
      rw [lzwDecode_cons, bind_eq_ok] at h
      obtain ⟨rest, hrest, he⟩ := h
      cases he
      exact decodeAfter_sound (segs := []) (prev := [b]) (lzwParse_byte m b) (le_max_left _ _) hrest
    · rw [lzwDecode_first_malformed hc m cap cs] at h
      cases h

theorem lzwDecode_of_decodes {cap : Nat} {d : Decoded} (h : Decodes m cap codes d) : lzwDecode m cap codes = .ok d := by
  obtain ⟨out, next, frozen⟩ := d
  obtain ⟨⟨segs, hparse⟩, hfits, hnext, hfrozen⟩ := h
  obtain rfl := hparse.bytes
  obtain rfl : next = _ := hnext
  obtain rfl : frozen = _ := hfrozen
  rcases List.eq_nil_or_concat' segs with rfl | ⟨segs, prev, rfl⟩
  · obtain rfl : codes = [] := List.length_eq_zero_iff.1 hparse.count.symm
    simp [lzwDecode, nextCodeAfter, frozenAfter]
  · have hcount : segs.length + 1 = codes.length := by simpa using hparse.count
    have hall := lzwDecode_append hparse hfits []
    rwa [List.append_nil, decodeAfter_nil, hcount, bind_of_ok rfl, Decoded.prepend, List.append_nil] at hall

/-- Codes decode exactly when they stand for segments that fit the output (rules R128, R129). -/
theorem lzwDecode_out_iff {cap : Nat} (hcap : 1 ≤ cap) :
    (∃ d, lzwDecode m cap codes = .ok d ∧ d.out = data) ↔ data.length ≤ cap ∧ ∃ segs, LzwParse data m codes segs := by
  have hmax : max 1 cap = cap := max_eq_right hcap
  constructor
  · rintro ⟨d, hd, rfl⟩
    obtain ⟨hparse, hfits, -⟩ := decodes_of_lzwDecode hd
    exact ⟨hfits.trans_eq hmax, hparse⟩
  · rintro ⟨hfits, hparse⟩
    exact ⟨⟨data, _, _⟩, lzwDecode_of_decodes ⟨hparse, hfits.trans_eq hmax.symm, rfl, rfl⟩, rfl⟩

/-! ### Codes that are no parse -/

/-- A code that is no entry and not the one being made (rule R128). -/
theorem lzwEntry_malformed {i : Nat} {d : Dict} {prev : List Byte}
    (h : d.nextCode < c ∨ (c = d.nextCode ∧ m ≤ d.nextCode)) :
    lzwEntry m d prev i c = .error (.raise .malformedCode i c) := by
  rw [lzwEntry, if_neg (by omega), if_neg (by omega)]

/-- After codes that decode, decoding goes on from the end of their parse. -/
theorem lzwDecode_continues {cap : Nat} {done : List Nat} {d : Decoded} (hdone : done ≠ [])
    (h : lzwDecode m cap done = .ok d) :
    ∃ segs prev, segs.length + 1 = done.length ∧ d.nextCode = (dictAt m segs prev).nextCode ∧
      ∀ cap', cap ≤ cap' → ∀ codes, lzwDecode m cap' (done ++ codes) =
        decodeAfter m cap' segs prev codes >>= fun r => .ok (r.prepend (segs ++ [prev]).flatten) := by
  obtain ⟨⟨segs, hparse⟩, hfits, hnext, -⟩ := decodes_of_lzwDecode h
  rcases List.eq_nil_or_concat' segs with rfl | ⟨segs, prev, rfl⟩
  · exact absurd (List.length_eq_zero_iff.1 hparse.count.symm) hdone
  · have hcount : segs.length + 1 = done.length := by simpa using hparse.count
    refine ⟨segs, prev, hcount, by rw [hnext, dictAt_nextCode, hcount], ?_⟩
    have hbytes := hparse.bytes
    rw [← hbytes] at hparse hfits
    exact fun cap' hcap => lzwDecode_append hparse (hfits.trans (by omega))

/-- A code that no parse can go on with is malformed (rule R128). -/
theorem lzwDecode_malformed {cap : Nat} {done : List Nat} {d : Decoded} (hdone : done ≠ [])
    (h : lzwDecode m cap done = .ok d) (hc : d.nextCode < c ∨ (c = d.nextCode ∧ m ≤ d.nextCode)) (rest : List Nat) :
    lzwDecode m cap (done ++ c :: rest) = .error (.raise .malformedCode done.length c) := by
  obtain ⟨segs, prev, hcount, hnext, hall⟩ := lzwDecode_continues hdone h
  rw [hnext] at hc
  rw [hall cap le_rfl, decodeAfter_cons, lzwEntry_malformed hc, hcount]
  rfl

/-- A code with which a parse no longer fits the output is an error (rule R129). -/
theorem lzwDecode_overflows {cap : Nat} {done : List Nat} {d d' : Decoded} (hdone : done ≠ [])
    (h : lzwDecode m cap done = .ok d) (h' : lzwDecode m (d'.out.length + cap) (done ++ [c]) = .ok d')
    (hcap : cap < d'.out.length) (rest : List Nat) :
    lzwDecode m cap (done ++ c :: rest) = .error (.raise .capacityError done.length d'.out.length) := by
  obtain ⟨segs, prev, hcount, -, hall⟩ := lzwDecode_continues hdone h
  rw [hall _ (Nat.le_add_left ..), decodeAfter_cons] at h'
  simp only [bind_eq_ok, decodeAfter_nil] at h'
  obtain ⟨r, ⟨entry, hentry, _, -, _, hrest, hr⟩, hd⟩ := h'
  cases hrest
  cases hr
  cases hd
  have hout : (segs ++ [prev] ++ [entry]).flatten.length = ((segs ++ [prev]).flatten ++ (entry ++ [])).length := by simp
  rw [hall cap le_rfl, decodeAfter_cons, bind_of_ok hentry, bind_of_error (require_eq_error.2 ⟨?_, rfl⟩), hcount, hout]
  · rfl
  · rw [hout]; exact not_le.2 hcap

/-! ### The encoder makes the greedy parse -/

theorem Dict.code?_eq_none {d : Dict} {seq : List Byte} (h : d.code? seq = none) : seq ∉ d := by
  unfold Dict.code? at h
  split at h
  · cases h
  · exact List.idxOf?_eq_none_iff.1 (Option.map_eq_none_iff.1 h)

theorem Dict.code_eq {d : Dict} {seq : List Byte} (h : d.code? seq = some c) : d.code seq = c := by
  rw [Dict.code, h, Option.getD_some]

/-- What encoding `data` returns: the codes of its greedy parse, and the counts of entries (rules R113 to R116, R132). -/
structure Encodes (m : Nat) (data : List Byte) (e : Encoded) : Prop where
  parse : ∃ segs, GreedyParse data m e.codes segs
  nextCode : e.nextCode = nextCodeAfter m e.codes.length
  frozen : e.frozen = frozenAfter m e.codes.length

/-- The loop of `LzwEncode` after the segments `segs`, with the current match `cm` (rules R113 to R116). -/
def encodeAfter (m : Nat) (segs : List (List Byte)) (cm data : List Byte) : Encoded :=
  lzwEncodeFrom m (dictAt m segs cm) (frozenAfter m (segs.length + 1)) cm data

/-- A result with codes emitted before it. -/
def Encoded.prepend (codes : List Nat) (e : Encoded) : Encoded := { e with codes := codes ++ e.codes }

/-- The match goes on (rule R113). -/
theorem encodeAfter_extend {cm bs : List Byte} {b : Byte} (hcm : cm ≠ [])
    (h : (dictAt m segs cm).code? (cm ++ [b]) = some c) :
    encodeAfter m segs cm (b :: bs) = encodeAfter m segs (cm ++ [b]) bs := by
  rw [encodeAfter, encodeAfter, dictAt_congr m segs (take_one_append hcm [b]), lzwEncodeFrom, h]

/-- The match ends: its code is emitted, and the next byte makes an entry unless there are `M` (rules R114, R116). -/
theorem encodeAfter_emit {cm bs : List Byte} {b : Byte} (h : (dictAt m segs cm).code? (cm ++ [b]) = none) :
    encodeAfter m segs cm (b :: bs) =
      (encodeAfter m (segs ++ [cm]) [b] bs).prepend [(dictAt m segs cm).code cm] := by
  rw [encodeAfter, encodeAfter, lzwEncodeFrom, h, dictAt_snoc, List.length_append, List.length_singleton,
    frozenAfter_snoc m segs cm]
  split_ifs <;> rfl

/-- The codes emitted and that of the current match are the greedy parse of the bytes so far. -/
def GreedyAt (m : Nat) (done : List Nat) (segs : List (List Byte)) (cm : List Byte) : Prop :=
  GreedyParse (segs ++ [cm]).flatten m (done ++ [(dictAt m segs cm).code cm]) (segs ++ [cm])

theorem GreedyAt.match_ne_nil {done : List Nat} {cm : List Byte} (h : GreedyAt m done segs cm) : cm ≠ [] :=
  h.toLzwParse.last_ne_nil

theorem GreedyAt.count {done : List Nat} {cm : List Byte} (h : GreedyAt m done segs cm) : segs.length = done.length := by
  simpa using h.toLzwParse.count

/-- The first byte is the first match. -/
theorem greedyAt_byte (m : Nat) (b : Byte) : GreedyAt m [] [] [b] :=
  { lzwParse_byte m b with longest := fun i hi => absurd hi (by simp) }

/-- A longer match changes no entry: they take its first byte only. -/
theorem GreedyAt.extend {done : List Nat} {cm : List Byte} {b : Byte}
    (h : GreedyAt m done segs cm) (hc : (dictAt m segs cm).code? (cm ++ [b]) = some c) :
    GreedyAt m done segs (cm ++ [b]) := by
  have hfirst := take_one_append h.match_ne_nil [b]
  have hnames : (dictAt m segs (cm ++ [b])).Names ((dictAt m segs (cm ++ [b])).code (cm ++ [b])) (cm ++ [b]) := by
    rw [dictAt_congr m segs hfirst, Dict.code_eq hc]
    exact Dict.names_of_code? hc
  obtain ⟨-, hdone, -⟩ := lzwParse_snoc.1 h.toLzwParse
  refine { lzwParse_snoc.2 ⟨by simp, hdone, hnames⟩ with longest := fun i hi j hj => ?_ }
  have hcount := h.count
  simp only [List.length_append, List.length_singleton] at hi
  rw [segEntry_congr hfirst (by omega), segEntry_congr hfirst (by omega)]
  exact h.longest i (by simpa using hi) j hj

/-- The match that ends was the longest: with its next byte it is no entry. -/
theorem GreedyAt.emit {done : List Nat} {cm : List Byte} {b : Byte}
    (h : GreedyAt m done segs cm) (hc : (dictAt m segs cm).code? (cm ++ [b]) = none) :
    GreedyAt m (done ++ [(dictAt m segs cm).code cm]) (segs ++ [cm]) [b] := by
  refine { lzwParse_snoc.2 ⟨by simp, h.toLzwParse, Dict.names_of_code? rfl⟩ with longest := fun i hi j hj => ?_ }
  have hcount := h.count
  simp only [List.length_append, List.length_singleton] at hi
  have hbefore : segEntry (segs ++ [cm] ++ [[b]]) j = segEntry (segs ++ [cm]) j :=
    segEntry_append (by simp; omega) _
  rcases Nat.lt_or_ge i done.length with hi' | hi'
  · rw [hbefore, segEntry_append (by simp; omega)]
    exact h.longest i (by simpa using hi') j hj
  · obtain rfl : i = segs.length := by omega
    rw [hbefore, segEntry_last]
    exact fun heq => Dict.code?_eq_none hc (List.mem_map.2 ⟨j, List.mem_range.2 hj, heq.symm⟩)

/-- The loop emits the codes of a greedy parse of all the bytes, from any point of one. -/
theorem encodeAfter_encodes {done : List Nat} {cm : List Byte} (h : GreedyAt m done segs cm) :
    Encodes m ((segs ++ [cm]).flatten ++ data) ((encodeAfter m segs cm data).prepend done) := by
  induction data generalizing done segs cm with
  | nil =>
    refine ⟨⟨segs ++ [cm], ?_⟩, ?_, ?_⟩
    · rw [List.append_nil]; exact h
    · simp [encodeAfter, lzwEncodeFrom, Encoded.prepend, dictAt_nextCode, h.count]
    · simp [encodeAfter, lzwEncodeFrom, Encoded.prepend, h.count]
  | cons b bs ih =>
    cases hc : (dictAt m segs cm).code? (cm ++ [b]) with
    | some c =>
      rw [encodeAfter_extend h.match_ne_nil hc]
      simpa using ih (h.extend hc)
    | none =>
      rw [encodeAfter_emit hc]
      simpa [Encoded.prepend] using ih (h.emit hc)

/-- The encoder's codes are those of the greedy parse. -/
theorem lzwEncode_encodes (m : Nat) (data : List Byte) : Encodes m data (lzwEncode data m) := by
  cases data with
  | nil =>
    refine ⟨⟨[], { lzwParse_nil m with longest := nofun }⟩, ?_, ?_⟩
    · simp [lzwEncode, nextCodeAfter]
    · simp [lzwEncode, frozenAfter]
  | cons b bs =>
    have h := encodeAfter_encodes (data := bs) (greedyAt_byte m b)
    simpa [lzwEncode, encodeAfter, dictAt_nil, frozenAfter_one, Encoded.prepend] using h

/-- Settles O13: the encoder's codes are those of a parse of the bytes, so the decoder follows it. -/
theorem lzwDecodeInvertsEncode : Obligations.LzwDecodeInvertsEncode := by
  intro data m cap _ hfits
  obtain ⟨⟨segs, hparse⟩, hnext, hfrozen⟩ := lzwEncode_encodes m data
  exact lzwDecode_of_decodes ⟨⟨segs, hparse.toLzwParse⟩, hfits.trans (le_max_right _ _), hnext, hfrozen⟩

/-- Settles O12: the encoder's codes are those of the greedy parse, and each was in its dictionary when it was emitted. -/
theorem lzwEncodeCounts : Obligations.LzwEncodeCounts := by
  rintro data m _ hm rfl
  obtain ⟨⟨segs, hparse⟩, hnext, hfrozen⟩ := lzwEncode_encodes m data
  refine ⟨?_, fun hdata => ⟨?_, (lzwEncode_bounds data hm).1, hnext, by simp [hfrozen, frozenAfter], ?_⟩, segs, hparse⟩
  · rintro rfl; rfl
  · by_contra hzero
    have hsegs : segs = [] := List.length_eq_zero_iff.1 (by rw [hparse.count]; omega)
    exact hdata (by rw [← hparse.bytes, hsegs]; rfl)
  · intro c hc
    rw [hnext]
    exact hparse.toLzwParse.code_lt hc

end Sys2Proof.Machine

/-! # What written buffers and codes hold

The output of a command and its codes, read back: bytes, lengths, the packed stream bit by bit, and its pad (rules R60, R142). -/

namespace Sys2Proof.Machine

/-! ### Written bytes and codes -/

theorem holds_of_run {p : Params} {u : State} {m : List Host.Cell} {lens : Vector Word 4} {n : BufId} {bytes : List Byte}
    (hcap : bytes.length ≤ p.bufCap) (hmem : u.mem = cellPutRun m (bufBase n) bytes)
    (hlen : u.bufLen = lens.set n (BitVec.ofNat 32 bytes.length)) : u.holds n bytes :=
  ⟨len_of_set hcap hlen, fun _ hi => hmem ▸ cellGet_cellPutRun_inside hi⟩

theorem bits_of_set {p : Params} {u : State} {bits : Vector Word 4} {n : BufId} {k : Nat} (hk : k ≤ 8 * p.bufCap)
    (hu : u.bufBits = bits.set n (BitVec.ofNat 32 k)) : u.bits n = k := by
  have hcap := (bufCap_bounds p).2
  rw [State.bits, hu, Fin.getElem_fin, Vector.getElem_set_self, toNat_ofNat_of_lt (by omega)]

theorem holdsCodes_of_run {p : Params} {u : State} {m : List (Nat × Word)} {codes : List Nat}
    (hlen : codes.length ≤ p.codeCap) (hcodes : ∀ c ∈ codes, c < 2 ^ 32)
    (hcount : u.codeCount = BitVec.ofNat 32 codes.length)
    (hrun : u.codes = cellPutRun m 0 (codes.map (BitVec.ofNat 32))) : u.holdsCodes codes := by
  have hcap : p.codeCap ≤ 2 ^ 24 := (bufCap_bounds p).2
  refine ⟨by rw [hcount, toNat_ofNat_of_lt (by omega)], fun i hi => ⟨BitVec.ofNat 32 codes[i], ?_, ?_⟩⟩
  · have hi' : i < (codes.map (BitVec.ofNat 32)).length := by rwa [List.length_map]
    have hget := cellGet_cellPutRun_inside (m := m) (base := 0) hi'
    rwa [Nat.zero_add, List.getElem_map, ← hrun] at hget
  · exact toNat_ofNat_of_lt (hcodes _ (List.getElem_mem hi))

theorem State.holds.unique {s : State} {n : BufId} {data data' : List Byte} (h : s.holds n data) (h' : s.holds n data') :
    data = data' :=
  Except.ok.inj ((bytesOperand_of_holds h).symm.trans (bytesOperand_of_holds h'))

theorem State.sameBytes.holds {t u : State} {n : BufId} {data : List Byte} (h : t.sameBytes u n) (ht : t.holds n data) :
    u.holds n data := by
  obtain ⟨hlen, hcells⟩ := h
  exact ⟨hlen.trans ht.1, fun i hi => (hcells i (by rw [ht.1]; exact hi)).trans (ht.2 i hi)⟩

/-! ### The bits of bytes that a buffer holds -/

theorem State.holds.holdsBits {s : State} {n : BufId} {bytes : List Byte} (h : s.holds n bytes) :
    s.holdsBits n (bitsOfBytes bytes) := by
  intro k hk
  have hbyte : k / 8 < bytes.length := by rw [bitsOfBytes_length] at hk; omega
  exact ⟨bytes[k / 8], h.2 _ hbyte, (getElem_bitsOfBytes hk hbyte).symm⟩

theorem State.holdsBits.left {s : State} {n : BufId} {bits more : List Bool} (h : s.holdsBits n (bits ++ more)) :
    s.holdsBits n bits := by
  intro k hk
  have hbit := h k (by rw [List.length_append]; omega)
  rwa [List.getElem_append_left hk] at hbit

/-- A buffer that holds packed bits holds the stream, and the pad after it (rules R141 to R143). -/
theorem State.holds.packed {s : State} {n : BufId} {bits : List Bool} {pad : Bool} (h : s.holds n (packBits bits pad))
    (hbits : s.bits n = bits.length) : s.holdsStream n bits ∧ s.padded n pad := by
  have hall := h.holdsBits
  rw [bitsOfBytes_packBits] at hall
  have hlen : s.len n = bytesFor (s.bits n) := by rw [h.1, packBits_length, hbits]
  have hpad := padLen_spec bits.length
  refine ⟨⟨hbits, hall.left⟩, hlen, fun k hlo hhi => ?_⟩
  rw [hlen, hbits] at hhi
  rw [hbits] at hlo
  have hk : k < (bits ++ List.replicate (padLen bits.length) pad).length := by
    rw [List.length_append, List.length_replicate]
    omega
  have hbit := hall k hk
  rwa [List.getElem_append_right (by omega), List.getElem_replicate] at hbit

/-! ### Packed codes -/

theorem packCodes_length (codes : List Nat) (w : Nat) : (packCodes codes w).length = bytesFor (codes.length * w) := by
  rw [packCodes, packBits_length, length_codeBits]

theorem le_of_bytesFor_le {n cap : Nat} (h : bytesFor n ≤ cap) : n ≤ 8 * cap := by
  unfold bytesFor at h
  omega

theorem unpackCodes_lt {stream : List Bool} {w c : Nat} (hc : c ∈ unpackCodes stream w) : c < 2 ^ w := by
  obtain ⟨i, hi, rfl⟩ := List.getElem_of_mem hc
  simp only [unpackCodes, getElem_chunks]
  exact (num_lt _).trans_le (Nat.pow_le_pow_right (by decide) (List.length_take_le ..))

/-- The whole codes of a packed stream are those that were packed, whether its bits are counted or those of its bytes: a pad is
shorter than a code (rules R134, R143). -/
theorem wholeCodes_of_packed {n w k : Nat} (hw : 8 ≤ w) (hk : k = n * w ∨ k = 8 * bytesFor (n * w)) : k / w = n := by
  rw [Nat.div_eq_iff (by omega)]
  unfold bytesFor at hk
  omega

theorem wMax_le (p : Params) : wMax p ≤ 24 := clog2_le (dictCap_bounds p).2

end Sys2Proof.Machine

/-! # The LZW commands

The encoder's codes fit its width, and the pad of its stream is shorter than one of them, so the decoder reads the codes that were
packed (rules R117, R131, R134). -/

namespace Sys2Proof.Machine

/-! ### Width and codes of an encoding -/

/-- The width that `LZW_ENC` chooses is one that the core accepts (rule R117). -/
theorem lzwEncode_width {m : Nat} (hlo : 256 ≤ m) (data : List Byte) :
    8 ≤ clog2 (lzwEncode data m).nextCode ∧ ∀ p : Params, m ≤ p.dictCap → clog2 (lzwEncode data m).nextCode ≤ wMax p := by
  obtain ⟨-, hnext, hnext'⟩ := lzwEncode_bounds data hlo
  have hpow : 2 ^ 8 ≤ 2 ^ clog2 (lzwEncode data m).nextCode := hnext.trans (le_two_pow_clog2 _)
  exact ⟨(Nat.pow_le_pow_iff_right (by decide)).1 hpow, fun p hhi => clog2_mono (hnext'.trans hhi)⟩

/-- The encoder's codes fit the width it chooses (rules R117, R133). -/
theorem lzwEncode_codes_lt {data : List Byte} {m c : Nat} (hc : c ∈ (lzwEncode data m).codes) :
    c < (lzwEncode data m).nextCode := by
  obtain ⟨⟨segs, hparse⟩, hnext, -⟩ := lzwEncode_encodes m data
  exact hnext ▸ hparse.toLzwParse.code_lt hc

/-- The encoder's codes, unpacked with the width it chooses, are the codes (rules R117, R148). -/
theorem unpackCodes_lzwEncode {data : List Byte} {m : Nat} (hlo : 256 ≤ m) :
    unpackCodes (codeBits (clog2 (lzwEncode data m).nextCode) (lzwEncode data m).codes) (clog2 (lzwEncode data m).nextCode) =
      (lzwEncode data m).codes := by
  have hwidth := (lzwEncode_width hlo data).1
  have hfit := fun c (hc : c ∈ (lzwEncode data m).codes) => (lzwEncode_codes_lt hc).trans_le (le_two_pow_clog2 _)
  simpa using unpackCodes_codeBits hfit (rest := []) (Nat.lt_of_lt_of_le (by decide) hwidth)

/-! ### LZW_ENC -/

/-- What `LZW_ENC` leaves when it has encoded `data` (rules R110, R117, R119). -/
structure HoldsEncoded (t : State) (dst : BufId) (e : Encoded) (w : Nat) : Prop where
  codes : t.holdsCodes e.codes
  nextCode : t.nextCode.toNat = e.nextCode
  bitWidth : t.bitWidth.toNat = w
  output : t.holds dst (packCodes e.codes w)
  bits : t.bits dst = e.codes.length * w
  frozen : t.status.frozen = e.frozen

/-- What `LZW_ENC` commits is the encoding of the bytes it read. -/
theorem lzwEncRule_writes {s u : State} {src dst : BufId} {data : List Byte} (hdata : s.holds src data)
    (h : lzwEncRule src dst s = .ok u) :
    HoldsEncoded u.finish dst (lzwEncode data s.maxDict.toNat) (clog2 (lzwEncode data s.maxDict.toNat).nextCode) := by
  obtain ⟨hlen, ⟨hlo, hhi⟩, data', hdata', hfits, rfl⟩ := lzwEncRule_eq_ok.1 h
  obtain rfl := hdata.unique hdata'
  obtain ⟨hcount, -, hnext⟩ := lzwEncode_bounds data hlo
  have hwidth := ((lzwEncode_width hlo data).2 _ hhi).trans (wMax_le s.params)
  have hlt := fun c (hc : c ∈ (lzwEncode data s.maxDict.toNat).codes) => lzwEncode_codes_lt hc
  have hdict := (dictCap_bounds s.params).2
  generalize lzwEncode data s.maxDict.toNat = e at *
  generalize clog2 e.nextCode = w at *
  refine ⟨holdsCodes_of_run (p := s.params) (hcount.trans (hdata.1 ▸ hlen)) (fun c hc => ?_) rfl rfl,
    toNat_ofNat_of_lt (by omega), toNat_ofNat_of_lt (by omega), holds_of_run (p := s.params) ?_ rfl rfl,
    bits_of_set (p := s.params) (le_of_bytesFor_le hfits) rfl, rfl⟩
  · have := hlt c hc
    omega
  · rwa [packCodes_length]

/-- Settles O11: the stream is what the packed bytes hold, and the pad is the rest of them. -/
theorem lzwEncCompletes : Obligations.LzwEncCompletes := by
  rintro s src dst data e w hdata hlen hlo hhi rfl rfl hfits
  have hrule := (lzwEncRule_eq_ok (dst := dst)).2 ⟨hdata.1.trans_le hlen, ⟨hlo, hhi⟩, data, hdata, hfits, rfl⟩
  have hwrites := lzwEncRule_writes hdata hrule
  obtain ⟨hstream, hpad⟩ := hwrites.output.packed (hwrites.bits.trans (length_codeBits ..).symm)
  refine ⟨_, exec_of_ok (i := .lzwEnc src dst) hrule, ⟨rfl, rfl⟩, rfl, hwrites.codes, hwrites.nextCode, hwrites.bitWidth,
    hwrites.bits, hstream, hpad, ?_, hwrites.frozen⟩
  show (s.len src == 0) = _
  rw [hdata.1]
  cases data <;> simp

/-! ### Streams above the capacity -/

/-- Settles O39: the check of the capacity is the last of both commands. -/
theorem packedStreamAboveCapacityFails : Obligations.PackedStreamAboveCapacityFails := by
  refine ⟨?_, ?_⟩
  · rintro s src dst data e need hdata hlen hlo hhi rfl rfl hneed
    rw [← packCodes_length] at hneed ⊢
    exact exec_fails (i := .lzwEnc src dst) <|
      (bind_of_ok (lenOperand_ok (hdata.1.trans_le hlen))).trans <|
      (bind_of_ok (maxDictOperand_eq_ok.2 ⟨⟨hlo, hhi⟩, rfl⟩)).trans <|
      (bind_of_ok (bytesOperand_of_holds hdata)).trans <|
      bind_of_error (require_eq_error.2 ⟨not_le.2 hneed, rfl⟩)
  · rintro s dst codes need ⟨hlen, hcells⟩ hlo hhi hcount hfit rfl hneed
    have hread : s.codesOperand s.bitWidth.toNat 0 s.codeCount.toNat = .ok codes :=
      codesOperand_eq_ok.2 ⟨hlen.symm, fun j hj => ⟨hfit _ (List.getElem_mem hj), by simpa using hcells j hj⟩⟩
    rw [← packCodes_length] at hneed ⊢
    rw [← hlen] at hcount ⊢
    exact exec_fails (i := .codePack dst) <|
      (bind_of_ok (widthOperand_eq_ok.2 ⟨⟨hlo, hhi⟩, rfl⟩)).trans <|
      (bind_of_ok (codeCountOperand_eq_ok.2 ⟨hcount, rfl⟩)).trans <|
      (bind_of_ok hread).trans <|
      bind_of_error (require_eq_error.2 ⟨not_le.2 hneed, rfl⟩)

/-! ### LZW_DEC -/

/-- Settles O15: the decoder's results are those that `Decodes` describes, and `LZW_DEC` commits them. -/
theorem lzwDecCompletes : Obligations.LzwDecCompletes := by
  refine ⟨fun m cap codes _ => ⟨fun d hd => ?_, fun hcap data => lzwDecode_out_iff hcap⟩, ?_⟩
  · obtain ⟨hparse, -, hnext, hfrozen⟩ := decodes_of_lzwDecode hd
    exact ⟨hparse, hnext, by simp [hfrozen, frozenAfter]⟩
  · intro s src dst stream d hheld hstream hlen hbits hlo hhi hwlo hwhi hd
    have hrule := (lzwDecRule_eq_ok (dst := dst)).2
      ⟨hlen, hbits, ⟨hlo, hhi⟩, ⟨hwlo, hwhi⟩, stream, d, hstream, hheld, hd, rfl⟩
    obtain ⟨hout, -, hnext⟩ := lzwDecode_bounds hd hlo (bufCap_bounds s.params).1
    have hwidth := hwhi.trans (wMax_le s.params)
    have hdict := (dictCap_bounds s.params).2
    have hcount : (unpackCodes stream s.bitWidth.toNat).length ≤ s.params.codeCap :=
      (unpackCodes_length_le hwlo (hstream.trans_le ((Nat.div_mul_le_self _ _).trans hbits))).trans hlen
    have hcodes : ∀ c ∈ unpackCodes stream s.bitWidth.toNat, c < 2 ^ 32 := fun c hc =>
      (unpackCodes_lt hc).trans_le (Nat.pow_le_pow_right (by decide) (by omega))
    refine ⟨_, exec_of_ok (i := .lzwDec src dst) hrule, ⟨rfl, rfl⟩, rfl, ?codes, ?next, ?out, ?bits, ?empty, rfl⟩
    case codes => exact holdsCodes_of_run hcount hcodes rfl rfl
    case next => exact toNat_ofNat_of_lt (by omega)
    case out => exact holds_of_run hout rfl rfl
    case bits => exact bits_of_set (Nat.mul_le_mul_left 8 hout) rfl
    case empty =>
      show ((unpackCodes stream s.bitWidth.toNat).length == 0) = _
      rw [unpackCodes, chunks_length, hstream, Nat.mul_div_cancel _ (by omega), Bool.eq_iff_iff, beq_iff_eq,
        decide_eq_true_iff, Nat.div_eq_zero_iff_lt (by omega)]

/-- Settles O16: the decoder follows the parse of the codes before, and the first code that does not go on with it stops it. -/
theorem lzwDecodeDataErrors : Obligations.LzwDecodeDataErrors := by
  refine ⟨?_, fun m cap _ => ⟨fun c rest hc => lzwDecode_first_malformed hc m cap rest,
    fun done rest c d hdone hd => ⟨?_, ?_⟩⟩⟩
  · intro s src dst stream e info value hheld hstream hlen hbits hlo hhi hwlo hwhi herror
    exact exec_fails (i := .lzwDec src dst) <|
      (bind_of_ok (lenOperand_ok hlen)).trans <|
      (bind_of_ok (bitsOperand_ok hbits)).trans <|
      (bind_of_ok (maxDictOperand_eq_ok.2 ⟨⟨hlo, hhi⟩, rfl⟩)).trans <|
      (bind_of_ok (widthOperand_eq_ok.2 ⟨⟨hwlo, hwhi⟩, rfl⟩)).trans <|
      (bind_of_ok (streamBits_eq_ok.2 ⟨hstream, hheld⟩)).trans <|
      bind_of_error herror
  · exact fun hc => lzwDecode_malformed hdone hd hc rest
  · exact fun d' hd' hcap => lzwDecode_overflows hdone hd hd' hcap rest

/-! ### The round trip -/

/-- `LZW_DEC` on the packed codes of `data`, with their width (rule R131). -/
theorem lzwDecRule_of_encoded {s : State} {src dst : BufId} {data : List Byte} {e : Encoded} {w : Nat}
    (he : e = lzwEncode data s.maxDict.toNat) (hw : w = clog2 e.nextCode) (hheld : s.holds src (packCodes e.codes w))
    (hdata : data.length ≤ s.params.bufCap) (hfits : bytesFor (e.codes.length * w) ≤ s.params.bufCap)
    (hlo : 256 ≤ s.maxDict.toNat) (hhi : s.maxDict.toNat ≤ s.params.dictCap) (hwidth : s.bitWidth.toNat = w)
    (hbits : s.bits src = e.codes.length * w ∨ s.bits src = 8 * s.len src) :
    ∃ t, lzwDecRule src dst s = .ok t ∧ t.holds dst data ∧ t.status.err = s.status.err := by
  obtain ⟨hwlo, hwhi⟩ : 8 ≤ w ∧ w ≤ wMax s.params := by
    rw [hw, he]
    exact (lzwEncode_width hlo data).imp_right fun h => h _ hhi
  have hlen : s.len src = bytesFor (e.codes.length * w) := by
    rw [hheld.1, packCodes_length]
  have hall := hheld.holdsBits
  rw [packCodes, bitsOfBytes_packBits] at hall
  rw [hlen] at hbits
  have hwhole := wholeCodes_of_packed hwlo hbits
  have hunpack : unpackCodes (codeBits w e.codes) w = e.codes := by
    rw [hw, he]
    exact unpackCodes_lzwEncode hlo
  have hdecode := lzwDecodeInvertsEncode data s.maxDict.toNat s.params.bufCap hlo hdata
  rw [← he, ← hunpack] at hdecode
  subst hwidth
  have hle : s.bits src ≤ 8 * s.len src := by
    rw [hlen]
    unfold bytesFor at hbits ⊢
    omega
  refine ⟨_, lzwDecRule_eq_ok.2
    ⟨hlen.trans_le hfits, hle, ⟨hlo, hhi⟩, ⟨hwlo, hwhi⟩, _, _, ?_, hall.left, hdecode, rfl⟩, holds_of_run hdata rfl rfl, rfl⟩
  rw [hwhole, length_codeBits]

/-- `LZW_DEC` on what `LZW_ENC` committed, with the same parameters and registers (rule R131). -/
theorem lzwDecRule_after_lzwEncRule {s t u : State} {src dst out : BufId} {data : List Byte} (hdata : s.holds src data)
    (henc : lzwEncRule src dst s = .ok t) (hparams : u.params = s.params) (hmax : u.maxDict = s.maxDict)
    (hwidth : u.bitWidth = t.finish.bitWidth) (hsame : t.finish.sameBytes u dst)
    (hbits : u.bits dst = t.finish.bits dst ∨ u.bits dst = 8 * t.finish.len dst) :
    ∃ v, lzwDecRule dst out u = .ok v ∧ v.holds out data ∧ v.status.err = u.status.err := by
  have hencoded := lzwEncRule_writes hdata henc
  obtain ⟨hlen, ⟨hlo, hhi⟩, data', hdata', hfits, -⟩ := lzwEncRule_eq_ok.1 henc
  obtain rfl := hdata.unique hdata'
  rw [← hmax] at hencoded hfits hlo hhi
  rw [hencoded.bits, ← hsame.1] at hbits
  rw [hdata.1] at hlen
  rw [← hparams] at hlen hhi hfits
  exact lzwDecRule_of_encoded rfl rfl (hsame.holds hencoded.output) hlen hfits hlo hhi (hwidth ▸ hencoded.bitWidth) hbits

/-- Settles O14: a command that records no error has committed, and the decoder finds what the encoder left. -/
theorem lzwCommandsRoundTrip : Obligations.LzwCommandsRoundTrip := by
  intro s t u src dst out data _ _ hdata henc herr hparams hmax hwidth hsame hbits
  rcases exec_eq_next henc with ⟨t, ht, rfl⟩ | ⟨e, info, value, hr, rfl⟩
  · obtain ⟨v, hv, hholds, hverr⟩ := lzwDecRule_after_lzwEncRule (s := s.latch (encode (.lzwEnc src dst)))
      (u := u.latch (encode (.lzwDec dst out))) (out := out) hdata ht hparams hmax hwidth hsame hbits
    exact ⟨v.finish, exec_of_ok (i := .lzwDec dst out) hv, hverr, hholds⟩
  · exact absurd herr (ruleOf_raises hr)

end Sys2Proof.Machine

/-! # The bit packer

The pad of a packed stream is shorter than a code, so the unpacker finds the packed codes and no more (rules R140, R143, R148). -/

namespace Sys2Proof.Machine

/-! ### The width -/

/-- `W_MAX` is the least width for `DICT_CAP` values (rules R9, R12). -/
theorem wMax_spec (p : Params) :
    8 ≤ wMax p ∧ wMax p ≤ 24 ∧ p.dictCap ≤ 2 ^ wMax p ∧ ∀ w, p.dictCap ≤ 2 ^ w → wMax p ≤ w := by
  have hfits : p.dictCap ≤ 2 ^ wMax p := le_two_pow_clog2 p.dictCap
  have hpow : 2 ^ 8 ≤ 2 ^ wMax p := (dictCap_bounds p).1.trans hfits
  exact ⟨(Nat.pow_le_pow_iff_right (by decide)).1 hpow, wMax_le p, hfits, fun _ => clog2_le⟩

/-- Settles O36: the width is the first check of `CODE_PACK` and comes after those of the source, and of `MAX_DICT`, in the
others (rule R222). -/
theorem widthOutOfRangeFails : Obligations.WidthOutOfRangeFails := by
  refine ⟨wMax_spec, fun s src dst hwidth => ⟨?_, fun hlen hbits => ⟨?_, fun hlo hhi => ?_⟩⟩⟩
  · exact exec_fails (i := .codePack dst) (bind_of_error (widthOperand_error hwidth))
  · exact exec_fails (i := .codeUnpack src) <|
      (bind_of_ok (lenOperand_ok hlen)).trans <|
      (bind_of_ok (bitsOperand_ok hbits)).trans <|
      bind_of_error (widthOperand_error hwidth)
  · exact exec_fails (i := .lzwDec src dst) <|
      (bind_of_ok (lenOperand_ok hlen)).trans <|
      (bind_of_ok (bitsOperand_ok hbits)).trans <|
      (bind_of_ok (maxDictOperand_eq_ok.2 ⟨⟨hlo, hhi⟩, rfl⟩)).trans <|
      bind_of_error (widthOperand_error hwidth)

/-! ### CODE_PACK -/

/-- What `CODE_PACK` commits on legal operands (rule R144). -/
theorem codePackRule_of_holdsCodes {s : State} {codes : List Nat} (dst : BufId) (hcodes : s.holdsCodes codes)
    (hlo : 8 ≤ s.bitWidth.toNat) (hhi : s.bitWidth.toNat ≤ wMax s.params) (hcount : codes.length ≤ s.params.codeCap)
    (hfit : ∀ c ∈ codes, c < 2 ^ s.bitWidth.toNat) (hcap : bytesFor (codes.length * s.bitWidth.toNat) ≤ s.params.bufCap) :
    ∃ t, codePackRule dst s = .ok t ∧ t.holds dst (packCodes codes s.bitWidth.toNat) ∧
      t.bits dst = codes.length * s.bitWidth.toNat ∧ t.bitWidth = s.bitWidth ∧
      t.status.err = s.status.err ∧ t.status.empty = decide (codes = []) := by
  have hrule := (codePackRule_eq_ok (dst := dst)).2 ⟨⟨hlo, hhi⟩, hcodes.1.trans_le hcount, codes, hcodes, hfit, hcap, rfl⟩
  rw [hcodes.1] at hrule
  refine ⟨_, hrule, holds_of_run (p := s.params) ?_ rfl rfl, bits_of_set (p := s.params) (le_of_bytesFor_le hcap) rfl, rfl, rfl,
    ?_⟩
  · rwa [packCodes_length]
  · cases codes <;> rfl

/-- Settles O17: the stream is what the packed bytes hold, and the pad is the rest of them. -/
theorem codePackCompletes : Obligations.CodePackCompletes := by
  rintro s dst codes w hcodes rfl hlo hhi hcount hfit hcap
  obtain ⟨t, ht, hholds, hbits, -, herr, hempty⟩ := codePackRule_of_holdsCodes dst hcodes hlo hhi hcount hfit hcap
  obtain ⟨hstream, hpad⟩ := hholds.packed (hbits.trans (length_codeBits ..).symm)
  exact ⟨t.finish, exec_of_ok (i := .codePack dst) ht, ⟨rfl, rfl⟩, herr, hbits, hstream, hpad, hempty⟩

/-! ### CODE_UNPACK -/

/-- What `CODE_UNPACK` commits on legal operands, whatever the stream is (rule R147). -/
theorem codeUnpackRule_of_holdsStream {s : State} {src : BufId} {stream : List Bool} (hstream : s.holdsStream src stream)
    (hlen : s.len src ≤ s.params.bufCap) (hbits : s.bits src ≤ 8 * s.len src) (hlo : 8 ≤ s.bitWidth.toNat)
    (hhi : s.bitWidth.toNat ≤ wMax s.params) :
    ∃ t, codeUnpackRule src s = .ok t ∧ t.holdsCodes (unpackCodes stream s.bitWidth.toNat) ∧
      t.status.err = s.status.err ∧ t.status.empty = decide (stream.length < s.bitWidth.toNat) := by
  have hwidth := hhi.trans (wMax_le s.params)
  have hcount : (unpackCodes stream s.bitWidth.toNat).length ≤ s.params.codeCap :=
    (unpackCodes_length_le hlo (hstream.1 ▸ hbits)).trans hlen
  have hcodes : ∀ c ∈ unpackCodes stream s.bitWidth.toNat, c < 2 ^ 32 := fun c hc =>
    (unpackCodes_lt hc).trans_le (Nat.pow_le_pow_right (by decide) (by omega))
  have hempty : ((unpackCodes stream s.bitWidth.toNat).length == 0) = decide (stream.length < s.bitWidth.toNat) := by
    rw [unpackCodes, chunks_length, Bool.eq_iff_iff, beq_iff_eq, decide_eq_true_iff, Nat.div_eq_zero_iff_lt (by omega)]
  refine ⟨_, codeUnpackRule_eq_ok.2 ⟨hlen, hbits, ⟨hlo, hhi⟩, stream, hstream, rfl⟩,
    holdsCodes_of_run hcount hcodes rfl rfl, rfl, hempty⟩

/-- An unpacked code is the number of its `w` bits of the stream, most significant first (rule R146). -/
theorem bin_getElem_unpackCodes {stream : List Bool} {w i : Nat} (hi : i < (unpackCodes stream w).length) :
    bin w (unpackCodes stream w)[i] = (stream.drop (i * w)).take w := by
  have hwhole : (i + 1) * w ≤ stream.length := by
    rw [unpackCodes, chunks_length] at hi
    exact (Nat.mul_le_mul_right w hi).trans (Nat.div_mul_le_self _ _)
  have hw : ((stream.drop (i * w)).take w).length = w := by
    rw [Nat.succ_mul] at hwhole
    rw [List.length_take, List.length_drop]
    omega
  simp only [unpackCodes, getElem_chunks]
  simpa only [hw] using bin_num ((stream.drop (i * w)).take w)

/-- Settles O18: each code of the stream is written, and read back bit for bit. -/
theorem codeUnpackCompletes : Obligations.CodeUnpackCompletes := by
  rintro s src stream w hstream rfl hlen hbits hlo hhi
  obtain ⟨t, ht, ⟨hcount, hcells⟩, herr, hempty⟩ := codeUnpackRule_of_holdsStream hstream hlen hbits hlo hhi
  have hlength : (unpackCodes stream s.bitWidth.toNat).length = stream.length / s.bitWidth.toNat := chunks_length ..
  refine ⟨t.finish, exec_of_ok (i := .codeUnpack src) ht, ⟨rfl, rfl⟩, herr, hcount.trans hlength, fun i hi => ?_,
    hempty⟩
  rw [← hlength] at hi
  obtain ⟨c, hcell, hc⟩ := hcells i hi
  exact ⟨c, hcell, hc ▸ bin_getElem_unpackCodes hi, hc ▸ unpackCodes_lt (List.getElem_mem hi)⟩

/-! ### The round trip -/

/-- The stream of a buffer that holds packed codes is their bits and a rest shorter than a code, whether its bits are counted or
those of its bytes (rules R142, R148). -/
theorem holdsStream_of_packCodes {s : State} {n : BufId} {codes : List Nat} {w : Nat} (hw : 8 ≤ w)
    (hheld : s.holds n (packCodes codes w)) (hbits : s.bits n = codes.length * w ∨ s.bits n = 8 * s.len n) :
    ∃ rest : List Bool, rest.length < w ∧ s.holdsStream n (codeBits w codes ++ rest) := by
  have hall := hheld.holdsBits
  have hlen : 8 * s.len n = (bitsOfBytes (packCodes codes w)).length := by rw [hheld.1, bitsOfBytes_length]
  rw [packCodes, bitsOfBytes_packBits] at hall hlen
  rcases hbits with hbits | hbits
  · refine ⟨[], Nat.zero_lt_of_lt hw, ?_, ?_⟩
    · simpa using hbits
    · simpa using hall.left
  · refine ⟨_, ?_, hbits.trans hlen, hall⟩
    rw [List.length_replicate]
    exact (padLen_lt _).trans_le hw

/-- `CODE_UNPACK` on packed codes, with their width (rule R150). -/
theorem codeUnpackRule_of_packCodes {s : State} {src : BufId} {codes : List Nat} {w : Nat} (hwidth : s.bitWidth.toNat = w)
    (hlo : 8 ≤ w) (hhi : w ≤ wMax s.params) (hfit : ∀ c ∈ codes, c < 2 ^ w)
    (hcap : bytesFor (codes.length * w) ≤ s.params.bufCap) (hheld : s.holds src (packCodes codes w))
    (hbits : s.bits src = codes.length * w ∨ s.bits src = 8 * s.len src) :
    ∃ t, codeUnpackRule src s = .ok t ∧ t.holdsCodes codes ∧ t.status.err = s.status.err := by
  subst hwidth
  obtain ⟨rest, hrest, hstream⟩ := holdsStream_of_packCodes hlo hheld hbits
  have hlen : s.len src = bytesFor (codes.length * s.bitWidth.toNat) := hheld.1.trans (packCodes_length ..)
  have hle : s.bits src ≤ 8 * s.len src := by
    rcases hbits with hbits | hbits
    · exact hbits.trans_le (le_of_bytesFor_le hlen.ge)
    · exact hbits.le
  obtain ⟨t, ht, hcodes, herr, -⟩ := codeUnpackRule_of_holdsStream hstream (hlen.trans_le hcap) hle hlo hhi
  rw [unpackCodes_codeBits hfit hrest] at hcodes
  exact ⟨t, ht, hcodes, herr⟩

/-- Codes that fit a buffer when packed are no more than `CODE_CAP`: a code has eight bits or more (rules R37, R140). -/
theorem length_le_codeCap {p : Params} {n w : Nat} (hw : 8 ≤ w) (hcap : bytesFor (n * w) ≤ p.bufCap) : n ≤ p.codeCap := by
  have hbits : n * 8 ≤ 8 * p.bufCap := (Nat.mul_le_mul_left n hw).trans (le_of_bytesFor_le hcap)
  show n ≤ p.bufCap
  omega

/-- Settles O19: the unpacker finds in the buffer what the packer left there. -/
theorem packerRoundTrip : Obligations.PackerRoundTrip := by
  rintro s dst codes w hcodes rfl hlo hhi hfit hcap
  obtain ⟨t, ht, hholds, hbits, hwidth, herr, -⟩ := codePackRule_of_holdsCodes (s := s.latch (encode (.codePack dst))) dst
    hcodes hlo hhi (length_le_codeCap hlo hcap) hfit hcap
  refine ⟨t.finish, exec_of_ok (i := .codePack dst) ht, herr, fun u hparams huwidth hsame hubits => ?_⟩
  have hubits' : u.bits dst = codes.length * s.bitWidth.toNat ∨ u.bits dst = 8 * u.len dst := by
    rw [hsame.1]
    exact hubits.imp_left (·.trans hbits)
  rw [← hparams] at hhi hcap
  obtain ⟨v, hv, hvcodes, hverr⟩ := codeUnpackRule_of_packCodes (s := u.latch (encode (.codeUnpack dst)))
    (congrArg BitVec.toNat (huwidth.trans hwidth)) hlo hhi hfit hcap (hsame.holds hholds) hubits'
  exact ⟨v.finish, exec_of_ok (i := .codeUnpack dst) hv, hverr, hvcodes⟩

end Sys2Proof.Machine

/-! # Paths to the leaves of a tree

The codes of a codebook are the paths from the root to the leaves: `HUF_BOOK` writes them and `HUF_DEC` follows them (rules R170,
R179). -/

namespace Sys2Proof.Machine

/-! ### Paths -/

/-- The child of a slot that a bit leads to: 0 = left, 1 = right (rule R51). -/
def childOf (node : Vector Slot 511) (k : Nat) (b : Bool) : Nat :=
  if b then (slotOf node k).right.toNat else (slotOf node k).left.toNat

theorem follow_cons (node : Vector Slot 511) (k : Nat) (b : Bool) (bs : List Bool) :
    follow node k (b :: bs) = follow node (childOf node k b) bs := rfl

/-- A path from node `k` to a leaf with symbol `v`, on which no node before the leaf is a leaf (rule R170). -/
inductive LeafPath (node : Vector Slot 511) (v : Byte) : Nat → List Bool → Prop
  | leaf {k : Nat} (hleaf : (slotOf node k).isLeaf = true) (hsym : (slotOf node k).sym = v) : LeafPath node v k []
  | edge {k : Nat} {b : Bool} {bs : List Bool} (hnode : (slotOf node k).isLeaf = false)
    (hrest : LeafPath node v (childOf node k b) bs) : LeafPath node v k (b :: bs)

namespace LeafPath

variable {node : Vector Slot 511} {u v : Byte} {k : Nat} {p q : List Bool}

theorem follow_isLeaf_sym (h : LeafPath node v k q) :
    (slotOf node (follow node k q)).isLeaf = true ∧ (slotOf node (follow node k q)).sym = v := by
  induction h with
  | leaf hleaf hsym => exact ⟨hleaf, hsym⟩
  | edge _ _ ih => exact ih

theorem nil_iff : LeafPath node v k [] ↔ (slotOf node k).isLeaf = true ∧ (slotOf node k).sym = v :=
  ⟨follow_isLeaf_sym, fun ⟨hleaf, hsym⟩ => .leaf hleaf hsym⟩

theorem ne_nil (h : LeafPath node v k q) (hk : (slotOf node k).isLeaf = false) : q ≠ [] := by
  rintro rfl
  rw [(nil_iff.1 h).1] at hk
  cases hk

/-- No node before the leaf is a leaf (rule R173). -/
theorem isLeaf_eq_false_of_prefix (h : LeafPath node v k q) (hp : p <+: q) (hne : p ≠ q) :
    (slotOf node (follow node k p)).isLeaf = false := by
  induction h generalizing p with
  | leaf => exact absurd (List.prefix_nil.1 hp) hne
  | edge hnode _ ih =>
    cases p with
    | nil => exact hnode
    | cons a p =>
      obtain ⟨rfl, hp'⟩ := List.cons_prefix_cons.1 hp
      exact ih hp' fun he => hne (he ▸ rfl)

/-- A path that goes on from another ends at the same leaf (rule R173). -/
theorem eq_of_prefix (hp : LeafPath node u k p) (hq : LeafPath node v k q) (h : p <+: q) : u = v := by
  by_cases he : p = q
  · subst he
    exact hp.follow_isLeaf_sym.2.symm.trans hq.follow_isLeaf_sym.2
  · have hnot := hq.isLeaf_eq_false_of_prefix h he
    rw [hp.follow_isLeaf_sym.1] at hnot
    cases hnot

end LeafPath

/-! ### Children are older -/

namespace ArenaTree

variable {node : Vector Slot 511} {n : Nat} (h : ArenaTree node n)

include h

theorem childOf_lt {k : Nat} (hk : k < n) (hnode : (slotOf node k).isLeaf = false) (b : Bool) : childOf node k b < k := by
  obtain ⟨hleft, hright, -⟩ := h.children k hk hnode
  cases b
  · exact hleft
  · exact hright

theorem lt_of_isLeaf {k : Nat} (hk : (slotOf node k).isLeaf = true) : k < n := (h.present k).1 (present_of_isLeaf hk)

/-- The only node of a tree of one is a leaf (rule R165). -/
theorem isLeaf_of_one (hn : n = 1) : (slotOf node 0).isLeaf = true := by
  by_contra hc
  exact absurd (h.childOf_lt (k := 0) (by omega) (by simpa using hc) true) (Nat.not_lt_zero _)

/-- A node that is not the root has a parent, which is younger (rule R165). -/
theorem exists_parent {k : Nat} (hk : k + 1 < n) :
    ∃ i b, k < i ∧ i < n ∧ (slotOf node i).isLeaf = false ∧ childOf node i b = k := by
  obtain ⟨i, hi, -, hnode, hchild⟩ := h.parents k hk
  obtain ⟨b, hb⟩ : ∃ b, childOf node i b = k := hchild.elim (fun hl => ⟨false, hl⟩) (fun hr => ⟨true, hr⟩)
  exact ⟨i, b, hb ▸ h.childOf_lt hi hnode b, hi, hnode, hb⟩

/-- The root of two or more nodes is no leaf (rule R165). -/
theorem root_isLeaf_eq_false (hn : 1 < n) : (slotOf node (n - 1)).isLeaf = false := by
  obtain ⟨i, b, hlt, hi, hnode, -⟩ := h.exists_parent (k := n - 2) (by omega)
  obtain rfl : i = n - 1 := by omega
  exact hnode

/-- A path from any node goes on up to a path from the root (rules R165, R170). -/
theorem leafPath_root {v : Byte} {k : Nat} {q : List Bool} (hk : k < n) (hq : LeafPath node v k q) :
    ∃ p, LeafPath node v (n - 1) p := by
  induction hd : n - 1 - k using Nat.strong_induction_on generalizing k q with
  | _ d ih =>
    by_cases hroot : k + 1 < n
    · obtain ⟨i, b, hlt, hi, hnode, rfl⟩ := h.exists_parent hroot
      exact ih (n - 1 - i) (by omega) hi (.edge hnode hq) rfl
    · obtain rfl : k = n - 1 := by omega
      exact ⟨q, hq⟩

/-- A step or more down from a node, along a path to a leaf, leads to an older one. -/
theorem follow_lt {v : Byte} {k : Nat} {q p : List Bool} (hq : LeafPath node v k q) (hk : k < n) (hp : p <+: q)
    (hne : p ≠ []) : follow node k p < k := by
  induction hq generalizing p with
  | leaf => exact absurd (List.prefix_nil.1 hp) hne
  | @edge k b bs hnode hrest ih =>
    obtain ⟨a, p, rfl⟩ := List.exists_cons_of_ne_nil hne
    obtain ⟨rfl, hp'⟩ := List.cons_prefix_cons.1 hp
    have hlt := h.childOf_lt hk hnode a
    rw [follow_cons]
    by_cases hp0 : p = []
    · rwa [hp0]
    · exact (ih (hlt.trans hk) hp' hp0).trans hlt

/-! ### The codebook of a tree -/

/-- The walk from node `k` writes for each symbol a path to its leaf, and nothing for a symbol without one (rule R170). -/
theorem walk_getElem {fuel k : Nat} (path : List Bool) (book : Vector (List Bool) 256) (v : Byte) (hf : k < fuel) (hk : k < n) :
    (∃ q, LeafPath node v k q ∧ (walk node fuel k path book)[v.toNat]'v.isLt = path ++ q) ∨
      ((∀ q, ¬LeafPath node v k q) ∧ (walk node fuel k path book)[v.toNat]'v.isLt = book[v.toNat]'v.isLt) := by
  induction fuel generalizing k path book with
  | zero => omega
  | succ fuel ih =>
    rw [walk]
    split_ifs with hleaf
    · by_cases hv : (slotOf node k).sym = v
      · subst hv
        exact .inl ⟨[], .leaf hleaf rfl, by simp⟩
      · refine .inr ⟨fun q hq => ?_, Vector.getElem_set_ne _ _ fun he => hv (BitVec.eq_of_toNat_eq he)⟩
        cases hq with
        | leaf _ hsym => exact hv hsym
        | edge hnode => rw [hleaf] at hnode; cases hnode
    · have hnode : (slotOf node k).isLeaf = false := by simpa using hleaf
      have hl := h.childOf_lt hk hnode false
      have hr := h.childOf_lt hk hnode true
      have hright := ih (k := childOf node k true) (path ++ [true])
        (walk node fuel (childOf node k false) (path ++ [false]) book) (by omega) (by omega)
      have hleft := ih (k := childOf node k false) (path ++ [false]) book (by omega) (by omega)
      rcases hright with ⟨q, hq, he⟩ | ⟨hnotr, he⟩
      · exact .inl ⟨true :: q, .edge hnode hq, he.trans (List.append_assoc ..)⟩
      · rcases hleft with ⟨q, hq, he'⟩ | ⟨hnotl, he'⟩
        · exact .inl ⟨false :: q, .edge hnode hq, (he.trans he').trans (List.append_assoc ..)⟩
        · refine .inr ⟨fun q hq => ?_, he.trans he'⟩
          cases hq with
          | leaf hl => exact hleaf hl
          | @edge _ b _ _ hrest =>
            cases b with
            | false => exact hnotl _ hrest
            | true => exact hnotr _ hrest

/-- The code of a symbol is a path from the root to its leaf; a symbol without a leaf has no code (rules R169, R170). -/
theorem codebook_getElem (hn : 1 < n) (v : Byte) :
    LeafPath node v (n - 1) ((codebook node n)[v.toNat]'v.isLt) ∨
      ((∀ q, ¬LeafPath node v (n - 1) q) ∧ (codebook node n)[v.toNat]'v.isLt = []) := by
  have hcount := h.count
  simp only [codebook, if_neg (show n ≠ 0 by omega), if_neg (show n ≠ 1 by omega)]
  rcases h.walk_getElem (fuel := 511) (k := n - 1) [] emptyBook v (by omega) (by omega) with ⟨q, hq, he⟩ | ⟨hnot, he⟩
  · rw [he]
    exact .inl hq
  · exact .inr ⟨hnot, he.trans (emptyBook_getElem ..)⟩

theorem codebook_leafPath (hn : 1 < n) {v : Byte} (hv : (codebook node n)[v.toNat]'v.isLt ≠ []) :
    LeafPath node v (n - 1) ((codebook node n)[v.toNat]'v.isLt) :=
  (h.codebook_getElem hn v).resolve_right fun hnot => hv hnot.2

end ArenaTree

/-- The codebook of a one-leaf tree has the code `[0]` alone (rule R171). -/
theorem codebook_one_getElem (node : Vector Slot 511) (v : Byte) :
    (codebook node 1)[v.toNat]'v.isLt = if v = (slotOf node 0).sym then [false] else [] := by
  rw [codebook, if_neg Nat.one_ne_zero, if_pos rfl]
  by_cases hv : v = (slotOf node 0).sym
  · subst hv
    simp
  · rw [if_neg hv, Vector.getElem_set_ne _ _ fun he => hv (BitVec.eq_of_toNat_eq he).symm, emptyBook_getElem]

/-- The codebook of the empty tree has no code (rule R169). -/
theorem codebook_zero_getElem (node : Vector Slot 511) (v : Byte) : (codebook node 0)[v.toNat]'v.isLt = [] := by
  simp [codebook]

end Sys2Proof.Machine

/-! # HUF_DEC

The decoder follows the bits of a code down to its leaf and is then at the root again, so a stream of codes is read code by code
(rules R178 to R184). -/

namespace Sys2Proof.Machine

/-! ### One code -/

/-- The decoder takes an edge: at a leaf it emits the symbol and is at the root again (rule R179). -/
theorem decodeTree_cons (node : Vector Slot 511) (root cap cur depth k len : Nat) (b : Bool) (bs : List Bool) :
    decodeTree node root cap cur depth k len (b :: bs) =
      if (slotOf node (childOf node cur b)).isLeaf = true then
        require (len + 1 ≤ cap) (.raise .capacityError k (len + 1)) >>= fun _ =>
          decodeTree node root cap root 0 (k + 1) (len + 1) bs >>= fun rest =>
            .ok ((slotOf node (childOf node cur b)).sym :: rest)
      else decodeTree node root cap (childOf node cur b) (depth + 1) (k + 1) len bs := rfl

/-- The decoder reads a whole code: it checks the capacity at its last bit, and emits the symbol (rules R179, R183). -/
theorem decodeTree_leafPath {node : Vector Slot 511} {root cap cur : Nat} {v : Byte} {q : List Bool} (depth k len : Nat)
    (rest : List Bool) (hq : LeafPath node v cur q) (hne : q ≠ []) :
    decodeTree node root cap cur depth k len (q ++ rest) =
      require (len + 1 ≤ cap) (.raise .capacityError (k + q.length - 1) (len + 1)) >>= fun _ =>
        decodeTree node root cap root 0 (k + q.length) (len + 1) rest >>= fun out => .ok (v :: out) := by
  induction hq generalizing depth k with
  | leaf => exact absurd rfl hne
  | @edge cur b bs hnode hrest ih =>
    rw [List.cons_append, decodeTree_cons, List.length_cons]
    cases hrest with
    | leaf hleaf hsym => rw [if_pos hleaf, hsym]; rfl
    | edge hnode' hrest' =>
      rw [if_neg (by simp [hnode']), ih _ _ (by simp), Nat.add_right_comm, Nat.add_assoc]

/-- Input that ends on the way to a leaf is reported with the bits read since the last one (rule R182). -/
theorem decodeTree_truncated {node : Vector Slot 511} {root cap cur : Nat} {v : Byte} {q p : List Bool} (depth k len : Nat)
    (hq : LeafPath node v cur q) (hp : p <+: q) (hne : p ≠ q) (hroot : follow node cur p ≠ root) :
    decodeTree node root cap cur depth k len p = .error (.raise .truncatedStream (k + p.length) (depth + p.length)) := by
  induction hq generalizing p depth k with
  | leaf => exact absurd (List.prefix_nil.1 hp) hne
  | @edge cur b bs hnode hrest ih =>
    cases p with
    | nil => exact bind_of_error (require_eq_error.2 ⟨hroot, rfl⟩)
    | cons a p =>
      obtain ⟨rfl, hp'⟩ := List.cons_prefix_cons.1 hp
      have hne' : p ≠ bs := fun he => hne (he ▸ rfl)
      have hbs : [] ≠ bs := fun he => hne' (List.prefix_nil.1 (he ▸ hp') ▸ he)
      have hnode' : (slotOf node (childOf node cur a)).isLeaf = false := hrest.isLeaf_eq_false_of_prefix List.nil_prefix hbs
      rw [decodeTree_cons, if_neg (by simp [hnode']), ih _ _ hp' hne' hroot, List.length_cons, Nat.add_right_comm,
        Nat.add_assoc, Nat.add_right_comm, Nat.add_assoc depth]

/-! ### Many codes -/

/-- The decoder reads whole codes, as far as their symbols fit, and goes on with the rest (rule R179). -/
theorem decodeTree_flatMap {node : Vector Slot 511} {root cap : Nat} {code : Byte → List Bool} {data : List Byte}
    (k len : Nat) (rest : List Bool) (hcode : ∀ v ∈ data, LeafPath node v root (code v)) (hne : ∀ v ∈ data, code v ≠ [])
    (hcap : len + data.length ≤ cap) :
    decodeTree node root cap root 0 k len (data.flatMap code ++ rest) =
      decodeTree node root cap root 0 (k + (data.flatMap code).length) (len + data.length) rest >>= fun out =>
        .ok (data ++ out) := by
  induction data generalizing k len with
  | nil => exact (bind_pure _).symm
  | cons v data ih =>
    simp only [List.mem_cons, forall_eq_or_imp] at hcode hne
    rw [List.length_cons] at hcap
    rw [List.flatMap_cons, List.append_assoc, decodeTree_leafPath _ _ _ _ hcode.1 hne.1,
      bind_of_ok (require_eq_ok (u := ()).2 (by omega)), ih _ _ hcode.2 hne.2 (by omega), bind_assoc]
    simp only [List.length_append, List.length_cons, Nat.add_assoc, Nat.add_comm 1]
    rfl

/-- In a one-leaf tree each 0 bit is the leaf's symbol, as far as they fit (rule R180). -/
theorem decodeOneLeaf_replicate (sym : Byte) {cap : Nat} (k len m : Nat) (rest : List Bool) (hcap : len + m ≤ cap) :
    decodeOneLeaf sym cap k len (List.replicate m false ++ rest) =
      decodeOneLeaf sym cap (k + m) (len + m) rest >>= fun out => .ok (List.replicate m sym ++ out) := by
  induction m generalizing k len with
  | zero => exact (bind_pure _).symm
  | succ m ih =>
    rw [List.replicate_succ, List.cons_append, decodeOneLeaf, bind_of_ok (require_eq_ok (u := ()).2 rfl),
      bind_of_ok (require_eq_ok (u := ()).2 (by omega)), ih _ _ (by omega), bind_assoc]
    simp only [Nat.add_assoc, Nat.add_comm 1]
    rfl

/-! ### Decoding codes -/

theorem hufDecode_one (node : Vector Slot 511) (cap : Nat) (stream : List Bool) :
    hufDecode node 1 cap stream = decodeOneLeaf (slotOf node 0).sym cap 0 0 stream := by
  unfold hufDecode
  rw [if_neg Nat.one_ne_zero, if_pos rfl]

theorem hufDecode_of_one_lt {n : Nat} (hn : 1 < n) (node : Vector Slot 511) (cap : Nat) (stream : List Bool) :
    hufDecode node n cap stream = decodeTree node (n - 1) cap (n - 1) 0 0 0 stream := by
  unfold hufDecode
  rw [if_neg (by omega), if_neg (by omega)]

/-- The codes of bytes, decoded with their tree, are the bytes (rules R178 to R181, R184). -/
theorem hufDecode_flatMap {node : Vector Slot 511} {n cap : Nat} (h : ArenaTree node n) {data : List Byte}
    (hcode : ∀ v ∈ data, (codebook node n)[v.toNat]'v.isLt ≠ []) (hcap : data.length ≤ cap) :
    hufDecode node n cap (data.flatMap fun v => (codebook node n)[v.toNat]'v.isLt) = .ok data := by
  rcases Nat.lt_trichotomy n 1 with hn | rfl | hn
  · obtain rfl : n = 0 := by omega
    cases data with
    | nil => rfl
    | cons v data => exact absurd (codebook_zero_getElem node v) (hcode v (by simp))
  · have hsym : ∀ v ∈ data, v = (slotOf node 0).sym := fun v hv => by
      by_contra hc
      exact hcode v hv ((codebook_one_getElem node v).trans (if_neg hc))
    obtain ⟨m, rfl⟩ : ∃ m, data = List.replicate m (slotOf node 0).sym := ⟨_, List.eq_replicate_length.2 hsym⟩
    have hbits : (List.replicate m (slotOf node 0).sym).flatMap (fun v => (codebook node 1)[v.toNat]'v.isLt) =
        List.replicate m false ++ [] := by
      rw [List.flatMap_replicate, codebook_one_getElem, if_pos rfl, List.flatten_replicate_singleton, List.append_nil]
    rw [hbits, hufDecode_one, decodeOneLeaf_replicate _ _ _ _ _ (by simpa using hcap), decodeOneLeaf, bind_of_ok rfl,
      List.append_nil]
  · have hpath := fun v hv => h.codebook_leafPath hn (hcode v hv)
    have hloop := decodeTree_flatMap 0 0 [] hpath hcode ((Nat.zero_add _).trans_le hcap)
    rw [List.append_nil] at hloop
    rw [hufDecode_of_one_lt hn, hloop, decodeTree,
      bind_of_ok (require_eq_ok (u := ()).2 rfl)]
    exact (bind_of_ok rfl).trans (congrArg _ (List.append_nil _))

/-- What `HUF_DEC` commits when its stream decodes (rule R178). -/
theorem hufDecRule_of_decode {s : State} {src dst : BufId} {stream : List Bool} {out : List Byte}
    (htree : s.status.treeValid = true) (hstream : s.holdsStream src stream) (hlen : s.len src ≤ s.params.bufCap)
    (hbits : s.bits src ≤ 8 * s.len src)
    (hout : hufDecode s.node s.nodeCount.toNat s.params.bufCap stream = .ok out) :
    ∃ t, hufDecRule src dst s = .ok t ∧ t.status.err = s.status.err ∧ t.holds dst out ∧ t.bits dst = 8 * out.length ∧
      t.status.empty = decide (stream = []) := by
  have hcap := hufDecode_bound hout
  refine ⟨_, hufDecRule_eq_ok.2 ⟨hlen, hbits, htree, stream, out, hstream, hout, rfl⟩, rfl, holds_of_run hcap rfl rfl,
    bits_of_set (Nat.mul_le_mul_left 8 hcap) rfl, ?_⟩
  show (s.bits src == 0) = _
  rw [hstream.1]
  cases stream <;> rfl

/-- Settles O28: the stream is a sequence of codes, which the decoder reads one by one. -/
theorem hufDecCompletes : Obligations.HufDecCompletes := by
  rintro s src dst data _ htree hvalid rfl hcode hstream hlen hbits hcap
  obtain ⟨t, ht, herr, hout, houtbits, hempty⟩ :=
    hufDecRule_of_decode (dst := dst) hvalid hstream hlen hbits (hufDecode_flatMap htree.tree hcode hcap)
  refine ⟨t.finish, exec_of_ok (i := .hufDec src dst) ht, ⟨rfl, rfl⟩, herr, hout, houtbits, hempty.trans ?_⟩
  cases data with
  | nil => rfl
  | cons v data => simp [hcode v (by simp)]

end Sys2Proof.Machine

/-! # HUF_FREQ and HUF_BOOK

The counts of a buffer fit their entries, and the walk from the root gives each leaf its path and no other symbol a code (rules
R160, R170). -/

namespace Sys2Proof.Machine

/-! ### The counts -/

/-- Each entry is the count of its byte, which fits 32 bits (rules R7, R160). -/
theorem countBytes_getElem {p : Params} {data : List Byte} (hcap : data.length ≤ p.bufCap) (v : Byte) :
    ((countBytes data)[v.toNat]'v.isLt).toNat = data.count v := by
  have hle : data.count v ≤ data.length := List.count_le_length
  have hbound := (bufCap_bounds p).2
  rw [countBytes, tableOf_getElem, BitVec.ofNat_toNat, BitVec.setWidth_eq, toNat_ofNat_of_lt (by omega)]

/-- Settles O20: the counts are those of the bytes read, of which there are at most `BUF_CAP`. -/
theorem hufFreqCompletes : Obligations.HufFreqCompletes := by
  intro s src data hdata hcap
  refine ⟨_, exec_of_ok (i := .hufFreq src) (hufFreqRule_eq_ok.2 ⟨hdata.1.trans_le hcap, data, hdata, rfl⟩), ⟨rfl, rfl⟩, rfl,
    countBytes_getElem hcap, ?_⟩
  show (s.len src == 0) = _
  rw [hdata.1]
  cases data <;> rfl

/-! ### The longest code -/

theorem length_le_foldl_max (codes : List (List Bool)) (m : Nat) :
    m ≤ codes.foldl (fun m code => max m code.length) m ∧
      ∀ code ∈ codes, code.length ≤ codes.foldl (fun m code => max m code.length) m := by
  induction codes generalizing m with
  | nil => exact ⟨Nat.le_refl m, nofun⟩
  | cons c cs ih =>
    obtain ⟨hm, hle⟩ := ih (max m c.length)
    exact ⟨(le_max_left ..).trans hm, List.forall_mem_cons.2 ⟨(le_max_right ..).trans hm, hle⟩⟩

theorem foldl_max_mem (codes : List (List Bool)) (m : Nat) :
    codes.foldl (fun m code => max m code.length) m = m ∨
      ∃ code ∈ codes, code.length = codes.foldl (fun m code => max m code.length) m := by
  induction codes generalizing m with
  | nil => exact .inl rfl
  | cons c cs ih =>
    rcases ih (max m c.length) with heq | ⟨code, hcode, heq⟩
    · rcases max_choice m c.length with hmax | hmax
      · exact .inl (heq.trans hmax)
      · exact .inr ⟨c, by simp, (heq.trans hmax).symm⟩
    · exact .inr ⟨code, List.mem_cons_of_mem _ hcode, heq⟩

theorem length_le_longestCode (book : Vector (List Bool) 256) (v : Byte) :
    (book[v.toNat]'v.isLt).length ≤ longestCode book :=
  (length_le_foldl_max book.toList 0).2 _ (by simp)

theorem exists_length_eq_longestCode (book : Vector (List Bool) 256) :
    ∃ v : Byte, (book[v.toNat]'v.isLt).length = longestCode book := by
  rcases foldl_max_mem book.toList 0 with hzero | ⟨code, hcode, heq⟩
  · exact ⟨0, Nat.le_antisymm (length_le_longestCode book 0) (hzero.trans_le (Nat.zero_le _))⟩
  · obtain ⟨i, hi, rfl⟩ := Vector.getElem_of_mem (Vector.mem_toList_iff.1 hcode)
    refine ⟨BitVec.ofNat 8 i, ?_⟩
    simp only [toNat_ofNat_of_lt (w := 8) hi]
    exact heq

/-! ### The codes -/

namespace ArenaTree

variable {node : Vector Slot 511} {n : Nat} (h : ArenaTree node n)

include h

/-- A leaf of a tree of two or more nodes gives its symbol the path to it (rule R170). -/
theorem codebook_of_isLeaf (hn : 1 < n) {i : Nat} (hi : (slotOf node i).isLeaf = true) :
    LeafPath node (slotOf node i).sym (n - 1) ((codebook node n)[(slotOf node i).sym.toNat]'(slotOf node i).sym.isLt) ∧
      follow node (n - 1) ((codebook node n)[(slotOf node i).sym.toNat]'(slotOf node i).sym.isLt) = i := by
  have hpath := (h.codebook_getElem hn (slotOf node i).sym).resolve_right fun ⟨hnot, _⟩ => by
    obtain ⟨p, hp⟩ := h.leafPath_root (h.lt_of_isLeaf hi) (.leaf hi rfl)
    exact hnot p hp
  obtain ⟨hleaf, hsym⟩ := hpath.follow_isLeaf_sym
  exact ⟨hpath, h.symbols _ _ hleaf hi hsym⟩

/-- A symbol with a code has a leaf (rule R172). -/
theorem exists_leaf_of_code {v : Byte} (hv : (codebook node n)[v.toNat]'v.isLt ≠ []) :
    ∃ i, (slotOf node i).isLeaf = true ∧ (slotOf node i).sym = v := by
  rcases Nat.lt_trichotomy n 1 with hn | rfl | hn
  · obtain rfl : n = 0 := by omega
    exact absurd (codebook_zero_getElem node v) hv
  · refine ⟨0, h.isLeaf_of_one rfl, ?_⟩
    by_contra hc
    exact hv ((codebook_one_getElem node v).trans (if_neg (Ne.symm hc)))
  · exact ⟨_, (h.codebook_leafPath hn hv).follow_isLeaf_sym⟩

/-- A code of a tree's codebook that goes on from another is the same symbol's (rule R173). -/
theorem codebook_prefixFree {u v : Byte} (hu : (codebook node n)[u.toNat]'u.isLt ≠ [])
    (hv : (codebook node n)[v.toNat]'v.isLt ≠ [])
    (hprefix : (codebook node n)[u.toNat]'u.isLt <+: (codebook node n)[v.toNat]'v.isLt) : u = v := by
  by_cases hn : 1 < n
  · exact (h.codebook_leafPath hn hu).eq_of_prefix (h.codebook_leafPath hn hv) hprefix
  · obtain ⟨i, hi, rfl⟩ := h.exists_leaf_of_code hu
    obtain ⟨j, hj, rfl⟩ := h.exists_leaf_of_code hv
    have hin := h.lt_of_isLeaf hi
    have hjn := h.lt_of_isLeaf hj
    rw [show i = j by omega]

end ArenaTree

/-- Settles O25: codes are paths to leaves, and no path to a leaf goes on to another. -/
theorem codebookIsPrefixFree : Obligations.CodebookIsPrefixFree := by
  rintro freq _ u v rfl huv hu hv hprefix
  exact huv ((arenaTree_buildArena freq).codebook_prefixFree hu hv hprefix)

/-- Settles O24: the walk from the root reaches every leaf of the arena. -/
theorem hufBookCompletes : Obligations.HufBookCompletes := by
  rintro s _ ⟨htree, -⟩ hvalid rfl
  have hrule := hufBookRule_eq_ok.2 ⟨hvalid, rfl⟩
  have hlongest := (setBook_inv s).longest rfl
  refine ⟨_, exec_of_ok (i := .hufBook) hrule, ⟨rfl, rfl⟩, rfl, fun i hi hleaf => ⟨fun hn => ?_, fun hn => ?_⟩, fun v hv => ?_,
    fun v => ?_, ?_, rfl, rfl⟩
  · obtain rfl : i = 0 := by omega
    show (codebook s.node s.nodeCount.toNat)[_]'_ = _
    rw [hn, codebook_one_getElem, if_pos rfl]
  · obtain ⟨hpath, hfollow⟩ := htree.codebook_of_isLeaf hn hleaf
    exact ⟨hpath.ne_nil (htree.root_isLeaf_eq_false hn), hfollow, fun p hp hne => hpath.isLeaf_eq_false_of_prefix hp hne⟩
  · by_contra hc
    obtain ⟨i, hi, hsym⟩ := htree.exists_leaf_of_code hc
    exact hv i (htree.lt_of_isLeaf hi) hi hsym
  · exact (length_le_longestCode ..).trans_eq hlongest.symm
  · obtain ⟨v, hv⟩ := exists_length_eq_longestCode (codebook s.node s.nodeCount.toNat)
    exact ⟨v, hv.trans hlongest.symm⟩

end Sys2Proof.Machine

/-! # HUF_ENC and the errors of the Huffman commands

The encoder checks each byte in order, its code first and then the capacity, so the first check that fails decides the error
(rules R175, R177, R223). -/

namespace Sys2Proof.Machine

/-! ### One byte -/

section Byte

variable {s : State} {src : BufId} {i : Nat} {v : Byte} (hcell : cellGet s.mem (bufBase src + i) = some v)

include hcell

theorem encodeFrom_noCode (len k : Nat) (hcode : s.bookCode v = []) :
    s.encodeFrom src i len (k + 1) = .error (.raise .treeError i v.toNat) :=
  (bind_of_ok (readByte_eq_ok.2 hcell)).trans (bind_of_error (require_eq_error.2 ⟨by simp [hcode], rfl⟩))

theorem encodeFrom_overflow {len : Nat} (k : Nat) (hcode : s.bookCode v ≠ [])
    (hcap : 8 * s.params.bufCap < len + (s.bookCode v).length) :
    s.encodeFrom src i len (k + 1) = .error (.raise .capacityError i (bytesFor (len + (s.bookCode v).length))) :=
  (bind_of_ok (readByte_eq_ok.2 hcell)).trans <|
    (bind_of_ok (require_eq_ok (u := ()).2 (by simpa using hcode))).trans
      (bind_of_error (require_eq_error.2 ⟨not_le.2 hcap, rfl⟩))

theorem encodeFrom_succ {len : Nat} (k : Nat) (hcode : s.bookCode v ≠ [])
    (hcap : len + (s.bookCode v).length ≤ 8 * s.params.bufCap) :
    s.encodeFrom src i len (k + 1) =
      s.encodeFrom src (i + 1) (len + (s.bookCode v).length) k >>= fun rest => .ok (s.bookCode v ++ rest) :=
  (bind_of_ok (readByte_eq_ok.2 hcell)).trans <|
    (bind_of_ok (require_eq_ok (u := ()).2 (by simpa using hcode))).trans
      (bind_of_ok (require_eq_ok (u := ()).2 hcap))

end Byte

/-! ### Many bytes -/

theorem cells_cons {m : List Host.Cell} {a i : Nat} {v : Byte} {vs : List Byte}
    (h : ∀ j (hj : j < (v :: vs).length), cellGet m (a + (i + j)) = some (v :: vs)[j]) :
    cellGet m (a + i) = some v ∧ ∀ j (hj : j < vs.length), cellGet m (a + (i + 1 + j)) = some vs[j] := by
  refine ⟨h 0 (by simp), fun j hj => ?_⟩
  rw [Nat.add_assoc, Nat.add_comm 1]
  exact h (j + 1) (Nat.succ_lt_succ hj)

/-- The encoder stops at the byte after `done` as it stops there when it begins with it: the bytes of `done` have a code and fit
(rule R223). -/
theorem encodeFrom_error_after {s : State} {src : BufId} {done : List Byte} {i len k : Nat} {e : Stop}
    (hcells : ∀ j (h : j < done.length), cellGet s.mem (bufBase src + (i + j)) = some done[j])
    (hcode : ∀ v ∈ done, s.bookCode v ≠ []) (hcap : len + (done.flatMap s.bookCode).length ≤ 8 * s.params.bufCap)
    (he : s.encodeFrom src (i + done.length) (len + (done.flatMap s.bookCode).length) k = .error e) :
    s.encodeFrom src i len (done.length + k) = .error e := by
  induction done generalizing i len with
  | nil => rwa [List.length_nil, Nat.zero_add]
  | cons v done ih =>
    rw [List.forall_mem_cons] at hcode
    rw [List.flatMap_cons, List.length_append, ← Nat.add_assoc] at hcap he
    obtain ⟨hcell, hcells⟩ := cells_cons hcells
    rw [List.length_cons, Nat.add_comm done.length, ← Nat.add_assoc] at he
    rw [List.length_cons, Nat.add_right_comm, encodeFrom_succ hcell _ hcode.1 (by omega)]
    exact bind_of_error (ih hcells hcode.2 hcap he)

/-- When all bytes have a code, a stream above the capacity raises at the byte that exceeds it (rule R177). -/
theorem encodeFrom_capacity {s : State} {src : BufId} {data : List Byte} {i len : Nat}
    (hcells : ∀ j (h : j < data.length), cellGet s.mem (bufBase src + (i + j)) = some data[j])
    (hcode : ∀ v ∈ data, s.bookCode v ≠ []) (hlen : len ≤ 8 * s.params.bufCap)
    (hcap : 8 * s.params.bufCap < len + (data.flatMap s.bookCode).length) :
    ∃ info value, s.encodeFrom src i len data.length = .error (.raise .capacityError info value) := by
  induction data generalizing i len with
  | nil => simp at hcap; omega
  | cons v data ih =>
    rw [List.forall_mem_cons] at hcode
    rw [List.flatMap_cons, List.length_append, ← Nat.add_assoc] at hcap
    obtain ⟨hcell, hcells⟩ := cells_cons hcells
    by_cases hv : len + (s.bookCode v).length ≤ 8 * s.params.bufCap
    · obtain ⟨info, value, he⟩ := ih hcells hcode.2 hv hcap
      exact ⟨info, value, (encodeFrom_succ hcell _ hcode.1 hv).trans (bind_of_error he)⟩
    · exact ⟨_, _, encodeFrom_overflow hcell _ hcode.1 (not_le.1 hv)⟩

/-! ### HUF_ENC -/

/-- What `HUF_ENC` commits on bytes that all have a code (rules R174, R176). -/
theorem hufEncRule_of_holds {s : State} {src : BufId} {data : List Byte} (dst : BufId) (hdata : s.holds src data)
    (hlen : data.length ≤ s.params.bufCap) (hvalid : s.status.bookValid = true) (hcode : ∀ v ∈ data, s.bookCode v ≠ [])
    (hcap : (data.flatMap s.bookCode).length ≤ 8 * s.params.bufCap) :
    ∃ t, hufEncRule src dst s = .ok t ∧ t.status.err = s.status.err ∧
      t.holds dst (packBits (data.flatMap s.bookCode) false) ∧ t.bits dst = (data.flatMap s.bookCode).length ∧
      t.status.empty = decide (data = []) := by
  refine ⟨_, hufEncRule_eq_ok.2 ⟨hdata.1.trans_le hlen, hvalid, data, hdata, hcode, hcap, rfl⟩, rfl,
    holds_of_run (p := s.params) ?_ rfl rfl, bits_of_set hcap rfl, ?_⟩
  · rw [packBits_length, bytesFor]
    omega
  · show (s.len src == 0) = _
    rw [hdata.1]
    cases data <;> rfl

/-- Settles O27: the stream is what the packed bytes hold, and the pad is the rest of them. -/
theorem hufEncCompletes : Obligations.HufEncCompletes := by
  intro s src dst data hdata hlen hvalid hcode hcap
  obtain ⟨t, ht, herr, hout, hbits, hempty⟩ := hufEncRule_of_holds dst hdata hlen hvalid hcode hcap
  obtain ⟨hstream, hpad⟩ := hout.packed hbits
  exact ⟨t.finish, exec_of_ok (i := .hufEnc src dst) ht, ⟨rfl, rfl⟩, herr, hstream, hpad, hempty⟩

/-- An error of the encoder's loop is that of `HUF_ENC` (rule R174). -/
theorem hufEncRule_error {s : State} {src dst : BufId} {e : Stop} (hlen : s.len src ≤ s.params.bufCap)
    (hvalid : s.status.bookValid = true) (he : s.encodeFrom src 0 0 (s.len src) = .error e) :
    hufEncRule src dst s = .error e :=
  (bind_of_ok (lenOperand_ok hlen)).trans ((bind_of_ok (needBook_eq_ok (u := ()).2 hvalid)).trans (bind_of_error he))

/-- Settles O30: the encoder comes to byte `i`, whose code it checks before the capacity. -/
theorem hufEncDataErrors : Obligations.HufEncDataErrors := by
  rintro s src dst data i _ h hdata hlen hvalid hcode rfl hcap
  have hcell : cellGet s.mem (bufBase src + i) = some data[i] := hdata.2 i h
  have htake : (data.take i).length = i := List.length_take_of_le h.le
  obtain ⟨k, hk⟩ : ∃ k, s.len src = i + (k + 1) := ⟨data.length - i - 1, by rw [hdata.1]; omega⟩
  have hfails : ∀ {e info value},
      s.encodeFrom src i ((data.take i).flatMap s.bookCode).length (k + 1) = .error (.raise e info value) →
        ∃ t, exec (.hufEnc src dst) s = .next t ∧ s.failedAs t e info value := by
    intro e info value he
    refine exec_fails (i := .hufEnc src dst) (hufEncRule_error (hdata.1.trans_le hlen) hvalid ?_)
    have hloop := encodeFrom_error_after (s := s) (src := src) (done := data.take i) (i := 0) (len := 0) (k := k + 1)
      (fun j hj => ?_) hcode (by rwa [Nat.zero_add]) (by rwa [Nat.zero_add, Nat.zero_add, htake])
    · rwa [htake, ← hk] at hloop
    · rw [Nat.zero_add, List.getElem_take]
      exact hdata.2 j (by omega)
  exact ⟨fun hnone => hfails (encodeFrom_noCode hcell _ _ hnone),
    fun hsome hover => hfails (encodeFrom_overflow hcell _ hsome hover)⟩

/-! ### A missing tree or codebook -/

/-- Settles O38: the check comes after those of the source (rule R222). -/
theorem treeAndBookAreNeeded : Obligations.TreeAndBookAreNeeded := by
  refine fun s src dst => ⟨fun htree => ?_, fun hlen => ⟨fun hbook => ?_, fun hbits htree => ?_⟩⟩
  · exact exec_fails (i := .hufBook) (bind_of_error (needTree_error htree))
  · exact exec_fails (i := .hufEnc src dst) ((bind_of_ok (lenOperand_ok hlen)).trans (bind_of_error (needBook_error hbook)))
  · exact exec_fails (i := .hufDec src dst) <|
      (bind_of_ok (lenOperand_ok hlen)).trans <|
      (bind_of_ok (bitsOperand_ok hbits)).trans <|
      bind_of_error (needTree_error htree)

/-! ### Streams that HUF_DEC does not decode -/

/-- A stream of whole codes, as many as fit, and of one more (rule R183). -/
theorem hufDecode_capacity {node : Vector Slot 511} {n cap : Nat} (h : ArenaTree node n) (hn : 1 < n) {data : List Byte}
    {v : Byte} (rest : List Bool) (hdata : data.length = cap)
    (hcode : ∀ u ∈ data ++ [v], (codebook node n)[u.toNat]'u.isLt ≠ []) :
    hufDecode node n cap (((data ++ [v]).flatMap fun u => (codebook node n)[u.toNat]'u.isLt) ++ rest) =
      .error (.raise .capacityError (((data ++ [v]).flatMap fun u => (codebook node n)[u.toNat]'u.isLt).length - 1)
        (cap + 1)) := by
  have hpath := fun u hu => h.codebook_leafPath hn (hcode u hu)
  have hv : v ∈ data ++ [v] := by simp
  rw [hufDecode_of_one_lt hn, List.flatMap_append, List.append_assoc, List.flatMap_singleton,
    decodeTree_flatMap 0 0 _ (fun u hu => hpath u (List.mem_append_left _ hu))
      (fun u hu => hcode u (List.mem_append_left _ hu)) (by omega),
    decodeTree_leafPath _ _ _ _ (hpath v hv) (hcode v hv), Nat.zero_add, Nat.zero_add, hdata, List.length_append]
  exact bind_of_error (bind_of_error (require_eq_error.2 ⟨by omega, rfl⟩))

/-- A stream of whole codes and a part of one (rule R182). -/
theorem hufDecode_truncated {node : Vector Slot 511} {n cap : Nat} (h : ArenaTree node n) (hn : 1 < n) {data : List Byte}
    {v : Byte} {tail : List Bool} (hdata : data.length ≤ cap) (hcode : ∀ u ∈ data, (codebook node n)[u.toNat]'u.isLt ≠ [])
    (htail : tail ≠ []) (hprefix : tail <+: (codebook node n)[v.toNat]'v.isLt)
    (hne : tail ≠ (codebook node n)[v.toNat]'v.isLt) :
    hufDecode node n cap ((data.flatMap fun u => (codebook node n)[u.toNat]'u.isLt) ++ tail) =
      .error (.raise .truncatedStream ((data.flatMap fun u => (codebook node n)[u.toNat]'u.isLt) ++ tail).length
        tail.length) := by
  have hpath := h.codebook_leafPath hn fun hv => htail (List.prefix_nil.1 (hv ▸ hprefix))
  have hroot := h.follow_lt hpath (by omega) hprefix htail
  rw [hufDecode_of_one_lt hn,
    decodeTree_flatMap 0 0 _ (fun u hu => h.codebook_leafPath hn (hcode u hu)) hcode ((Nat.zero_add _).trans_le hdata),
    decodeTree_truncated _ _ _ hpath hprefix hne hroot.ne, Nat.zero_add, Nat.zero_add, List.length_append]
  rfl

/-- Settles O31: in each kind of tree the decoder reads whole codes and comes to the bit that stops it. -/
theorem hufDecDataErrors : Obligations.HufDecDataErrors := by
  rintro s src dst stream _ ⟨htree, -⟩ hvalid hstream hlen hbits rfl
  have hfails : ∀ {e info value},
      hufDecode s.node s.nodeCount.toNat s.params.bufCap stream = .error (.raise e info value) →
        ∃ t, exec (.hufDec src dst) s = .next t ∧ s.failedAs t e info value := fun he =>
    exec_fails (i := .hufDec src dst) <|
      (bind_of_ok (lenOperand_ok hlen)).trans <|
      (bind_of_ok (bitsOperand_ok hbits)).trans <|
      (bind_of_ok (needTree_eq_ok (u := ()).2 hvalid)).trans <|
      (bind_of_ok (streamBits_bits_eq_ok.2 hstream)).trans <|
      bind_of_error he
  refine ⟨?_, ?_, ?_, ?_, ?_⟩
  · rintro hn b rest rfl
    rw [hn] at hfails
    exact hfails rfl
  · rintro hn k rest hk rfl
    rw [hn] at hfails
    refine hfails ?_
    rw [show (1 : Word).toNat = 1 from rfl, hufDecode_one, decodeOneLeaf_replicate _ _ _ _ _ (by omega), Nat.zero_add,
      decodeOneLeaf]
    exact bind_of_error (bind_of_error (require_eq_error.2 ⟨by decide, rfl⟩))
  · rintro hn rest rfl
    rw [hn] at hfails
    refine hfails ?_
    rw [show (1 : Word).toNat = 1 from rfl, hufDecode_one, List.replicate_succ', List.append_assoc,
      decodeOneLeaf_replicate _ _ _ _ _ (by omega), Nat.zero_add, List.singleton_append, decodeOneLeaf]
    exact bind_of_error ((bind_of_ok (require_eq_ok (u := ()).2 rfl)).trans
      (bind_of_error (require_eq_error.2 ⟨by omega, rfl⟩)))
  · rintro hn data v rest hdata hcode rfl
    exact hfails (hufDecode_capacity htree hn rest hdata hcode)
  · rintro hn data v tail hdata hcode htail hprefix hne rfl
    exact hfails (hufDecode_truncated htree hn hdata hcode htail hprefix hne)

end Sys2Proof.Machine

/-! # The Huffman round trip

`HUF_FREQ`, `HUF_BUILD` and `HUF_BOOK` leave a tree and its codebook, in which every byte counted has a code; so `HUF_ENC` can
fail only for want of capacity, and `HUF_DEC` finds the bytes in its stream (rule R185). -/

namespace Sys2Proof.Machine

/-- A command's next state is what its rule gives. -/
theorem State.runsTo.eq_finish {s t u : State} {i : Instr} (h : s.runsTo i t) (hu : ruleOf i (s.latch (encode i)) = .ok u) :
    t = u.finish :=
  (Host.Outcome.next.inj ((exec_of_ok hu).symm.trans h)).symm

/-! ### What HUF_FREQ, HUF_BUILD and HUF_BOOK leave -/

/-- The buffers and the parameters are the same. -/
structure SameBuffers (s t : State) : Prop where
  params : t.params = s.params
  mem : t.mem = s.mem
  bufLen : t.bufLen = s.bufLen

theorem SameBuffers.trans {s t u : State} (h : SameBuffers s t) (h' : SameBuffers t u) : SameBuffers s u :=
  ⟨h'.params.trans h.params, h'.mem.trans h.mem, h'.bufLen.trans h.bufLen⟩

theorem SameBuffers.holds {s t : State} {n : BufId} {data : List Byte} (h : SameBuffers s t) (hdata : s.holds n data) :
    t.holds n data := by
  rw [State.holds, State.len, h.bufLen, h.mem]
  exact hdata

theorem hufFreq_runsTo {s t : State} {src : BufId} {data : List Byte} (hdata : s.holds src data)
    (hlen : data.length ≤ s.params.bufCap) (h : s.runsTo (.hufFreq src) t) :
    SameBuffers s t ∧ t.freq = countBytes data := by
  obtain rfl := h.eq_finish (hufFreqRule_eq_ok.2 ⟨hdata.1.trans_le hlen, data, hdata, rfl⟩)
  exact ⟨⟨rfl, rfl, rfl⟩, rfl⟩

theorem hufBuild_runsTo {s t : State} (h : s.runsTo .hufBuild t) :
    SameBuffers s t ∧ t.node = nodeTable (buildArena s.freq) ∧ t.nodeCount.toNat = (buildArena s.freq).length ∧
      t.status.treeValid = true := by
  obtain rfl := h.eq_finish rfl
  exact ⟨⟨rfl, rfl, rfl⟩, rfl, toNat_ofNat_of_lt ((buildArena_length_le _).trans_lt (by decide)), rfl⟩

theorem hufBook_runsTo {s t : State} (hvalid : s.status.treeValid = true) (h : s.runsTo .hufBook t) :
    SameBuffers s t ∧ t.node = s.node ∧ t.nodeCount = s.nodeCount ∧ t.book = codebook s.node s.nodeCount.toNat ∧
      t.status.bookValid = true := by
  obtain rfl := h.eq_finish (hufBookRule_eq_ok.2 ⟨hvalid, rfl⟩)
  exact ⟨⟨rfl, rfl, rfl⟩, rfl, rfl, rfl, rfl⟩

/-- The core has a tree and its codebook, with a code for every byte of `data` (rule R185). -/
structure HasCodesFor (s : State) (data : List Byte) : Prop where
  tree : ArenaTree s.node s.nodeCount.toNat
  valid : s.status.bookValid = true
  book : s.book = codebook s.node s.nodeCount.toNat
  code : ∀ v ∈ data, s.bookCode v ≠ []

/-- The tree of a buffer's counts has a code for every byte of the buffer (rules R160, R163, R172). -/
theorem hasCodesFor_of_runs {s s1 s2 s3 : State} {src : BufId} {data : List Byte} (hdata : s.holds src data)
    (hlen : data.length ≤ s.params.bufCap) (h1 : s.runsTo (.hufFreq src) s1) (h2 : s1.runsTo .hufBuild s2)
    (h3 : s2.runsTo .hufBook s3) : HasCodesFor s3 data ∧ SameBuffers s s3 := by
  obtain ⟨hsame1, hfreq⟩ := hufFreq_runsTo hdata hlen h1
  obtain ⟨hsame2, hnode, hcount, hvalid⟩ := hufBuild_runsTo h2
  obtain ⟨hsame3, hnode3, hcount3, hbook, hbookValid⟩ := hufBook_runsTo hvalid h3
  rw [hfreq] at hnode hcount
  rw [hnode, hcount] at hbook
  rw [hnode] at hnode3
  rw [← hcount3] at hcount
  refine ⟨⟨?_, hbookValid, ?_, fun v hv => ?_⟩, (hsame1.trans hsame2).trans hsame3⟩
  · rw [hnode3, hcount]
    exact arenaTree_buildArena _
  · rw [hbook, hnode3, hcount]
  · have hoccurs : (countBytes data)[v.toNat]'v.isLt ≠ 0 := fun h0 => by
      have hn := countBytes_getElem hlen v
      rw [h0] at hn
      exact (List.count_pos_iff.2 hv).ne hn
    exact (codesOfOccurringSymbols _ _ v hbook).1.2 hoccurs

/-! ### HUF_ENC and HUF_DEC with such a tree -/

namespace HasCodesFor

variable {s t : State} {src dst : BufId} {data : List Byte} (h : HasCodesFor s data)

include h

/-- `HUF_ENC` of these bytes writes their stream and leaves the tree, or does not fit (rules R174 to R177). -/
theorem hufEnc_cases (hdata : s.holds src data) (hlen : data.length ≤ s.params.bufCap) (hrun : s.runsTo (.hufEnc src dst) t) :
    (t.status.err = .none ∧ (data.flatMap s.bookCode).length ≤ 8 * s.params.bufCap ∧
      t.holds dst (packBits (data.flatMap s.bookCode) false) ∧ t.bits dst = (data.flatMap s.bookCode).length ∧
      t.node = s.node ∧ t.nodeCount = s.nodeCount) ∨
    (t.status.err = .capacityError ∧ 8 * s.params.bufCap < (data.flatMap s.bookCode).length) := by
  by_cases hcap : (data.flatMap s.bookCode).length ≤ 8 * s.params.bufCap
  · obtain ⟨u, hu, herr, hout, hbits, -⟩ :=
      hufEncRule_of_holds (s := s.latch (encode (.hufEnc src dst))) dst hdata hlen h.valid h.code hcap
    obtain rfl := hrun.eq_finish hu
    obtain ⟨-, -, _, -, -, -, rfl⟩ := hufEncRule_eq_ok.1 hu
    exact .inl ⟨herr, hcap, hout, hbits, rfl, rfl⟩
  · obtain ⟨info, value, he⟩ := encodeFrom_capacity (s := s.latch (encode (.hufEnc src dst))) (src := src) (i := 0)
      (len := 0) (fun j hj => by rw [Nat.zero_add]; exact hdata.2 j hj) h.code (Nat.zero_le _)
      (by rw [Nat.zero_add]; exact not_le.1 hcap)
    rw [← hdata.1] at he
    have hraise := exec_of_raise (i := .hufEnc src dst)
      (hufEncRule_error (s := s.latch (encode (.hufEnc src dst))) (dst := dst) (hdata.1.trans_le hlen) h.valid he)
    obtain rfl := Host.Outcome.next.inj (hraise.symm.trans hrun)
    exact .inr ⟨rfl, not_le.1 hcap⟩

/-- `HUF_DEC` of the bytes' packed stream, with the same tree, gives back the bytes (rules R178, R184). -/
theorem hufDec_runs {u : State} {out : BufId} (hlen : data.length ≤ u.params.bufCap) (hnode : u.node = s.node)
    (hcount : u.nodeCount = s.nodeCount) (hvalid : u.status.treeValid = true)
    (hheld : u.holds src (packBits (data.flatMap s.bookCode) false)) (hbits : u.bits src = (data.flatMap s.bookCode).length)
    (hcap : (data.flatMap s.bookCode).length ≤ 8 * u.params.bufCap) :
    ∃ v, u.runsTo (.hufDec src out) v ∧ v.status.err = .none ∧ v.holds out data := by
  have hcode : (fun v => (codebook u.node u.nodeCount.toNat)[v.toNat]'v.isLt) = s.bookCode := by
    rw [hnode, hcount, ← h.book]
    rfl
  have hdecode := hufDecode_flatMap (node := u.node) (n := u.nodeCount.toNat) (by rw [hnode, hcount]; exact h.tree)
    (fun v hv => by rw [hnode, hcount, ← h.book]; exact h.code v hv) hlen
  rw [hcode] at hdecode
  have hsize : u.len src = bytesFor (data.flatMap s.bookCode).length := hheld.1.trans (packBits_length ..)
  rw [bytesFor] at hsize
  obtain ⟨v, hv, herr, hout, -⟩ := hufDecRule_of_decode (s := u.latch (encode (.hufDec src out))) (dst := out) hvalid
    (hheld.packed hbits).1 (show u.len src ≤ u.params.bufCap by omega) (show u.bits src ≤ 8 * u.len src by omega) hdecode
  exact ⟨v.finish, exec_of_ok (i := .hufDec src out) hv, herr, hout⟩

end HasCodesFor

/-- Settles O29: the encoder's stream is the bytes' codes, or does not fit, and the decoder's tree is the encoder's. -/
theorem huffmanCommandsRoundTrip : Obligations.HuffmanCommandsRoundTrip := by
  intro s s1 s2 s3 s4 src dst data _ hdata hlen h1 h2 h3 h4
  obtain ⟨hcodes, hsame3⟩ := hasCodesFor_of_runs hdata hlen h1 h2 h3
  rw [← hsame3.params] at hlen ⊢
  rcases hcodes.hufEnc_cases (hsame3.holds hdata) hlen h4 with ⟨herr, hcap, hout, hbits, hnode, hcount⟩ | ⟨herr, hcap⟩
  · refine ⟨.inl herr, fun u out _ _ huparams hunode hucount hvalid hsame hubits => ?_⟩
    rw [← huparams] at hlen hcap
    exact hcodes.hufDec_runs hlen (hunode.trans hnode) (hucount.trans hcount) hvalid (hsame.holds hout) (hubits.trans hbits) hcap
  · refine ⟨.inr ⟨herr, hcap⟩, fun u out hnone => ?_⟩
    rw [herr] at hnone
    cases hnone

end Sys2Proof.Machine

/-! # HUF_BUILD

The queue is kept in order, so each merge takes its two least nodes; and the nodes that wait are those of the queue (rules R162,
R164). The leaves of the table stay the first nodes of the arena, and every node after them is a merge (rules R163, R165). -/

namespace Sys2Proof.Machine

/-! ### The order of the queue -/

theorem QNode.before_iff {a b : QNode} : a.before b = true ↔ a.freq < b.freq ∨ (a.freq = b.freq ∧ a.idx < b.idx) := by
  simp [QNode.before]

/-- The queue is in order (rule R162). -/
abbrev QueueSorted (queue : List QNode) : Prop := queue.Pairwise fun a b => a.before b = true

/-- A node is put in its place (rule R162). -/
theorem enqueue_sorted {a : QNode} {q : List QNode} (hq : QueueSorted q) (hne : ∀ b ∈ q, b.idx ≠ a.idx) :
    QueueSorted (enqueue a q) := by
  induction q with
  | nil => exact List.pairwise_singleton _ a
  | cons b q ih =>
    obtain ⟨hb, hq'⟩ := List.pairwise_cons.1 hq
    obtain ⟨hab, hne⟩ := List.forall_mem_cons.1 hne
    rw [enqueue]
    split_ifs with hbefore
    · refine List.pairwise_cons.2 ⟨List.forall_mem_cons.2 ⟨hbefore, fun x hx => ?_⟩, hq⟩
      have hbx := hb x hx
      rw [QNode.before_iff] at hbefore hbx ⊢
      omega
    · refine List.pairwise_cons.2 ⟨fun x hx => ?_, ih hq' hne⟩
      rcases List.mem_cons.1 ((enqueue_perm a q).subset hx) with rfl | hx
      · rw [QNode.before_iff] at hbefore ⊢
        omega
      · exact hb x hx

theorem le_idx_of_mem_queueFrom {k : Nat} {ns : List Slot} {q : QNode} (h : q ∈ queueFrom k ns) : k ≤ q.idx := by
  obtain ⟨p, hp, rfl⟩ := List.mem_map.1 ((queueFrom_perm k ns).subset h)
  exact List.le_snd_of_mem_zipIdx hp

theorem queueFrom_sorted (k : Nat) (ns : List Slot) : QueueSorted (queueFrom k ns) := by
  induction ns generalizing k with
  | nil => exact .nil
  | cons n ns ih => exact enqueue_sorted (ih (k + 1)) fun b hb => Nat.ne_of_gt (le_idx_of_mem_queueFrom hb)

/-! ### The two least -/

/-- Node `j` waits when node `k` is made: it is older and no child of an older node (rule R164). -/
def Waits (arena : List Slot) (k j : Nat) : Prop := j < k ∧ ∀ i, i < k → j ∉ (arenaSlot arena i).children

/-- The order of the nodes: by frequency, and among equal frequencies by index (rule R162). -/
def Precedes (arena : List Slot) (i j : Nat) : Prop :=
  (arenaSlot arena i).freq.toNat < (arenaSlot arena j).freq.toNat ∨
    ((arenaSlot arena i).freq.toNat = (arenaSlot arena j).freq.toNat ∧ i < j)

/-- Node `k` is made of the least node that waits and of the next (rule R164). -/
structure TakesLeast (arena : List Slot) (k l r : Nat) : Prop where
  left : Waits arena k l
  right : Waits arena k r
  ne : l ≠ r
  first : ∀ j, Waits arena k j → j ≠ l → Precedes arena l j
  second : ∀ j, Waits arena k j → j ≠ l → j ≠ r → Precedes arena r j

theorem waits_append {arena : List Slot} {k j : Nat} (hk : k ≤ arena.length) (more : List Slot) :
    Waits (arena ++ more) k j ↔ Waits arena k j := by
  refine and_congr_right fun _ => forall₂_congr fun i hi => ?_
  rw [arenaSlot_append_left (hi.trans_le hk)]

theorem precedes_append {arena : List Slot} {i j : Nat} (hi : i < arena.length) (hj : j < arena.length) (more : List Slot) :
    Precedes (arena ++ more) i j ↔ Precedes arena i j := by
  rw [Precedes, arenaSlot_append_left hi, arenaSlot_append_left hj, Precedes]

/-- What a node was made of stays so when the arena grows. -/
theorem TakesLeast.append {arena : List Slot} {k l r : Nat} (h : TakesLeast arena k l r) (hk : k ≤ arena.length)
    (more : List Slot) : TakesLeast (arena ++ more) k l r := by
  have hl := h.left.1.trans_le hk
  have hr := h.right.1.trans_le hk
  refine ⟨(waits_append hk more).2 h.left, (waits_append hk more).2 h.right, h.ne, fun j hj hjl => ?_, fun j hj hjl hjr => ?_⟩
  · rw [waits_append hk] at hj
    exact (precedes_append hl (hj.1.trans_le hk) more).2 (h.first j hj hjl)
  · rw [waits_append hk] at hj
    exact (precedes_append hr (hj.1.trans_le hk) more).2 (h.second j hj hjl hjr)

namespace ArenaInv

variable {total : Nat} {arena : List Slot} {queue : List QNode} (h : ArenaInv total arena queue)

include h

/-- The nodes that wait are those of the queue. -/
theorem waits_iff {j : Nat} : Waits arena arena.length j ↔ ∃ q ∈ queue, q.idx = j := by
  constructor
  · rintro ⟨hj, hnot⟩
    by_contra hc
    obtain ⟨i, hi, hchild⟩ := h.child_of_not_waiting hj fun q hq he => hc ⟨q, hq, he⟩
    rw [← arenaSlot_eq_getElem hi] at hchild
    exact hnot i hi hchild
  · rintro ⟨q, hq, rfl⟩
    refine ⟨h.idx_lt hq, fun i hi hchild => ?_⟩
    have hdisj := List.disjoint_of_nodup_append (h.links.nodup_iff.2 List.nodup_range)
    rw [arenaSlot_eq_getElem hi] at hchild
    exact hdisj (List.mem_flatMap.2 ⟨_, List.getElem_mem hi, hchild⟩) (List.mem_map_of_mem hq)

theorem precedes_of_before {a b : QNode} (ha : a ∈ queue) (hb : b ∈ queue) (hab : a.before b = true) :
    Precedes arena a.idx b.idx := by
  rw [Precedes, ← h.freqs a ha, ← h.freqs b hb]
  exact QNode.before_iff.1 hab

end ArenaInv

/-- A merge takes the two least nodes off a queue in order (rule R164). -/
theorem takesLeast_of_sorted {total : Nat} {arena : List Slot} {a b : QNode} {q : List QNode}
    (h : ArenaInv total arena (a :: b :: q)) (hsorted : QueueSorted (a :: b :: q)) :
    TakesLeast arena arena.length a.idx b.idx := by
  obtain ⟨hfirst, hrest⟩ := List.pairwise_cons.1 hsorted
  obtain ⟨hsecond, -⟩ := List.pairwise_cons.1 hrest
  have ha : a ∈ a :: b :: q := by simp
  have hb : b ∈ a :: b :: q := by simp
  have hnodup : ((a :: b :: q).map QNode.idx).Nodup := (h.links.nodup_iff.2 List.nodup_range).of_append_right
  refine ⟨h.waits_iff.2 ⟨a, ha, rfl⟩, h.waits_iff.2 ⟨b, hb, rfl⟩, fun he => ?_, fun j hj hja => ?_, fun j hj hja hjb => ?_⟩
  · simp [he] at hnodup
  · obtain ⟨x, hx, rfl⟩ := h.waits_iff.1 hj
    rcases List.mem_cons.1 hx with rfl | hx'
    · exact absurd rfl hja
    · exact h.precedes_of_before ha hx (hfirst x hx')
  · obtain ⟨x, hx, rfl⟩ := h.waits_iff.1 hj
    rcases List.mem_cons.1 hx with rfl | hx'
    · exact absurd rfl hja
    · rcases List.mem_cons.1 hx' with rfl | hx''
      · exact absurd rfl hjb
      · exact h.precedes_of_before hb hx (hsecond x hx'')

/-- What every merge keeps besides: the queue is in order, and each internal node was made of the two least (rule R164). -/
structure OrderInv (arena : List Slot) (queue : List QNode) : Prop where
  sorted : QueueSorted queue
  least : ∀ k f l r, arenaSlot arena k = .internal f l r → TakesLeast arena k l.toNat r.toNat

theorem OrderInv.merge {total : Nat} {arena : List Slot} {a b : QNode} {q : List QNode} (h : OrderInv arena (a :: b :: q))
    (ha : ArenaInv total arena (a :: b :: q)) (hlen : arena.length < 512) :
    OrderInv (arena ++ [mergedSlot a b]) (enqueue { freq := a.freq + b.freq, idx := arena.length } q) := by
  constructor
  case sorted =>
    refine enqueue_sorted (h.sorted.of_cons.of_cons) fun x hx => ?_
    exact (ha.idx_lt (List.mem_cons_of_mem a (List.mem_cons_of_mem b hx))).ne
  case least =>
    intro k f l r hk
    have hlt : k < (arena ++ [mergedSlot a b]).length := lt_of_arenaSlot_ne (by simp [hk])
    rw [List.length_append, List.length_singleton] at hlt
    by_cases hold : k < arena.length
    · rw [arenaSlot_append_left hold] at hk
      exact (h.least k f l r hk).append hold.le _
    · obtain rfl : k = arena.length := by omega
      have hidx : ∀ x ∈ a :: b :: q, (BitVec.ofNat 9 x.idx).toNat = x.idx := fun x hx =>
        toNat_ofNat_of_lt ((ha.idx_lt hx).trans hlen)
      rw [arenaSlot_append_length] at hk
      cases hk
      rw [hidx a (by simp), hidx b (by simp)]
      exact (takesLeast_of_sorted ha h.sorted).append le_rfl _

theorem orderInv_leaves (freq : Vector Word 256) :
    OrderInv (leavesFrom 0 freq.toList) (queueFrom 0 (leavesFrom 0 freq.toList)) := by
  refine ⟨queueFrom_sorted _ _, fun k f l r hk => ?_⟩
  have hlt := lt_of_arenaSlot_ne (arena := leavesFrom 0 freq.toList) (i := k) (by simp [hk])
  obtain ⟨f', hleaf⟩ := leaf_of_mem_leavesFrom (List.getElem_mem hlt)
  rw [arenaSlot_eq_getElem hlt, hleaf] at hk
  cases hk

theorem orderInv_buildArena (freq : Vector Word 256) : ∃ last, OrderInv (buildArena freq) last := by
  obtain ⟨last, -, -, h⟩ := mergeAll_induction
    (P := fun arena queue => (MergeInv (occurring freq) arena queue ∧
      ArenaInv (freq.toList.map BitVec.toNat).sum arena queue) ∧ OrderInv arena queue)
    (fun arena a b q ⟨⟨hm, ha⟩, ho⟩ => by
      have hsize := hm.size
      have hocc := occurring_length_le freq
      simp only [List.length_cons] at hsize
      have hlen : arena.length < 512 := by omega
      exact ⟨⟨hm.merge hocc, ha.merge (sum_freq_lt freq) hlen⟩, ho.merge ha hlen⟩)
    ⟨⟨mergeInv_leaves freq, arenaInv_leaves freq⟩, orderInv_leaves freq⟩
    (by rw [queueFrom_length]; exact Nat.le_succ _)
  exact ⟨last, h⟩

theorem slotOf_buildArena (freq : Vector Word 256) : slotOf (nodeTable (buildArena freq)) = arenaSlot (buildArena freq) :=
  funext (slotOf_nodeTable (buildArena_length_le freq))

theorem childBefore_iff {node : Vector Slot 511} {k j : Nat} :
    childBefore node k j ↔ ∃ i, i < k ∧ j ∈ (slotOf node i).children := by
  refine exists_congr fun i => and_congr_right fun _ => ⟨fun ⟨hp, hl, hj⟩ => ?_, Slot.mem_children⟩
  rw [Slot.eq_internal hp hl]
  simpa [Slot.children, eq_comm] using hj

/-- Settles O22: the nodes that wait are those of the queue, which is in order. -/
theorem hufBuildMergesTwoLeast : Obligations.HufBuildMergesTwoLeast := by
  intro freq node k l r waiting before hnode hp hl hleft hright hwaiting hbefore
  subst hleft hright hnode
  have htree := arenaTree_buildArena freq
  have hslot := slotOf_buildArena freq
  obtain ⟨last, horder⟩ := orderInv_buildArena freq
  obtain ⟨-, -, -, hsum⟩ := htree.children k ((htree.present k).1 hp) hl
  have hw : ∀ j, waiting j ↔ Waits (buildArena freq) k j := fun j => by
    rw [hwaiting, childBefore_iff, hslot, Waits]
    push Not
    rfl
  have hb : ∀ i j, before i j ↔ Precedes (buildArena freq) i j := fun i j => by
    rw [hbefore, hslot, Precedes]
  rw [hslot] at hp hl hsum ⊢
  simp only [hw, hb]
  have hleast := horder.least k _ _ _ (Slot.eq_internal hp hl)
  exact ⟨hleast.left, hleast.right, hleast.ne, hleast.first, hleast.second, hsum⟩

/-! ### The root -/

/-- Settles O23: the one node that waits at the end is the root, and the frequencies of those that wait always add up to the
table's sum. -/
theorem hufBuildMakesTree : Obligations.HufBuildMakesTree := by
  intro freq node n hnode hn
  subst hnode hn
  refine ⟨arenaTree_buildArena freq, ?_⟩
  obtain ⟨last, hlast, hm, ha⟩ := arenaInv_buildArena freq
  rw [slotOf_buildArena]
  match last, hlast with
  | [], _ =>
    obtain ⟨⟨ts, hts, hsym⟩, -, -⟩ := hm
    cases hts
    have hempty := buildArena_eq_nil (List.nil_perm.1 hsym)
    rw [← ha.sum, hempty]
    rfl
  | [q], _ =>
    have hroot := hm.root q rfl
    rw [← ha.sum, ← hroot, Nat.add_sub_cancel, ← ha.freqs q (by simp)]
    simp

/-! ### The leaves and the merges after them -/

/-- The leaf of an occurring symbol (rules R163, R168). -/
def leafOf (freq : Vector Word 256) (v : Byte) : Slot := .leaf v ((freq[v.toNat]'v.isLt).setWidth 40)

/-- The leaves are those of the symbols that occur, in ascending order (rule R163). -/
theorem leavesFrom_eq_map (freq : Vector Word 256) :
    leavesFrom 0 freq.toList =
      (((List.range 256).map (BitVec.ofNat 8)).filter fun v => freq[v.toNat]'v.isLt ≠ 0).map (leafOf freq) := by
  have hzip : freq.toList.zipIdx = ((List.range 256).map (BitVec.ofNat 8)).map fun v => (freq[v.toNat]'v.isLt, v.toNat) := by
    refine List.ext_getElem (by simp) fun i hi _ => ?_
    have hi : i < 256 := by simpa using hi
    simp [Nat.mod_eq_of_lt hi]
  rw [leavesFrom_eq_filterMap, hzip, List.filterMap_map]
  generalize (List.range 256).map (BitVec.ofNat 8) = symbols
  induction symbols with
  | nil => rfl
  | cons v symbols ih =>
    rw [List.filterMap_cons, ih]
    by_cases hv : freq[v.toNat]'v.isLt = 0
    · rw [List.filter_cons_of_neg (by simpa using hv)]
      simp only [Function.comp_apply, if_pos hv]
    · rw [List.filter_cons_of_pos (by simpa using hv)]
      simp only [Function.comp_apply, if_neg hv, BitVec.ofNat_toNat, BitVec.setWidth_eq, List.map_cons, leafOf]

/-- The arena is the leaves and the merges (rule R164). -/
theorem buildArena_eq_append (freq : Vector Word 256) :
    ∃ merges, buildArena freq = leavesFrom 0 freq.toList ++ merges ∧
      ∀ n ∈ merges, n.present = true ∧ n.isLeaf = false := by
  obtain ⟨-, -, h⟩ := mergeAll_induction
    (P := fun arena _ => ∃ merges, arena = leavesFrom 0 freq.toList ++ merges ∧
      ∀ n ∈ merges, n.present = true ∧ n.isLeaf = false)
    (fun arena a b q ⟨merges, harena, hmerges⟩ => by
      refine ⟨merges ++ [mergedSlot a b], by rw [harena, List.append_assoc], fun n hn => ?_⟩
      rcases List.mem_append.1 hn with hn | hn
      · exact hmerges n hn
      · obtain rfl := List.mem_singleton.1 hn
        exact ⟨rfl, rfl⟩)
    ⟨[], (List.append_nil _).symm, nofun⟩ (queue := queueFrom 0 (leavesFrom 0 freq.toList))
    (by rw [queueFrom_length]; exact Nat.le_succ _)
  exact h

/-- An arena has one merge less than leaves (rule R165). -/
theorem buildArena_length (freq : Vector Word 256) :
    (buildArena freq).length = 2 * (leavesFrom 0 freq.toList).length - 1 := by
  have hocc : (occurring freq).length = (leavesFrom 0 freq.toList).length := List.length_map ..
  by_cases h : occurring freq = []
  · rw [buildArena_eq_nil h, ← hocc, h]
    rfl
  · obtain ⟨t, -, hsym, hlen⟩ := buildArena_represents freq h
    rw [hsym.length_eq] at hlen
    omega

/-- The slots of the arena of a frequency table: the leaves, the merges, and absent slots (rules R162 to R165). -/
theorem slots_of_buildArena {freq : Vector Word 256} {leaves : List Byte}
    (hleaves : leaves = ((List.range 256).map (BitVec.ofNat 8)).filter fun v => freq[v.toNat]'v.isLt ≠ 0) :
    (buildArena freq).length = 2 * leaves.length - 1 ∧
    (∀ i (h : i < leaves.length), arenaSlot (buildArena freq) i = leafOf freq leaves[i]) ∧
    (∀ i, leaves.length ≤ i → i < 2 * leaves.length - 1 →
      (arenaSlot (buildArena freq) i).present = true ∧ (arenaSlot (buildArena freq) i).isLeaf = false) ∧
    (∀ i, 2 * leaves.length - 1 ≤ i → arenaSlot (buildArena freq) i = .absent) := by
  have hmap := leavesFrom_eq_map freq
  rw [← hleaves] at hmap
  have hlen := buildArena_length freq
  obtain ⟨merges, harena, hmerges⟩ := buildArena_eq_append freq
  rw [hmap] at harena hlen
  rw [List.length_map] at hlen
  refine ⟨hlen, fun i hi => ?_, fun i hlo hhi => ?_, fun i hi => ?_⟩
  · have hi' : i < (leaves.map (leafOf freq)).length := by rwa [List.length_map]
    rw [harena, arenaSlot_append_left hi', arenaSlot_eq_getElem hi', List.getElem_map]
  · rw [← hlen] at hhi
    rw [arenaSlot_eq_getElem hhi]
    have hmem : (buildArena freq)[i] ∈ merges := by
      simp only [harena]
      rw [List.getElem_append_right (by rwa [List.length_map])]
      exact List.getElem_mem _
    exact hmerges _ hmem
  · exact List.getD_eq_default _ _ (hlen.trans_le hi)

/-- Settles O21: the command commits the arena of `FREQ`, whatever it is. -/
theorem hufBuildCompletes : Obligations.HufBuildCompletes := by
  intro s leaves hleaves
  obtain ⟨hlen, hleaf, hmerge, habsent⟩ := slots_of_buildArena hleaves
  rw [← slotOf_buildArena] at hleaf hmerge habsent
  have hcount : (BitVec.ofNat 32 (buildArena s.freq).length).toNat = (buildArena s.freq).length :=
    toNat_ofNat_of_lt ((buildArena_length_le _).trans_lt (by decide))
  refine ⟨_, exec_of_ok (i := .hufBuild) rfl, ⟨rfl, rfl⟩, rfl, rfl, hcount, hcount.trans hlen, hleaf, hmerge, habsent, rfl, rfl,
    ?_, rfl⟩
  show ((buildArena s.freq).length == 0) = _
  rw [hlen]
  cases leaves with
  | nil => rfl
  | cons v leaves => simp; omega

end Sys2Proof.Machine

/-! # The control commands

`BUF_CMP` compares two buffers index by index, each continued by the value 256 behind its end, and stops at the first index where
they differ (rule R202). -/

namespace Sys2Proof.Machine

/-! ### NOP and RESET -/

/-- Settles O7: the rule of `RESET` is the state after reset, and completion sets `DONE` in it. -/
theorem resetCompletes : Obligations.ResetCompletes := fun s =>
  exec_of_ok (i := .reset) (u := s.softReset) rfl

/-- Settles O8: the rule of `NOP` is the state as it is. -/
theorem nopCompletes : Obligations.NopCompletes := fun s => exec_of_ok (i := .nop) (u := s) rfl

/-! ### BUF_CMP -/

/-- What `BUF_CMP` compares at index `i` of a buffer that holds `data` (rule R202). -/
def cmpValue (data : List Byte) (i : Nat) : Nat := (data[i]?.map BitVec.toNat).getD 256

theorem cmpValue_eq_iff {a b : List Byte} {i : Nat} : cmpValue a i = cmpValue b i ↔ a[i]? = b[i]? := by
  unfold cmpValue
  cases a[i]? with
  | none =>
    cases b[i]? with
    | none => simp
    | some y => simpa using y.isLt.ne'
  | some x =>
    cases b[i]? with
    | none => simpa using x.isLt.ne
    | some y => simp [BitVec.toNat_inj]

theorem cmpByte_of_holds {s : State} {n : BufId} {data : List Byte} (h : s.holds n data) (i : Nat) :
    s.cmpByte n data.length i = .ok (cmpValue data i) := by
  obtain ⟨-, hcells⟩ := h
  by_cases hi : i < data.length
  · rw [State.cmpByte, if_pos hi, readByte_eq_ok.2 (hcells i hi)]
    simp [cmpValue, hi]
  · rw [State.cmpByte, if_neg hi]
    simp [cmpValue, not_lt.1 hi]

section Compare

variable {s : State} {src dst : BufId} {a b : List Byte} (ha : s.holds src a) (hb : s.holds dst b)

include ha hb

/-- One index of the loop of `BUF_CMP`. -/
theorem cmpFrom_succ (i k : Nat) :
    s.cmpFrom src dst a.length b.length i (k + 1) =
      require (cmpValue a i = cmpValue b i) (.raise .roundtripMismatch i (cmpValue a i + 65536 * cmpValue b i)) >>= fun _ =>
        s.cmpFrom src dst a.length b.length (i + 1) k :=
  (bind_of_ok (cmpByte_of_holds ha i)).trans (bind_of_ok (cmpByte_of_holds hb i))

/-- The loop of `BUF_CMP` goes past the indices at which the buffers agree. -/
theorem cmpFrom_of_agree {i n : Nat} (k : Nat) (hagree : ∀ j, j < i + n → a[j]? = b[j]?) :
    s.cmpFrom src dst a.length b.length i (n + k) = s.cmpFrom src dst a.length b.length (i + n) k := by
  induction n generalizing i with
  | zero => rw [Nat.zero_add, Nat.add_zero]
  | succ n ih =>
    have hhere : cmpValue a i = cmpValue b i := cmpValue_eq_iff.2 (hagree i (by omega))
    rw [Nat.add_right_comm n 1 k, cmpFrom_succ ha hb, bind_of_ok (require_eq_ok (u := ()).2 hhere),
      ih fun j hj => hagree j (by omega), Nat.add_right_comm i 1 n, Nat.add_assoc]

/-- The rule of `BUF_CMP` on legal lengths is its loop. -/
theorem bufCmpRule_of_holds (hlenA : a.length ≤ s.params.bufCap) (hlenB : b.length ≤ s.params.bufCap) :
    bufCmpRule src dst s = s.cmpFrom src dst a.length b.length 0 (max a.length b.length) >>= fun _ => .ok s := by
  rw [← ha.1, ← hb.1] at *
  exact (bind_of_ok (lenOperand_ok hlenA)).trans (bind_of_ok (lenOperand_ok hlenB))

end Compare

/-- Settles O9: the loop goes past every index. -/
theorem bufCmpEqualCompletes : Obligations.BufCmpEqualCompletes := by
  intro s src dst data hsrc hdst hlen
  have hloop : s.cmpFrom src dst data.length data.length 0 (max data.length data.length) = .ok () :=
    cmpFrom_of_agree hsrc hdst 0 fun _ _ => rfl
  exact exec_of_ok (i := .bufCmp src dst) ((bufCmpRule_of_holds hsrc hdst hlen hlen).trans (bind_of_ok hloop))

/-- Settles O10: the loop goes past the indices before `i` and stops there. -/
theorem bufCmpReportsFirstDifference : Obligations.BufCmpReportsFirstDifference := by
  intro s src dst a b i hsrc hdst hlenA hlenB hbefore hdiff
  have hi : i < max a.length b.length := by
    by_contra hend
    rw [not_lt, max_le_iff] at hend
    exact hdiff (by rw [List.getElem?_eq_none hend.1, List.getElem?_eq_none hend.2])
  obtain ⟨k, hk⟩ : ∃ k, max a.length b.length = i + (k + 1) := ⟨max a.length b.length - i - 1, by omega⟩
  have hloop : s.cmpFrom src dst a.length b.length 0 (max a.length b.length) =
      .error (.raise .roundtripMismatch i (cmpValue a i + 65536 * cmpValue b i)) := by
    rw [hk, cmpFrom_of_agree hsrc hdst (k + 1) (by simpa using hbefore), Nat.zero_add, cmpFrom_succ hsrc hdst]
    exact bind_of_error (require_eq_error.2 ⟨fun h => hdiff (cmpValue_eq_iff.1 h), rfl⟩)
  exact exec_fails (i := .bufCmp src dst) ((bufCmpRule_of_holds hsrc hdst hlenA hlenB).trans (bind_of_error hloop))

end Sys2Proof.Machine

/-! # The pipeline

`COMPRESS` and `DECOMPRESS` are the Huffman round trip inside the LZW round trip. What the inner one keeps of the outer one is a frame:
the parameters, the registers of the LZW commands, and the input in `BUF0`, which no command of the pipeline writes (rules R212 to
R214). -/

namespace Sys2Proof.Machine

/-! ### What a run leaves -/

/-- A command but `RESET` leaves the bytes of a buffer that it does not write (rule R54). -/
theorem State.runsTo.holds_other {s t : State} {i : Instr} {n : BufId} {data : List Byte} (h : s.runsTo i t) (hr : i ≠ .reset)
    (hn : writesBuffer i ≠ some n) (hlen : data.length ≤ s.params.bufCap) (hdata : s.holds n data) : t.holds n data := by
  rcases exec_cases h with ⟨u, hu, rfl⟩ | ⟨e, info, value, -, rfl⟩
  · have hcap := (bufCap_bounds s.params).2
    refine ⟨(congrArg BitVec.toNat (hu.lengths hr hn).1).trans hdata.1, fun j hj => ?_⟩
    rcases hu.mem with hmem | ⟨dst, bytes, hdst, hbytes, -, hmem⟩
    · rw [State.finish_mem, hmem]
      exact hdata.2 j hj
    · have hbytes : bytes.length ≤ s.params.bufCap := hbytes
      rw [State.finish_mem, hmem, cellGet_cellPutRun_outside]
      · exact hdata.2 j hj
      · by_contra hin
        have haddr : bufBase n + j = bufBase dst + (bufBase n + j - bufBase dst) := by omega
        obtain ⟨rfl, -⟩ := bufBase_add_inj (by omega) (by omega) haddr
        exact hn hdst
  · exact hdata

/-- What the pipeline's commands may find later as it was before command `i` ran. -/
structure RunFrame (i : Instr) (s t : State) : Prop where
  params : t.params = s.params
  maxDict : t.maxDict = s.maxDict
  bitWidth : (∀ a b, i ≠ .lzwEnc a b) → t.bitWidth = s.bitWidth
  freq : (∀ a, i ≠ .hufFreq a) → t.freq = s.freq
  tree : i ≠ .hufBuild → t.node = s.node ∧ t.nodeCount = s.nodeCount
  bytes : ∀ {n : BufId} {data : List Byte}, writesBuffer i ≠ some n → data.length ≤ s.params.bufCap → s.holds n data →
    t.holds n data

theorem State.runsTo.frame {s t : State} {i : Instr} (h : s.runsTo i t) (hr : i ≠ .reset) : RunFrame i s t := by
  obtain ⟨hparams, -, -, hrest⟩ := registerAndTableFrame _ _ _ h
  obtain ⟨-, hmax, -, hwidth, -, -, hfreq, htree, -⟩ := hrest hr
  exact ⟨hparams, hmax, hwidth, hfreq, fun hi => ⟨(htree hi).1, (htree hi).2.1⟩, h.holds_other hr⟩

/-- The operands of `LZW_DEC` beside its stream, and the input in `BUF0`, are the same. -/
structure SameOperands (s t : State) : Prop where
  params : t.params = s.params
  maxDict : t.maxDict = s.maxDict
  bitWidth : t.bitWidth = s.bitWidth
  input : ∀ {data : List Byte}, data.length ≤ s.params.bufCap → s.holds 0 data → t.holds 0 data

theorem SameOperands.trans {s t u : State} (h : SameOperands s t) (h' : SameOperands t u) : SameOperands s u :=
  ⟨h'.params.trans h.params, h'.maxDict.trans h.maxDict, h'.bitWidth.trans h.bitWidth,
    fun hlen hdata => h'.input (h.params ▸ hlen) (h.input hlen hdata)⟩

theorem RunFrame.sameOperands {s t : State} {i : Instr} (h : RunFrame i s t) (hi : ∀ a b, i ≠ .lzwEnc a b)
    (hn : writesBuffer i ≠ some 0) : SameOperands s t :=
  ⟨h.params, h.maxDict, h.bitWidth hi, h.bytes hn⟩

/-- A command whose rule gives a result records no error (rules R81, R82). -/
theorem State.runsTo.err_eq_none {s t u : State} {i : Instr} (h : s.runsTo i t) (hr : i ≠ .reset)
    (hu : ruleOf i (s.latch (encode i)) = .ok u) : t.status.err = .none := by
  obtain rfl := h.eq_finish hu
  exact ((ruleOf_eq_ok hu).errorRecord hr).1

theorem sameBytes_of_holds {s t : State} {n : BufId} {data : List Byte} (hs : s.holds n data) (ht : t.holds n data) :
    s.sameBytes t n :=
  ⟨ht.1.trans hs.1.symm, fun i hi => (ht.2 i (hs.1 ▸ hi)).trans (hs.2 i (hs.1 ▸ hi)).symm⟩

/-! ### The runs of the pipeline's commands -/

/-- `LZW_ENC` on legal operands fails only for want of capacity; else the encoded bytes fit the destination (rules R110, R120). -/
theorem lzwEnc_runsTo {s t : State} {src dst : BufId} {data : List Byte} (hdata : s.holds src data)
    (hlen : data.length ≤ s.params.bufCap) (hlo : 256 ≤ s.maxDict.toNat) (hhi : s.maxDict.toNat ≤ s.params.dictCap)
    (h : s.runsTo (.lzwEnc src dst) t) (hcap : t.status.err ≠ .capacityError) :
    t.status.err = .none ∧ ∃ bytes : List Byte, t.holds dst bytes ∧ bytes.length ≤ s.params.bufCap := by
  rcases le_or_gt (bytesFor ((lzwEncode data s.maxDict.toNat).codes.length * clog2 (lzwEncode data s.maxDict.toNat).nextCode))
    s.params.bufCap with hfits | hover
  · have hrule := (lzwEncRule_eq_ok (s := s.latch (encode (.lzwEnc src dst))) (dst := dst)).2
      ⟨hdata.1.trans_le hlen, ⟨hlo, hhi⟩, data, hdata, hfits, rfl⟩
    refine ⟨h.err_eq_none nofun hrule, _, h.eq_finish hrule ▸ (lzwEncRule_writes (s := s.latch (encode (.lzwEnc src dst))) hdata hrule).output, ?_⟩
    rw [packCodes_length]
    exact hfits
  · obtain ⟨t', hrun, hfail⟩ := packedStreamAboveCapacityFails.1 (s.latch (encode (.lzwEnc src dst))) src dst data _ _ hdata
      hlen hlo hhi rfl rfl hover
    obtain rfl := Host.Outcome.next.inj (hrun.symm.trans h)
    rw [hfail] at hcap
    exact absurd rfl hcap

/-- The three commands that make the tree and the codebook of a buffer record no error (rules R160, R162, R169). -/
theorem hufTree_runs_err {s s1 s2 s3 : State} {src : BufId} {data : List Byte} (hdata : s.holds src data)
    (hlen : data.length ≤ s.params.bufCap) (h1 : s.runsTo (.hufFreq src) s1) (h2 : s1.runsTo .hufBuild s2)
    (h3 : s2.runsTo .hufBook s3) : s1.status.err = .none ∧ s2.status.err = .none ∧ s3.status.err = .none := by
  obtain ⟨-, -, -, hvalid⟩ := hufBuild_runsTo h2
  exact ⟨h1.err_eq_none nofun (hufFreqRule_eq_ok.2 ⟨hdata.1.trans_le hlen, data, hdata, rfl⟩), h2.err_eq_none nofun rfl,
    h3.err_eq_none nofun (hufBookRule_eq_ok.2 ⟨hvalid, rfl⟩)⟩

/-- `HUF_BUILD` run again with the same `FREQ` makes the same tree, and leaves the buffers (rule R167). -/
theorem hufBuild_runs_again {s t u : State} (n : BufId) (h : s.runsTo .hufBuild t) (hfreq : u.freq = s.freq) :
    ∃ v, u.runsTo .hufBuild v ∧ v.status.err = .none ∧ v.node = t.node ∧ v.nodeCount = t.nodeCount ∧
      v.status.treeValid = true ∧ u.sameBytes v n ∧ v.bits n = u.bits n := by
  have hrun : u.runsTo .hufBuild _ := exec_of_ok (i := .hufBuild) rfl
  obtain ⟨-, hnode, hcount, -⟩ := hufBuild_runsTo h
  obtain ⟨-, hnode', hcount', hvalid⟩ := hufBuild_runsTo hrun
  rw [hfreq] at hnode' hcount'
  exact ⟨_, hrun, hrun.err_eq_none nofun rfl, hnode'.trans hnode.symm, BitVec.eq_of_toNat_eq (hcount'.trans hcount.symm),
    hvalid, ⟨rfl, fun _ _ => rfl⟩, rfl⟩

/-- `HUF_DEC` writes whole bytes (rule R184). -/
theorem hufDec_runsTo_bits {s t : State} {src dst : BufId} (h : s.runsTo (.hufDec src dst) t) (herr : t.status.err = .none) :
    t.bits dst = 8 * t.len dst := by
  rcases exec_eq_next h with ⟨u, hu, rfl⟩ | ⟨e, info, value, hr, rfl⟩
  · obtain ⟨-, -, -, stream, out, -, hout, rfl⟩ := hufDecRule_eq_ok.1 hu
    have hcap := hufDecode_bound hout
    rw [bits_of_set (Nat.mul_le_mul_left 8 hcap) rfl, len_of_set hcap rfl]
  · exact absurd herr (ruleOf_raises hr)

/-- `BUF_CMP` on equal buffers records no error and leaves the buffers (rule R202). -/
theorem bufCmp_runs {s : State} {src dst : BufId} {data : List Byte} (hsrc : s.holds src data) (hdst : s.holds dst data)
    (hlen : data.length ≤ s.params.bufCap) :
    ∃ t, s.runsTo (.bufCmp src dst) t ∧ t.status.err = .none ∧ t.holds src data ∧ t.holds dst data :=
  ⟨_, bufCmpEqualCompletes (s.latch (encode (.bufCmp src dst))) src dst data hsrc hdst hlen, rfl, hsrc, hdst⟩

/-! ### The round trips -/

/-- The inner round trip: the Huffman commands of `COMPRESS` and of `DECOMPRESS` give back the bytes of `BUF1`, and leave what the LZW
commands around them need (rules R185, R212, R213). -/
theorem huffmanStage_roundTrips {s1 s2 s3 s4 s5 : State} {bytes : List Byte} (hbytes : s1.holds 1 bytes)
    (hlen : bytes.length ≤ s1.params.bufCap) (h2 : s1.runsTo (.hufFreq 1) s2) (h3 : s2.runsTo .hufBuild s3)
    (h4 : s3.runsTo .hufBook s4) (h5 : s4.runsTo (.hufEnc 1 2) s5) (hcap : s5.status.err ≠ .capacityError) :
    s5.status.err = .none ∧ ∃ s6 s7, s5.runsTo .hufBuild s6 ∧ s6.status.err = .none ∧ s6.runsTo (.hufDec 2 1) s7 ∧
      s7.status.err = .none ∧ SameOperands s1 s7 ∧ s1.sameBytes s7 1 ∧ s7.bits 1 = 8 * s1.len 1 := by
  obtain ⟨henc, hdec⟩ := huffmanCommandsRoundTrip s1 s2 s3 s4 s5 1 2 bytes (by decide) hbytes hlen h2 h3 h4 h5
  have herr5 : s5.status.err = .none := henc.resolve_right fun h => hcap h.1
  have f3 := h3.frame nofun
  have f4 := h4.frame nofun
  have f5 := h5.frame nofun
  have hfreq : s5.freq = s2.freq := (f5.freq nofun).trans ((f4.freq nofun).trans (f3.freq nofun))
  have htree : s5.node = s3.node ∧ s5.nodeCount = s3.nodeCount := by
    obtain ⟨hnode4, hcount4⟩ := f4.tree nofun
    obtain ⟨hnode5, hcount5⟩ := f5.tree nofun
    exact ⟨hnode5.trans hnode4, hcount5.trans hcount4⟩
  obtain ⟨s6, h6, herr6, hnode6, hcount6, hvalid6, hsame6, hbits6⟩ := hufBuild_runs_again 2 h3 hfreq
  have hops6 : SameOperands s1 s6 :=
    ((h2.frame nofun).sameOperands nofun nofun).trans <| (f3.sameOperands nofun nofun).trans <|
      (f4.sameOperands nofun nofun).trans <| (f5.sameOperands nofun (by decide)).trans <|
      (h6.frame nofun).sameOperands nofun nofun
  obtain ⟨s7, h7, herr7, hbytes7⟩ := hdec s6 1 herr5 (by decide) hops6.params (hnode6.trans htree.1.symm)
    (hcount6.trans htree.2.symm) hvalid6 hsame6 hbits6
  have hsame7 := sameBytes_of_holds hbytes hbytes7
  exact ⟨herr5, s6, s7, h6, herr6, h7, herr7, hops6.trans ((h7.frame nofun).sameOperands nofun (by decide)), hsame7,
    (hufDec_runsTo_bits h7 herr7).trans (congrArg (8 * ·) hsame7.1)⟩

/-- Settles O32: the inner round trip gives back the stream of `LZW_ENC`, from which `LZW_DEC` gives back the input. -/
theorem pipelineRoundTrips : Obligations.PipelineRoundTrips := by
  intro s s1 s2 s3 s4 s5 data hdata hlen hlo hhi h1 hcap1 h2 h3 h4 h5 hcap5
  have f1 := h1.frame nofun
  obtain ⟨herr1, bytes, hbytes, hbytesLen⟩ := lzwEnc_runsTo hdata hlen hlo hhi h1 hcap1
  rw [← f1.params] at hbytesLen
  obtain ⟨herr2, herr3, herr4⟩ := hufTree_runs_err hbytes hbytesLen h2 h3 h4
  obtain ⟨herr5, s6, s7, h6, herr6, h7, herr7, hops7, hsame7, hbits7⟩ :=
    huffmanStage_roundTrips hbytes hbytesLen h2 h3 h4 h5 hcap5
  obtain ⟨s8, h8, herr8, hdata8⟩ := lzwCommandsRoundTrip s s1 s7 0 1 3 data (by decide) (by decide) hdata h1 herr1
    (hops7.params.trans f1.params) (hops7.maxDict.trans f1.maxDict) hops7.bitWidth hsame7 (.inr hbits7)
  have hops8 := hops7.trans ((h8.frame nofun).sameOperands nofun (by decide))
  have hinput8 : s8.holds 0 data := hops8.input (f1.params ▸ hlen) (f1.bytes (by decide) hlen hdata)
  obtain ⟨s9, h9, herr9, hinput9, hdata9⟩ := bufCmp_runs hinput8 hdata8 (by rwa [hops8.params, f1.params])
  exact ⟨herr1, herr2, herr3, herr4, herr5, s6, s7, s8, s9, h6, herr6, h7, herr7, h8, herr8, h9, herr9, hdata9, hinput9⟩

end Sys2Proof.Machine

/-! # Failure, reissue and the interrupt output

A command that stops on an error leaves the state of its issue but for the error's record, and a new issue clears that record. -/

namespace Sys2Proof.Machine

/-! ### Failed commands -/

/-- A command that commits from a state with no error leaves no error, `RESET` included (rules R82, R201). -/
theorem Commits.err_eq_none {s u : State} {i : Instr} (h : Commits s i u) (hs : s.status.err = .none) :
    u.status.err = .none := by
  by_cases hr : i = .reset
  · subst hr
    cases h
    rfl
  · exact (h.errorRecord hr).1.trans hs

/-- A command that ends with an error did not commit: issue cleared the error of the command before (rules R81, R226). -/
theorem exec_latch_failedAs {s t : State} {c : Word} {i : Instr} (h : exec i (s.latch c) = .next t)
    (herr : t.status.err ≠ .none) : ∃ e info value, (s.latch c).failedAs t e info value := by
  rcases exec_cases h with ⟨u, hu, rfl⟩ | ⟨e, info, value, -, rfl⟩
  · exact absurd (hu.err_eq_none rfl) herr
  · exact ⟨e, info, value, failedAs_iff.2 rfl⟩

/-- The numbers of an error's record can be read off the registers (rules R39, R40). -/
theorem State.failedAs.registers {s t : State} {e : ErrCode} {info value : Nat} (h : s.failedAs t e info value) :
    s.failedAs t t.status.err t.errInfo.toNat t.errValue.toNat := by
  simp only [State.failedAs, BitVec.ofNat_toNat, BitVec.setWidth_eq]
  obtain rfl := failedAs_iff.1 h
  rfl

/-- Settles O40: a command that ends with an error is the state of its issue but for the record, and issue clears `EMPTY` and
`FROZEN`. -/
theorem failureCommitsNothing : Obligations.FailureCommitsNothing := by
  intro s t c i h herr
  obtain ⟨e, info, value, hfail⟩ := exec_latch_failedAs h herr
  refine ⟨hfail.registers, ?_⟩
  obtain rfl := failedAs_iff.1 hfail
  exact ⟨rfl, rfl⟩

/-- Issuing the same word again after a failure gives the state of the first issue (rules R81, R228). -/
theorem latch_of_failedAs {s t : State} {c : Word} {e : ErrCode} {info value : Nat} (h : (s.latch c).failedAs t e info value) :
    t.latch c = s.latch c := by
  obtain rfl := failedAs_iff.1 h
  rfl

/-- Settles O41: the second issue starts the command in the same state as the first. -/
theorem failedCommandFailsAgain : Obligations.FailedCommandFailsAgain := by
  intro s t i h herr
  obtain ⟨e, info, value, hfail⟩ := exec_latch_failedAs h herr
  rw [State.runsTo, latch_of_failedAs hfail]
  exact h

/-! ### The interrupt output -/

theorem exec_completed {i : Instr} {s t : State} (h : exec i s = .next t) : t.completed := by
  rcases exec_eq_next h with ⟨u, -, rfl⟩ | ⟨e, info, value, -, rfl⟩
  · exact ⟨rfl, rfl⟩
  · exact ⟨rfl, rfl⟩

theorem State.irq_of_done {s : State} (h : s.status.done = true) : s.irq = s.irqEn := by
  rw [State.irq, h, Bool.and_true]

theorem State.irq_of_not_done {s : State} (h : s.status.done = false) : s.irq = false := by
  rw [State.irq, h, Bool.and_false]

/-- A write to `CTRL` takes effect in every state (rules R24, R84). -/
theorem hostWrite_ctrl (s : State) (v : Word) : hostWrite s .s32 0x04 v = .ok { s with irqEn := v.getLsbD 0 } := by
  have hl : locate s.params .s32 0x04 = some (.register .ctrl) := locate_register s.params rfl (by decide)
  rw [hostWrite, hl]
  dsimp only
  split_ifs <;> rfl

/-- Settles O60: `IRQ` is `CTRL.IRQ_EN` while `DONE = 1`, as after a completion, and 0 while `DONE = 0`, as after an issue or a
write that clears `DONE`. -/
theorem interruptFollowsDone : Obligations.InterruptFollowsDone := by
  refine ⟨fun i s t h => ?completion, fun s t c hb h => ?issue, fun s t v hv h => ?clear, fun s t v hdone h => ?enable⟩
  case completion =>
    refine ⟨State.irq_of_done (exec_completed h).2, fun hi => ?_⟩
    subst hi
    cases (resetCompletes s).symm.trans h
    rfl
  case issue =>
    cases (hostWrite_reg hb c .cmd).symm.trans h
    exact State.irq_of_not_done rfl
  case clear =>
    cases (hostWrite_status s v).symm.trans h
    exact State.irq_of_not_done (by simp [Status.writeOneToClear, hv])
  case enable =>
    cases (hostWrite_ctrl s v).symm.trans h
    exact State.irq_of_done hdone

end Sys2Proof.Machine

/-! # Reset

Rule R261 gives every piece of state its value in two columns, after hardware reset and after `RESET`; they differ in `DONE`, in
`CMD`, and in what `RESET` keeps: the buffers' contents and `CODES`. -/

namespace Sys2Proof.Machine

/-! ### The values of rule R261, as the host and the commands read them -/

theorem toNat_readReg_bufCapR (s : State) : (s.readReg .bufCapR).toNat = s.params.bufCap :=
  toNat_ofNat_of_lt ((bufCap_bounds s.params).2.trans_lt (by decide))

theorem toNat_readReg_dictCapR (s : State) : (s.readReg .dictCapR).toNat = s.params.dictCap :=
  toNat_ofNat_of_lt ((dictCap_bounds s.params).2.trans_lt (by decide))

theorem readReg_ctrl_of_reset {s : State} (h : s.irqEn = false) : s.readReg .ctrl = 0 := by
  rw [State.readReg, h]
  rfl

theorem lengths_of_reset {s : State} (hlen : s.bufLen = Vector.replicate 4 0) (hbits : s.bufBits = Vector.replicate 4 0)
    (n : BufId) : s.len n = 0 ∧ s.bits n = 0 := by
  simp [State.len, State.bits, hlen, hbits]

theorem freqOf_of_reset {s : State} (h : s.freq = Vector.replicate 256 0) (v : Byte) : s.freqOf v = 0 := by
  simp [State.freqOf, h]

theorem slotOf_of_reset {s : State} (h : s.node = Vector.replicate 511 .absent) (i : Nat) : slotOf s.node i = .absent := by
  rcases Nat.lt_or_ge i 511 with hi | hi
  · simp [slotOf, h, Vector.getD, hi]
  · exact slotOf_beyond hi

theorem bookCode_of_reset {s : State} (h : s.book = Vector.replicate 256 []) (v : Byte) : s.bookCode v = [] := by
  simp [State.bookCode, h]

/-- Settles O5: the first column is the state of hardware reset, the second the completion of `RESET`, with `DONE = 1` and
`CTRL.IRQ_EN = 0`. -/
theorem resetStates : Obligations.ResetStates := by
  refine ⟨rfl, fun p s hs => ?hardware, fun s t h => ?command⟩
  case hardware =>
    subst hs
    exact ⟨rfl, rfl, readReg_ctrl_of_reset rfl, rfl, rfl, rfl, rfl, rfl, rfl, rfl, rfl, rfl, rfl, lengths_of_reset rfl rfl,
      toNat_readReg_bufCapR _, toNat_readReg_dictCapR _, rfl, freqOf_of_reset rfl, slotOf_of_reset rfl, bookCode_of_reset rfl,
      fun _ => rfl, fun _ => rfl, rfl, State.irq_of_not_done rfl⟩
  case command =>
    obtain rfl : t = ((s.latch (encode .reset)).softReset).finish := h.eq_finish rfl
    exact ⟨rfl, readReg_ctrl_of_reset rfl, rfl, rfl, rfl, rfl, rfl, rfl, rfl, rfl, rfl, rfl, lengths_of_reset rfl rfl,
      toNat_readReg_bufCapR _, toNat_readReg_dictCapR _, rfl, freqOf_of_reset rfl, slotOf_of_reset rfl, bookCode_of_reset rfl,
      rfl, rfl, rfl, State.irq_of_done rfl⟩

/-- Settles O6: in the host's turn the step is the host's next operation, which leaves the reset state and takes itself off the
host program, whether or not a command is pending. -/
theorem hardResetAbandonsCommand : Obligations.HardResetAbandonsCommand := by
  intro s rest hhost hturn
  exact ⟨(s.popHost rest).hardReset, (step_of_hostOp hturn hhost).1 _ rfl, rfl, rfl⟩

/-! ### The invariants of the reset state -/

theorem memoryInv_of_reset {s : State} (hmem : s.mem = []) (hcodes : s.codes = []) : s.MemoryInv := by
  constructor <;> simp [hmem, hcodes, Memory.wf, cellsWf]

theorem statusInv_of_reset {s : State} (hst : s.status = Status.reset) (hi : s.errInfo = 0) (hv : s.errValue = 0) :
    s.StatusInv := by
  constructor <;> simp [hst, Status.reset, hi, hv]

/-- Settles O50: both memories are empty, `STATUS` is 0, `NEXT_CODE` is 256, and there is neither a node nor a valid codebook. -/
theorem resetMeetsInvariants : Obligations.ResetMeetsInvariants := fun _ =>
  ⟨memoryInv_of_reset rfl rfl, statusInv_of_reset rfl rfl rfl, nextCodeInv_of_reset rfl, treeInv_of_reset rfl rfl,
    .of_invalid rfl⟩

end Sys2Proof.Machine
